-- ==== Sys2Proof/Word.lean ====
section
/-! DEFINITION. The 32-bit word, the two channels, the nine stages of the cascade, and the plain containers indexed by
them. Nothing here computes: arithmetic on samples is in Machine/Float.lean. -/

namespace Sys2Proof

/-- A 32-bit register or data word (00_scope R9, 20_memory R86). -/
abbrev Word := BitVec 32

/-- A binary32 bit pattern (00_scope R8): never converted, only interpreted by Machine/Float.lean. -/
abbrev F32 := Word

/-- The two audio channels and their rings: 0 is left, 1 is right (00_scope R7, `NCH`). -/
inductive Chan where
  | left
  | right
deriving DecidableEq, Repr, Inhabited

/-- The channel's number in the spec (0 or 1). -/
def Chan.index : Chan → Nat
  | .left => 0
  | .right => 1

/-- One value per channel. -/
structure PerCh (α : Type) where
  left : α
  right : α
deriving DecidableEq, Repr, Inhabited

/-- The value of channel `ch`. -/
def PerCh.get {α : Type} (p : PerCh α) : Chan → α
  | .left => p.left
  | .right => p.right

/-- Replace the value of channel `ch`. -/
def PerCh.set {α : Type} (p : PerCh α) (ch : Chan) (v : α) : PerCh α :=
  match ch with
  | .left => { p with left := v }
  | .right => { p with right := v }

/-- The four stages of one cut bank (00_scope R7, `NSTG` = 4). -/
structure Bank (α : Type) where
  k0 : α
  k1 : α
  k2 : α
  k3 : α
deriving DecidableEq, Repr, Inhabited

/-- Entry `k` of a bank. -/
def Bank.get {α : Type} (b : Bank α) (k : Fin 4) : α :=
  match k with
  | 0 => b.k0
  | 1 => b.k1
  | 2 => b.k2
  | 3 => b.k3

/-- The bank whose entry `k` is `f k`. -/
def Bank.ofFn {α : Type} (f : Fin 4 → α) : Bank α := ⟨f 0, f 1, f 2, f 3⟩

/-- Replace entry `k` of a bank. -/
def Bank.set {α : Type} (b : Bank α) (k : Fin 4) (v : α) : Bank α :=
  match k with
  | 0 => { b with k0 := v }
  | 1 => { b with k1 := v }
  | 2 => { b with k2 := v }
  | 3 => { b with k3 := v }

/-- A position in the chain (10_state R45): stage index j = 0..3 is `lc j`, j = 4 is `pk`, j = 5..8 is `hc (j - 5)`. -/
inductive Stage where
  | lc (k : Fin 4)
  | pk
  | hc (k : Fin 4)
deriving DecidableEq, Repr

/-- One value per stage of the chain. -/
structure Stages (α : Type) where
  lc : Bank α
  pk : α
  hc : Bank α
deriving DecidableEq, Repr, Inhabited

/-- The value of stage `j`. -/
def Stages.get {α : Type} (t : Stages α) : Stage → α
  | .lc k => t.lc.get k
  | .pk => t.pk
  | .hc k => t.hc.get k

/-- Replace the value of stage `j`. -/
def Stages.set {α : Type} (t : Stages α) (j : Stage) (v : α) : Stages α :=
  match j with
  | .lc k => { t with lc := t.lc.set k v }
  | .pk => { t with pk := v }
  | .hc k => { t with hc := t.hc.set k v }

/-- The same value at every stage. -/
def Stages.all {α : Type} (v : α) : Stages α := ⟨⟨v, v, v, v⟩, v, ⟨v, v, v, v⟩⟩

/-- The chain order LC0..LC3, PK, HC0..HC3 (10_state R45, 41_audio_engine R203). -/
def stageOrder : List Stage :=
  [.lc 0, .lc 1, .lc 2, .lc 3, .pk, .hc 0, .hc 1, .hc 2, .hc 3]

/-- One biquad coefficient set, normalised to a0 = 1 (10_state R45). -/
structure Coef where
  b0 : F32
  b1 : F32
  b2 : F32
  a1 : F32
  a2 : F32
deriving DecidableEq, Repr, Inhabited

/-- The running state of one stage of one channel (10_state R47). -/
structure StageState where
  s1 : F32
  s2 : F32
deriving DecidableEq, Repr, Inhabited

end Sys2Proof
end

