-- ==== Sys2Proof/Syntax.lean ====
section
/-! DEFINITION. The operations of YBQ as abstract syntax: one constructor per row of spec/opcode_table.json. Bits the
decoder ignores (30_encoding R128) are no operands (log entry 13). -/

namespace Sys2Proof

/-- The host-visible registers of 20_memory R81. -/
inductive HostReg where
  | id
  | caps
  | status
  | pkFreq
  | pkGain
  | pkQ
  | lcFreq
  | hcFreq
  | slope
  | bypass
  | chgPeek
  | chgTac
  | ringStat (ch : Chan)
  | ringHlen (ch : Chan)
  | ringPop (ch : Chan)
  | ringWin (ch : Chan) (i : BitVec 12)
deriving DecidableEq, Repr

/-- The operations. `d` is the write data D, `i` a window index ADDR[13:2], `a` the word address ADDR[15:2] of a
reserved register. -/
inductive Instr where
  | rdId
  | rdCaps
  | rdStatus
  | wrPkFreq (d : Word)
  | rdPkFreq
  | wrPkGain (d : Word)
  | rdPkGain
  | wrPkQ (d : Word)
  | rdPkQ
  | wrLcFreq (d : Word)
  | rdLcFreq
  | wrHcFreq (d : Word)
  | rdHcFreq
  | wrSlope (d : Word)
  | rdSlope
  | wrBypass (d : Word)
  | rdBypass
  | rdChgPeek
  | rdChgTac
  | rdRingStat0
  | rdRingHlen0
  | rdRingPop0
  | rdRingStat1
  | rdRingHlen1
  | rdRingPop1
  | rdRingWin0 (i : BitVec 12)
  | rdRingWin1 (i : BitVec 12)
  | wrRoId (d : Word)
  | wrRoCaps (d : Word)
  | wrRoStatus (d : Word)
  | wrRoChgPeek (d : Word)
  | wrRoChgTac (d : Word)
  | wrRoRingStat0 (d : Word)
  | wrRoRingHlen0 (d : Word)
  | wrRoRingPop0 (d : Word)
  | wrRoRingStat1 (d : Word)
  | wrRoRingHlen1 (d : Word)
  | wrRoRingPop1 (d : Word)
  | wrRoRingWin0 (i : BitVec 12) (d : Word)
  | wrRoRingWin1 (i : BitVec 12) (d : Word)
  | rdRsv (a : BitVec 14)
  | wrRsv (a : BitVec 14) (d : Word)
  | nop
  | prepare (n : Word) (m : BitVec 2)
  | blockStart (fs : F32)
  | frame (x0 x1 : F32)
  | rsvKind4
  | rsvKind5
  | rsvKind6
  | rsvKind7
  | rsvKind8
  | rsvKind9
  | rsvKindA
  | rsvKindB
  | rsvKindC
  | rsvKindD
  | rsvKindE
  | rsvKindF
deriving DecidableEq, Repr

/-- A word on one of the two ports (30_encoding R120): the port tells the format, so no bit of the word does. -/
inductive PortWord where
  | host (w : BitVec 64)
  | audio (w : BitVec 72)
deriving DecidableEq, Repr

end Sys2Proof
end

