-- ==== Sys2Proof/WellFormed.lean ====
section
/-! DEFINITION. Which terms of `Instr` an encoding can produce. Operand widths are exact in the types; the one condition
left is that the address of a reserved-register operation is reserved (20_memory R82). -/

namespace Sys2Proof

/-- The reserved word addresses of 20_memory R82, as ranges of the byte address 4 * a. -/
def reservedAddr (a : BitVec 14) : Bool :=
  let b := 4 * a.toNat
  decide (0x000C ≤ b ∧ b ≤ 0x00FC) || decide (b = 0x011C) || decide (0x0128 ≤ b ∧ b ≤ 0x01FC)
    || decide (0x020C ≤ b ∧ b ≤ 0x021C) || decide (0x022C ≤ b ∧ b ≤ 0x3FFC) || decide (0xC000 ≤ b ∧ b ≤ 0xFFFC)

/-- An instruction is well formed unless it names a mapped register as a reserved one. -/
def Instr.wellFormed : Instr → Bool
  | .rdRsv a => reservedAddr a
  | .wrRsv a _ => reservedAddr a
  | .rdId | .rdCaps | .rdStatus | .wrPkFreq _ | .rdPkFreq | .wrPkGain _ | .rdPkGain | .wrPkQ _ | .rdPkQ
  | .wrLcFreq _ | .rdLcFreq | .wrHcFreq _ | .rdHcFreq | .wrSlope _ | .rdSlope | .wrBypass _ | .rdBypass
  | .rdChgPeek | .rdChgTac | .rdRingStat0 | .rdRingHlen0 | .rdRingPop0 | .rdRingStat1 | .rdRingHlen1 | .rdRingPop1
  | .rdRingWin0 _ | .rdRingWin1 _ | .wrRoId _ | .wrRoCaps _ | .wrRoStatus _ | .wrRoChgPeek _ | .wrRoChgTac _
  | .wrRoRingStat0 _ | .wrRoRingHlen0 _ | .wrRoRingPop0 _ | .wrRoRingStat1 _ | .wrRoRingHlen1 _ | .wrRoRingPop1 _
  | .wrRoRingWin0 _ _ | .wrRoRingWin1 _ _ | .nop | .prepare _ _ | .blockStart _ | .frame _ _
  | .rsvKind4 | .rsvKind5 | .rsvKind6 | .rsvKind7 | .rsvKind8 | .rsvKind9 | .rsvKindA | .rsvKindB | .rsvKindC
  | .rsvKindD | .rsvKindE | .rsvKindF => true

end Sys2Proof
end

