-- ==== Sys2Proof/Decode.lean ====
section
/-! DEFINITION. Decoding of HOSTBUS and AUDIO words (30_encoding R120 to R128), total on every word, and the encoder
written from the same tables. -/

namespace Sys2Proof

/-! ### The host register map -/

/-- The register rows of 20_memory R81 (all but the two windows), by byte address. -/
def hostMap : List (BitVec 16 × HostReg) :=
  [(0x0000#16, .id), (0x0004#16, .caps), (0x0008#16, .status),
   (0x0100#16, .pkFreq), (0x0104#16, .pkGain), (0x0108#16, .pkQ), (0x010C#16, .lcFreq), (0x0110#16, .hcFreq),
   (0x0114#16, .slope), (0x0118#16, .bypass),
   (0x0120#16, .chgPeek), (0x0124#16, .chgTac),
   (0x0200#16, .ringStat .left), (0x0204#16, .ringHlen .left), (0x0208#16, .ringPop .left),
   (0x0220#16, .ringStat .right), (0x0224#16, .ringHlen .right), (0x0228#16, .ringPop .right)]

/-- The register at word address `a` = ADDR[15:2], none where 20_memory R82 reserves it. Window words are
ADDR[15:14] = 01 and 10 with index ADDR[13:2] (30_encoding R123, R124). -/
def hostRegAt (a : BitVec 14) : Option HostReg :=
  let i : BitVec 12 := a.extractLsb' 0 12
  let top : BitVec 2 := a.extractLsb' 12 2
  if top = 1#2 then some (.ringWin .left i)
  else if top = 2#2 then some (.ringWin .right i)
  else hostMap.lookup (a ++ 0#2)

/-- The byte address of a register (20_memory R81). -/
def HostReg.addr : HostReg → BitVec 16
  | .id => 0x0000#16
  | .caps => 0x0004#16
  | .status => 0x0008#16
  | .pkFreq => 0x0100#16
  | .pkGain => 0x0104#16
  | .pkQ => 0x0108#16
  | .lcFreq => 0x010C#16
  | .hcFreq => 0x0110#16
  | .slope => 0x0114#16
  | .bypass => 0x0118#16
  | .chgPeek => 0x0120#16
  | .chgTac => 0x0124#16
  | .ringStat .left => 0x0200#16
  | .ringHlen .left => 0x0204#16
  | .ringPop .left => 0x0208#16
  | .ringStat .right => 0x0220#16
  | .ringHlen .right => 0x0224#16
  | .ringPop .right => 0x0228#16
  | .ringWin .left i => (1#2 ++ i) ++ 0#2
  | .ringWin .right i => (2#2 ++ i) ++ 0#2

/-- The read operation of a register (30_encoding R124, column W = 0). -/
def HostReg.readOp : HostReg → Instr
  | .id => .rdId
  | .caps => .rdCaps
  | .status => .rdStatus
  | .pkFreq => .rdPkFreq
  | .pkGain => .rdPkGain
  | .pkQ => .rdPkQ
  | .lcFreq => .rdLcFreq
  | .hcFreq => .rdHcFreq
  | .slope => .rdSlope
  | .bypass => .rdBypass
  | .chgPeek => .rdChgPeek
  | .chgTac => .rdChgTac
  | .ringStat .left => .rdRingStat0
  | .ringHlen .left => .rdRingHlen0
  | .ringPop .left => .rdRingPop0
  | .ringStat .right => .rdRingStat1
  | .ringHlen .right => .rdRingHlen1
  | .ringPop .right => .rdRingPop1
  | .ringWin .left i => .rdRingWin0 i
  | .ringWin .right i => .rdRingWin1 i

/-- The write operation of a register (30_encoding R124, column W = 1): WR.RO for every read-only register. -/
def HostReg.writeOp (r : HostReg) (d : Word) : Instr :=
  match r with
  | .id => .wrRoId d
  | .caps => .wrRoCaps d
  | .status => .wrRoStatus d
  | .pkFreq => .wrPkFreq d
  | .pkGain => .wrPkGain d
  | .pkQ => .wrPkQ d
  | .lcFreq => .wrLcFreq d
  | .hcFreq => .wrHcFreq d
  | .slope => .wrSlope d
  | .bypass => .wrBypass d
  | .chgPeek => .wrRoChgPeek d
  | .chgTac => .wrRoChgTac d
  | .ringStat .left => .wrRoRingStat0 d
  | .ringHlen .left => .wrRoRingHlen0 d
  | .ringPop .left => .wrRoRingPop0 d
  | .ringStat .right => .wrRoRingStat1 d
  | .ringHlen .right => .wrRoRingHlen1 d
  | .ringPop .right => .wrRoRingPop1 d
  | .ringWin .left i => .wrRoRingWin0 i d
  | .ringWin .right i => .wrRoRingWin1 i d

/-! ### HOSTBUS words (R121) -/

/-- W, bit 63: 1 for a write. -/
def hostW (w : BitVec 64) : BitVec 1 := w.extractLsb' 63 1

/-- The word address ADDR[15:2], bits 47:34; ADDR[1:0] is ignored (20_memory R85). -/
def hostWordAddr (w : BitVec 64) : BitVec 14 := w.extractLsb' 34 14

/-- The write data D, bits 31:0. -/
def hostData (w : BitVec 64) : Word := w.extractLsb' 0 32

/-- HOSTBUS decode (R124): every 64-bit word is exactly one operation (R125). -/
def decodeHost (w : BitVec 64) : Instr :=
  match hostRegAt (hostWordAddr w) with
  | some r => if hostW w = 1#1 then r.writeOp (hostData w) else r.readOp
  | none => if hostW w = 1#1 then .wrRsv (hostWordAddr w) (hostData w) else .rdRsv (hostWordAddr w)

/-! ### AUDIO words (R122) -/

/-- KIND, bits 71:68. -/
def audioKind (w : BitVec 72) : BitVec 4 := w.extractLsb' 68 4

/-- X0, bits 63:32. -/
def audioX0 (w : BitVec 72) : Word := w.extractLsb' 32 32

/-- X1, bits 31:0. -/
def audioX1 (w : BitVec 72) : Word := w.extractLsb' 0 32

/-- AUDIO decode by KIND (R126); PREPARE takes the mask X1[1:0] (R123). -/
def decodeAudio (w : BitVec 72) : Instr :=
  match (audioKind w).toNat with
  | 0x0 => .nop
  | 0x1 => .prepare (audioX0 w) ((audioX1 w).extractLsb' 0 2)
  | 0x2 => .blockStart (audioX0 w)
  | 0x3 => .frame (audioX0 w) (audioX1 w)
  | 0x4 => .rsvKind4
  | 0x5 => .rsvKind5
  | 0x6 => .rsvKind6
  | 0x7 => .rsvKind7
  | 0x8 => .rsvKind8
  | 0x9 => .rsvKind9
  | 0xA => .rsvKindA
  | 0xB => .rsvKindB
  | 0xC => .rsvKindC
  | 0xD => .rsvKindD
  | 0xE => .rsvKindE
  | _ => .rsvKindF

/-- The decoder: the port tells the format (R120). -/
def decode : PortWord → Instr
  | .host w => decodeHost w
  | .audio w => decodeAudio w

/-! ### Words given by a bit count -/

/-- Why bits are no word of either port. -/
inductive DecodeReject where
  /-- More than 72 bits: wider than the widest format (R120). -/
  | tooWide
deriving DecidableEq, Repr

/-- The port word whose low `nbits` bits are those of `w`, the rest 0: at most 64 bits are a HOSTBUS word, 65 to 72 an
AUDIO word (log entry 14). -/
def portWordOfBits (nbits w : Nat) : Except DecodeReject PortWord :=
  if nbits ≤ 64 then .ok (.host (BitVec.ofNat 64 (w % 2 ^ nbits)))
  else if nbits ≤ 72 then .ok (.audio (BitVec.ofNat 72 (w % 2 ^ nbits)))
  else .error .tooWide

/-- The instruction read from a row's bits, numbered as spec/opcode_table.json numbers them. -/
def decodeTableWord (nbits w : Nat) : Option Instr :=
  match portWordOfBits nbits w with
  | .ok p => some (decode p)
  | .error _ => none

/-- Which interface an instruction arrives on: `true` for HOSTBUS, `false` for AUDIO (R120). -/
def Instr.isHost : Instr → Bool
  | .rdId | .rdCaps | .rdStatus | .wrPkFreq _ | .rdPkFreq | .wrPkGain _ | .rdPkGain | .wrPkQ _ | .rdPkQ
  | .wrLcFreq _ | .rdLcFreq | .wrHcFreq _ | .rdHcFreq | .wrSlope _ | .rdSlope | .wrBypass _ | .rdBypass
  | .rdChgPeek | .rdChgTac | .rdRingStat0 | .rdRingHlen0 | .rdRingPop0 | .rdRingStat1 | .rdRingHlen1 | .rdRingPop1
  | .rdRingWin0 _ | .rdRingWin1 _ | .wrRoId _ | .wrRoCaps _ | .wrRoStatus _ | .wrRoChgPeek _ | .wrRoChgTac _
  | .wrRoRingStat0 _ | .wrRoRingHlen0 _ | .wrRoRingPop0 _ | .wrRoRingStat1 _ | .wrRoRingHlen1 _ | .wrRoRingPop1 _
  | .wrRoRingWin0 _ _ | .wrRoRingWin1 _ _ | .rdRsv _ | .wrRsv _ _ => true
  | .nop | .prepare _ _ | .blockStart _ | .frame _ _ | .rsvKind4 | .rsvKind5 | .rsvKind6 | .rsvKind7 | .rsvKind8
  | .rsvKind9 | .rsvKindA | .rsvKindB | .rsvKindC | .rsvKindD | .rsvKindE | .rsvKindF => false

/-! ### The encoder -/

/-- A HOSTBUS word from its fields (R121), reserved bits 0. -/
def hostWord (wr : BitVec 1) (addr : BitVec 16) (d : Word) : PortWord :=
  .host (((wr ++ 0#15) ++ addr) ++ d)

/-- An AUDIO word from its fields (R122), reserved bits 0. -/
def audioWord (kind : BitVec 4) (x0 x1 : Word) : PortWord :=
  .audio (((kind ++ 0#4) ++ x0) ++ x1)

/-- The word of a read of register `r`. -/
def readWord (r : HostReg) : PortWord := hostWord 0#1 r.addr 0#32

/-- The word of a write of `d` to register `r`. -/
def writeWord (r : HostReg) (d : Word) : PortWord := hostWord 1#1 r.addr d

/-- The word of an instruction (R121 to R124, R126); ignored bits are 0. -/
def encode : Instr → PortWord
  | .rdId => readWord .id
  | .rdCaps => readWord .caps
  | .rdStatus => readWord .status
  | .wrPkFreq d => writeWord .pkFreq d
  | .rdPkFreq => readWord .pkFreq
  | .wrPkGain d => writeWord .pkGain d
  | .rdPkGain => readWord .pkGain
  | .wrPkQ d => writeWord .pkQ d
  | .rdPkQ => readWord .pkQ
  | .wrLcFreq d => writeWord .lcFreq d
  | .rdLcFreq => readWord .lcFreq
  | .wrHcFreq d => writeWord .hcFreq d
  | .rdHcFreq => readWord .hcFreq
  | .wrSlope d => writeWord .slope d
  | .rdSlope => readWord .slope
  | .wrBypass d => writeWord .bypass d
  | .rdBypass => readWord .bypass
  | .rdChgPeek => readWord .chgPeek
  | .rdChgTac => readWord .chgTac
  | .rdRingStat0 => readWord (.ringStat .left)
  | .rdRingHlen0 => readWord (.ringHlen .left)
  | .rdRingPop0 => readWord (.ringPop .left)
  | .rdRingStat1 => readWord (.ringStat .right)
  | .rdRingHlen1 => readWord (.ringHlen .right)
  | .rdRingPop1 => readWord (.ringPop .right)
  | .rdRingWin0 i => readWord (.ringWin .left i)
  | .rdRingWin1 i => readWord (.ringWin .right i)
  | .wrRoId d => writeWord .id d
  | .wrRoCaps d => writeWord .caps d
  | .wrRoStatus d => writeWord .status d
  | .wrRoChgPeek d => writeWord .chgPeek d
  | .wrRoChgTac d => writeWord .chgTac d
  | .wrRoRingStat0 d => writeWord (.ringStat .left) d
  | .wrRoRingHlen0 d => writeWord (.ringHlen .left) d
  | .wrRoRingPop0 d => writeWord (.ringPop .left) d
  | .wrRoRingStat1 d => writeWord (.ringStat .right) d
  | .wrRoRingHlen1 d => writeWord (.ringHlen .right) d
  | .wrRoRingPop1 d => writeWord (.ringPop .right) d
  | .wrRoRingWin0 i d => writeWord (.ringWin .left i) d
  | .wrRoRingWin1 i d => writeWord (.ringWin .right i) d
  | .rdRsv a => hostWord 0#1 (a ++ 0#2) 0#32
  | .wrRsv a d => hostWord 1#1 (a ++ 0#2) d
  | .nop => audioWord 0x0 0 0
  | .prepare n m => audioWord 0x1 n (m.zeroExtend 32)
  | .blockStart fs => audioWord 0x2 fs 0
  | .frame x0 x1 => audioWord 0x3 x0 x1
  | .rsvKind4 => audioWord 0x4 0 0
  | .rsvKind5 => audioWord 0x5 0 0
  | .rsvKind6 => audioWord 0x6 0 0
  | .rsvKind7 => audioWord 0x7 0 0
  | .rsvKind8 => audioWord 0x8 0 0
  | .rsvKind9 => audioWord 0x9 0 0
  | .rsvKindA => audioWord 0xA 0 0
  | .rsvKindB => audioWord 0xB 0 0
  | .rsvKindC => audioWord 0xC 0 0
  | .rsvKindD => audioWord 0xD 0 0
  | .rsvKindE => audioWord 0xE 0 0
  | .rsvKindF => audioWord 0xF 0 0

end Sys2Proof
end

