-- ==== Sys2Proof/Machine/Float.lean ====
section
/-! DEFINITION. Binary32 arithmetic (41_audio_engine R200, 20_memory R84): IEEE 754 add, subtract and multiply, each
exact and then rounded once to nearest, ties to even; subnormals kept; every NaN result is 0x7FC00000; no flags. A
finite binary32 is a whole multiple of 2^-149, so every exact sum is an integer of that unit and every exact product an
integer of its square. -/

namespace Sys2Proof.Machine

open Sys2Proof

/-- Bit 31: set for a negative sign. -/
def fNeg (x : F32) : Bool := x.getLsbD 31

/-- Bits 30:23, the biased exponent. -/
def fExp (x : F32) : Nat := (x.extractLsb' 23 8).toNat

/-- Bits 22:0, the fraction. -/
def fFrac (x : F32) : Nat := (x.extractLsb' 0 23).toNat

/-- x is a NaN. -/
def fIsNaN (x : F32) : Bool := decide (fExp x = 255) && decide (fFrac x ≠ 0)

/-- x is an infinity. -/
def fIsInf (x : F32) : Bool := decide (fExp x = 255) && decide (fFrac x = 0)

/-- x is neither a NaN nor an infinity (R220 `finite`). -/
def fFinite (x : F32) : Bool := decide (fExp x ≠ 255)

/-- The canonical quiet NaN (R200). -/
def canonicalNaN : F32 := 0x7FC00000#32

/-- The bit pattern with the given sign and the given bits 30:0. -/
def fWithSign (neg : Bool) (mag : Nat) : F32 := BitVec.ofNat 32 ((if neg then 0x80000000 else 0) + mag)

/-- The infinity of the given sign. -/
def fInf (neg : Bool) : F32 := fWithSign neg 0x7F800000

/-- The zero of the given sign. -/
def fZero (neg : Bool) : F32 := fWithSign neg 0

/-- The magnitude of a finite x in units of 2^-149. -/
def fMag (x : F32) : Nat := if fExp x = 0 then fFrac x else (2 ^ 23 + fFrac x) * 2 ^ (fExp x - 1)

/-- The value of a finite x in units of 2^-149. -/
def fUnits (x : F32) : Int := if fNeg x then -(fMag x : Int) else (fMag x : Int)

/-- x with its sign bit inverted. -/
def fNegate (x : F32) : F32 := x ^^^ 0x80000000#32

/-- n / 2^d rounded to the nearest integer, ties to the even one. -/
def roundShift (n d : Nat) : Nat :=
  let t := n / 2 ^ d
  let r := n % 2 ^ d
  if 2 ^ d < 2 * r ∨ (2 ^ d = 2 * r ∧ t % 2 = 1) then t + 1 else t

/-- Bits 30:0 of the binary32 nearest to n * 2^-(149 + q), before the overflow test. The bits below the 24-bit
significand, or below 2^-149 for a subnormal, are rounded away; a carry out of the significand moves into the exponent
field by itself. -/
def roundMag (q n : Nat) : Nat :=
  let drop := max q (Nat.log2 n - 23)
  (drop - q) * 2 ^ 23 + roundShift n drop

/-- The binary32 nearest to ± n * 2^-(149 + q): overflow gives the infinity of the sign (R200). -/
def fRound (neg : Bool) (q n : Nat) : F32 :=
  if n = 0 then fZero neg
  else if 0x7F800000 ≤ roundMag q n then fInf neg
  else fWithSign neg (roundMag q n)

/-- The sum of two finite operands: an exact zero sum is +0 unless both operands are negative zeros (R200). -/
def fAddFinite (a b : F32) : F32 :=
  let s := fUnits a + fUnits b
  if s = 0 then fZero (fNeg a && fNeg b) else fRound (decide (s < 0)) 0 s.natAbs

/-- `fadd` (R200). -/
def fadd (a b : F32) : F32 :=
  if fIsNaN a || fIsNaN b then canonicalNaN
  else if fIsInf a then (if fIsInf b && (fNeg a != fNeg b) then canonicalNaN else a)
  else if fIsInf b then b
  else fAddFinite a b

/-- `fsub` (R200): IEEE 754 subtraction is the addition of the negated operand. -/
def fsub (a b : F32) : F32 := fadd a (fNegate b)

/-- `fmul` (R200). -/
def fmul (a b : F32) : F32 :=
  let neg := fNeg a != fNeg b
  if fIsNaN a || fIsNaN b then canonicalNaN
  else if fIsInf a || fIsInf b then
    (if (fFinite a && decide (fMag a = 0)) || (fFinite b && decide (fMag b = 0)) then canonicalNaN else fInf neg)
  else fRound neg 149 (fMag a * fMag b)

/-- a < b as real numbers, for finite operands (R220). -/
def fLt (a b : F32) : Bool := decide (fUnits a < fUnits b)

/-- a <= b as real numbers, for finite operands (R220). -/
def fLe (a b : F32) : Bool := decide (fUnits a ≤ fUnits b)

end Sys2Proof.Machine
end

