-- ==== Sys2Proof/Config.lean ====
section
/-! DEFINITION. What an implementation fixes and what the spec leaves open: the OPEN parameters of 00_scope R7, the
coefficient factory of 41_audio_engine R214, the contents of memories before they are written, and what the
environment does when nothing is presented. An `opaque` constant has no body, so no proof can see its value. -/

namespace Sys2Proof.Config

/-- Which samples the accumulators receive (00_scope R7 `ACC_TAP`, 41_audio_engine R211). -/
inductive Tap where
  | post
  | pre
deriving DecidableEq, Repr, Inhabited

/-- The OPEN parameters of 00_scope R7 that some rule reads. They are an argument of the whole model, fixed for a run
(93_implementation_defined U5, U6, U7); State carries them and no step writes them (log entry 4). -/
structure Params where
  nSync : Nat
  blkMax : Nat
  accTap : Tap
deriving DecidableEq, Repr

/-- The reference values of 00_scope R7. -/
def Params.reference : Params := { nSync := 2, blkMax := 1024, accTap := .post }

/-- The ranges 00_scope R7 gives: N_SYNC >= 2 and 1 <= BLK_MAX <= 4096. -/
def Params.wf (p : Params) : Bool :=
  decide (2 ≤ p.nSync) && decide (1 ≤ p.blkMax) && decide (p.blkMax ≤ 4096)

/-- `NSTG`: biquad stages per cut bank (00_scope R7). -/
def nStg : Nat := 4

/-- `C`: ring capacity in blocks (00_scope R7). -/
def capacity : Nat := 30

/-- The peak stage's design (41_audio_engine R214), a function of exactly what R216 lets it depend on:
fs, pk_freq, pk_q, pk_gain. Free value (U2, U3; log entry 5). -/
opaque peakDesign (fs pkFreq pkQ pkGain : F32) : Coef

/-- Section `k` of the low-cut design (41_audio_engine R214, R216): a function of fs, lc_freq, lc_slope and k. Free
value (U2, U3; log entry 5). -/
opaque lowCutDesign (fs lcFreq : F32) (lcSlope : BitVec 2) (k : Fin 4) : Coef

/-- Section `k` of the high-cut design (41_audio_engine R214, R216): a function of fs, hc_freq, hc_slope and k. Free
value (U2, U3; log entry 5). -/
opaque highCutDesign (fs hcFreq : F32) (hcSlope : BitVec 2) (k : Fin 4) : Coef

/-- `TOL_ID` (00_scope R7, 41_audio_engine R217, U4): whether an output is within the unstated tolerance of an input. -/
opaque withinTolId (output input : F32) : Bool

/-- Whether a peak stage's power response is as near the standard design's as R217 asks: the spec states no tolerance
(41_audio_engine R217, D13; log entry 16). -/
opaque withinTolPeak (response reference : ℝ) : Prop

/-- Whether a denominator coefficient is as near that of the exact Butterworth poles as binary32 lets R218's "exact pole
placement" be: the spec states no tolerance (41_audio_engine R218; log entry 16). -/
opaque withinTolPole (coefficient reference : ℝ) : Prop

/-- `TEST_FREQS` (00_scope R7, 41_audio_engine R218, U4): the unstated set of test frequencies in Hz, for sample rate `fs`.
R7 puts it inside (0, fs/2); here it is any set, and R218 is asked only of its members inside that range (log entry 16). -/
opaque testFreqs (fs : F32) : Set ℝ

/-- What entry `i` of channel `ch`'s accumulator buffer holds before it is written (10_state R48, U14; log entry 6). -/
opaque powerOnSample (ch i : Nat) : F32

/-- What the length tag of slot number `slot` holds before it is written (10_state R51, U15; log entry 6). -/
opaque powerOnTag (slot : Nat) : BitVec 13

/-- What word `i` of slot number `slot` holds before it is written (10_state R51, U15; log entry 6). -/
opaque powerOnWord (slot i : Nat) : F32

/-- The metastability choices of one edge (43_clock_steps R311 `choose`, U9): for each sampled source, `true` when the
first flip-flop resolves to the old value. An H edge uses wgray, aTog, cfgErr, accErr; an A edge uses rgray, mbTog. -/
structure Capture where
  wgray : PerCh Bool
  rgray : PerCh Bool
  mbTog : Bool
  aTog : Bool
  cfgErr : Bool
  accErr : Bool
deriving DecidableEq, Repr, Inhabited

/-- Every capture resolves to the new value. -/
def Capture.new : Capture := ⟨⟨false, false⟩, ⟨false, false⟩, false, false, false, false⟩

/-- Which domain's clock ticks at the `n`-th step when the environment has presented nothing: `true` for H
(43_clock_steps R310, U16; log entry 2). -/
opaque idleEdgeIsHost (n : Nat) : Bool

/-- The metastability choices of such an idle edge (R311, U9; log entry 2). -/
opaque idleCapture (n : Nat) : Capture

end Sys2Proof.Config
end

