-- ==== Sys2Proof/Machine/State.lean ====
section
/-! DEFINITION. The state of YBQ: the tuple (H, A, M, K) of 10_state R30 as plain data, the fields that hold what the
environment presents and what the ports deliver, the fault and refusal kinds, and the state after reset (R56). -/

namespace Sys2Proof.Machine

open Sys2Proof

/-- The seven host-written parameters (10_state R33). -/
structure ParamSet where
  pkFreq : F32
  pkGain : F32
  pkQ : F32
  lcFreq : F32
  hcFreq : F32
  lcSlope : BitVec 2
  hcSlope : BitVec 2
  lcByp : Bool
  pkByp : Bool
  hcByp : Bool
deriving DecidableEq, Repr

/-- The read side of one ring (10_state R40). -/
structure ReadSide where
  /-- Read pointer, binary, 0..59. -/
  rbin : Fin 60
  /-- Its gray code, the copy the A domain samples. -/
  rgray : BitVec 6
  /-- Synchroniser of the channel's write-pointer code, first flip-flop first. -/
  ws : List (BitVec 6)
deriving DecidableEq, Repr

/-- The H-domain registers (10_state R35 to R41). -/
structure HDomain where
  shadow : ParamSet
  dirty : Bool
  mb : ParamSet
  mbTog : Bool
  ackS : List Bool
  changed : Bool
  ring : PerCh ReadSide
  cfgerrS : List Bool
  accerrS : List Bool
deriving DecidableEq, Repr

/-- The A-domain registers one channel owns: stage states (10_state R47), accumulator (R48), write side of the ring
(R49). -/
structure Lane where
  st : Stages StageState
  prep : Bool
  bsz : BitVec 13
  cur : BitVec 13
  /-- The entries of the accumulator buffer written so far: entries 0..length-1 of `A.abuf[ch]`; the others hold
  `Config.powerOnSample` (log entries 6 and 7). -/
  abuf : List F32
  wbin : Fin 60
  wgray : BitVec 6
  /-- Synchroniser of the channel's read-pointer code, first flip-flop first. -/
  rs : List (BitVec 6)
deriving DecidableEq, Repr

/-- The A-domain registers (10_state R42 to R50). -/
structure ADomain where
  togS : List Bool
  aTog : Bool
  live : ParamSet
  snap : ParamSet
  fs : F32
  coef : Stages Coef
  enLc : Bank Bool
  enHc : Bank Bool
  bypLc : Bool
  bypPk : Bool
  bypHc : Bool
  lane : PerCh Lane
  cfgErr : Bool
  accErr : Bool
deriving DecidableEq, Repr

/-- A written ring element (10_state R51). `data` is the entries written so far, 0..length-1; a push always writes a
prefix, so this is exact (log entry 7). -/
structure Slot where
  len : BitVec 13
  data : List F32
deriving DecidableEq, Repr

/-- The slot memory `M` (10_state R51, 20_memory R80): the written slots by number `30 * ch + k`, numbers strictly
rising. A slot not listed has not been written. -/
abbrev Memory := List (Nat × Slot)

/-- The bookkeeping of one sampled source (10_state R52). -/
structure Crossing (α : Type) where
  prev : α
  fresh : Bool
deriving DecidableEq, Repr

/-- `K`: the bookkeeping of the six kinds of sampled register (10_state R52). -/
structure Bookkeeping where
  wgray : PerCh (Crossing (BitVec 6))
  rgray : PerCh (Crossing (BitVec 6))
  mbTog : Crossing Bool
  aTog : Crossing Bool
  cfgErr : Crossing Bool
  accErr : Crossing Bool
deriving DecidableEq, Repr

/-- One event the environment presents (43_clock_steps R310): an edge of the H clock with a HOSTBUS word or nothing, an
edge of the A clock with its AUDIO word (30_encoding R120), each with the metastability choices of that edge (R311), or
an assertion and release of the reset input (70_reset_and_hazards R370). -/
inductive Edge where
  | host (word : Option (BitVec 64)) (capture : Config.Capture)
  | audio (word : BitVec 72) (capture : Config.Capture)
  | reset
deriving DecidableEq, Repr

/-- The whole state. -/
structure State where
  /-- The OPEN parameters (00_scope R7); no step writes them. -/
  cfg : Config.Params
  /-- H domain (10_state R30). -/
  h : HDomain
  /-- A domain (10_state R30). -/
  a : ADomain
  /-- Slot memory (10_state R51). -/
  mem : Memory
  /-- Synchroniser bookkeeping (10_state R52). -/
  k : Bookkeeping
  /-- The events the environment has presented and no step has taken, next first (log entry 1). -/
  pending : List Edge
  /-- The metastability choices of the edge being run (log entry 3). -/
  capture : Config.Capture
  /-- Counts steps; free values of idle edges are applied to it (log entry 2). -/
  tick : Nat
  /-- What the latest H step returned on the host bus: the word of a read, none for a write or an idle step
  (30_encoding R121; log entry 9). -/
  hostOut : Option Word
  /-- What the latest A step returned on the audio port: (Y0, Y1) of a FRAME, none otherwise (30_encoding R122; log
  entry 9). -/
  audioOut : Option (F32 × F32)
deriving DecidableEq, Repr

/-- Why the machine stops. YBQ itself raises nothing (60_exceptions R340); these are the faults of the model that
93_implementation_defined U10 names, in states no run from reset reaches. -/
inductive Fault where
  /-- Raised by RD.RING_STAT, RD.RING_HLEN, RD.RING_WIN and RD.RING_POP of channel `ch` when the last flip-flop of
  `H.ws[ch]` holds no pointer code. Safe: the model stops where U10 says it may. -/
  | writePointerNotCode (ch : Chan)
  /-- Raised by FRAME when channel `ch` completes a block and the last flip-flop of `A.rs[ch]` holds no pointer code.
  Safe: the model stops where U10 says it may. -/
  | readPointerNotCode (ch : Chan)
deriving DecidableEq, Repr

/-- Why an instruction has no meaning here. -/
inductive Refusal where
  /-- Raised by `exec` for an instruction that has no meaning yet; no arm answers so at present. Safe. -/
  | notModelled (mnemonic : String)
deriving DecidableEq, Repr

/-- `ParamDefault` (10_state R34). -/
def paramDefault : ParamSet where
  pkFreq := 0x443B8000#32
  pkGain := 0x00000000#32
  pkQ := 0x3F800000#32
  lcFreq := 0x41A00000#32
  hcFreq := 0x469C4000#32
  lcSlope := 0#2
  hcSlope := 0#2
  lcByp := false
  pkByp := false
  hcByp := false

/-- The identity coefficient set (1, 0, 0, 0, 0) (10_state R45). -/
def identityCoef : Coef := ⟨0x3F800000#32, 0#32, 0#32, 0#32, 0#32⟩

/-- The code of pointer 0, 0x03 (10_state R40, R49, R56). -/
def codeZero : BitVec 6 := 0x03#6

/-- The read side of a ring after reset (10_state R40, R56). -/
def ReadSide.reset (p : Config.Params) : ReadSide := ⟨0, codeZero, List.replicate p.nSync codeZero⟩

/-- The H domain after reset (10_state R56). -/
def HDomain.reset (p : Config.Params) : HDomain where
  shadow := paramDefault
  dirty := false
  mb := paramDefault
  mbTog := false
  ackS := List.replicate p.nSync false
  changed := true
  ring := ⟨ReadSide.reset p, ReadSide.reset p⟩
  cfgerrS := List.replicate p.nSync false
  accerrS := List.replicate p.nSync false

/-- One channel's A-domain registers after reset (10_state R56). -/
def Lane.reset (p : Config.Params) : Lane where
  st := Stages.all ⟨0#32, 0#32⟩
  prep := false
  bsz := 0#13
  cur := 0#13
  abuf := []
  wbin := 0
  wgray := codeZero
  rs := List.replicate p.nSync codeZero

/-- The A domain after reset (10_state R56). -/
def ADomain.reset (p : Config.Params) : ADomain where
  togS := List.replicate p.nSync false
  aTog := false
  live := paramDefault
  snap := paramDefault
  fs := 0#32
  coef := Stages.all identityCoef
  enLc := ⟨false, false, false, false⟩
  enHc := ⟨false, false, false, false⟩
  bypLc := false
  bypPk := true
  bypHc := false
  lane := ⟨Lane.reset p, Lane.reset p⟩
  cfgErr := false
  accErr := false

/-- The bookkeeping after reset (10_state R52, R56): the reset value of each source, not fresh. -/
def Bookkeeping.reset : Bookkeeping where
  wgray := ⟨⟨codeZero, false⟩, ⟨codeZero, false⟩⟩
  rgray := ⟨⟨codeZero, false⟩, ⟨codeZero, false⟩⟩
  mbTog := ⟨false, false⟩
  aTog := ⟨false, false⟩
  cfgErr := ⟨false, false⟩
  accErr := ⟨false, false⟩

/-- The machine with parameters `p` right after reset (10_state R56, 70_reset_and_hazards R370). -/
def State.resetWith (p : Config.Params) : State where
  cfg := p
  h := HDomain.reset p
  a := ADomain.reset p
  mem := []
  k := Bookkeeping.reset
  pending := []
  capture := Config.Capture.new
  tick := 0
  hostOut := none
  audioOut := none

/-- The machine right after reset, with the reference parameters of 00_scope R7 (log entry 4). -/
def State.reset : State := State.resetWith Config.Params.reference

end Sys2Proof.Machine
end

