-- ==== Sys2Proof/Machine/Operands.lean ====
section
/-! DEFINITION. Operand forms (30_encoding R123, 40_host_registers R176 to R179): the fields a write takes from D, the
words a read assembles, the PREPARE operands, the byte lanes of 20_memory R84. -/

namespace Sys2Proof.Machine

open Sys2Proof

/-- A one-bit flag as a 32-bit word (R180 `zext_32`). -/
def flagWord (b : Bool) : Word := if b then 1#32 else 0#32

/-- SLOPE: lc_slope = D[1:0]. -/
def slopeLc (d : Word) : BitVec 2 := d.extractLsb' 0 2

/-- SLOPE: hc_slope = D[9:8]. -/
def slopeHc (d : Word) : BitVec 2 := d.extractLsb' 8 2

/-- SLOPE as read back: hc_slope at 9:8, lc_slope at 1:0, other bits 0 (R177). -/
def slopeWord (p : ParamSet) : Word := BitVec.ofNat 32 (p.hcSlope.toNat * 2 ^ 8 + p.lcSlope.toNat)

/-- BYPASS as read back: hc_byp, pk_byp, lc_byp at bits 2, 1, 0 (R179). -/
def bypassWord (p : ParamSet) : Word :=
  BitVec.ofNat 32 ((if p.hcByp then 4 else 0) + (if p.pkByp then 2 else 0) + (if p.lcByp then 1 else 0))

/-- The parameter set after a write of SLOPE (R176). -/
def ParamSet.withSlope (p : ParamSet) (d : Word) : ParamSet := { p with lcSlope := slopeLc d, hcSlope := slopeHc d }

/-- The parameter set after a write of BYPASS (R178): D[0], D[1], D[2]. -/
def ParamSet.withBypass (p : ParamSet) (d : Word) : ParamSet :=
  { p with lcByp := d.getLsbD 0, pkByp := d.getLsbD 1, hcByp := d.getLsbD 2 }

/-- Bit `ch` of a PREPARE mask: bit 0 is channel 0, bit 1 channel 1 (R123). -/
def maskBit (m : BitVec 2) (ch : Chan) : Bool := m.getLsbD ch.index

/-- PREPARE's valid lengths (41_audio_engine R208): 1 <= n <= BLK_MAX as unsigned numbers. -/
def validLength (p : Config.Params) (n : Word) : Bool := decide (1 ≤ n.toNat) && decide (n.toNat ≤ p.blkMax)

/-- The identification word "YTBQ" (40_host_registers R161). -/
def idWord : Word := 0x59544251#32

/-- The CAPS word (40_host_registers R162): min(N_SYNC, 15) at 31:28, NSTG at 27:24, C at 20:16, BLK_MAX at 12:0. -/
def capsWord (p : Config.Params) : Word :=
  BitVec.ofNat 32 (min p.nSync 15 * 2 ^ 28 + Config.nStg * 2 ^ 24 + Config.capacity * 2 ^ 16 + p.blkMax % 2 ^ 13)

/-- Byte lane `b` of a register word, bits 8b+7 : 8b, at byte address 4n + b for a host that maps the register space as
bytes (20_memory R84). No YBQ operation moves less than a word (R86), so no meaning uses it. -/
def hostByte (v : Word) (b : Fin 4) : BitVec 8 := v.extractLsb' (8 * b.val) 8

end Sys2Proof.Machine
end

