-- ==== Sys2Proof/Machine/Ops.lean ====
section
/-! DEFINITION. Named operations over registers and memory: pointers and their gray code (42_ring R260, R261), the slot
memory (20_memory R83), the accumulator buffer (10_state R48), synchroniser chains and sampling (43_clock_steps R311 to
R317, R321). YBQ takes no exception and returns from none (60_exceptions R340, R347), so there is no entry operation. -/

namespace Sys2Proof.Machine

open Sys2Proof

/-! ### Ring pointers -/

/-- `G60(p) = (p + 2) xor ((p + 2) >> 1)` (R260). -/
def g60 (p : Fin 60) : BitVec 6 :=
  let v := BitVec.ofNat 6 (p.val + 2)
  v ^^^ (v >>> 1)

/-- `G60inv` (R260) on the 60 codes; none on 0x00, 0x01, 0x20 and 0x21, which are codes of no pointer. -/
def g60inv (g : BitVec 6) : Option (Fin 60) :=
  let v := (g ^^^ (g >>> 1) ^^^ (g >>> 2) ^^^ (g >>> 3) ^^^ (g >>> 4) ^^^ (g >>> 5)).toNat
  if h : 2 ≤ v ∧ v < 62 then some ⟨v - 2, by omega⟩ else none

/-- `inc(p) = (p + 1) mod 60` (R261). -/
def inc (p : Fin 60) : Fin 60 := ⟨(p.val + 1) % 60, Nat.mod_lt _ (by decide)⟩

/-- The `dist(a, b) = (a - b) mod 60` of R261. -/
def ptrDist (a b : Fin 60) : Nat := (a.val + 60 - b.val) % 60

/-- `slot(p) = p mod 30` (R261). -/
def slotOf (p : Fin 60) : Nat := p.val % 30

/-- The number of slot `M[ch][slot(p)]` in `Memory`. -/
def slotKey (ch : Chan) (p : Fin 60) : Nat := 30 * ch.index + slotOf p

/-! ### Slot memory -/

/-- The written slot with number `key`, none if it has not been written. -/
def Memory.find (m : Memory) (key : Nat) : Option Slot := m.lookup key

/-- Replace slot `key`, keeping the numbers strictly rising. -/
def Memory.put (key : Nat) (v : Slot) : Memory → Memory
  | [] => [(key, v)]
  | (k, w) :: rest =>
    if key < k then (key, v) :: (k, w) :: rest
    else if key = k then (key, v) :: rest
    else (k, w) :: Memory.put key v rest

/-- The canonical form: slot numbers strictly rising and below 60. No entry can equal an unlisted one, which holds
nothing. -/
def Memory.wf (m : Memory) : Bool :=
  decide (List.Pairwise (· < ·) (m.map Prod.fst)) && m.all (fun e => decide (e.1 < 60))

/-- The length tag of slot `key` (R83): a free value while the slot has not been written. -/
def slotTag (m : Memory) (key : Nat) : BitVec 13 :=
  match m.find key with
  | some v => v.len
  | none => Config.powerOnTag key

/-- Word `i` of slot `key` (R83): a free value while that word has not been written. -/
def slotWord (m : Memory) (key i : Nat) : F32 :=
  match m.find key with
  | some v => (v.data[i]?).getD (Config.powerOnWord key i)
  | none => Config.powerOnWord key i

/-- The words of slot `key` written so far. -/
def slotData (m : Memory) (key : Nat) : List F32 :=
  match m.find key with
  | some v => v.data
  | none => []

/-- `SlotWrite` (R83): the tag and entries 0..length-1 are written, later entries keep what they held. -/
def slotWrite (m : Memory) (key : Nat) (len : BitVec 13) (d : List F32) : Memory :=
  m.put key { len := len, data := d ++ (slotData m key).drop d.length }

/-! ### Accumulator buffer -/

/-- Entry `i` of `A.abuf[ch]`: a free value while it has not been written (10_state R48). -/
def abufRead (ch : Chan) (buf : List F32) (i : Nat) : F32 := (buf[i]?).getD (Config.powerOnSample ch.index i)

/-- Write entry `i`; entries below it that have not been written become listed with what they held. -/
def abufWrite (ch : Chan) (buf : List F32) (i : Nat) (t : F32) : List F32 :=
  if i < buf.length then buf.set i t
  else buf ++ (List.range' buf.length (i - buf.length)).map (fun j => Config.powerOnSample ch.index j) ++ [t]

/-- Entries 0..n-1. -/
def abufBlock (ch : Chan) (buf : List F32) (n : Nat) : List F32 := (List.range n).map (abufRead ch buf)

/-! ### Synchronisers -/

/-- One shift of a synchroniser chain: the first flip-flop takes `v`, each later one its predecessor (R312 to R317). -/
def shiftIn {α : Type} (v : α) (c : List α) : List α := (v :: c).dropLast

/-- The last flip-flop of a one-bit chain. -/
def lastBit (c : List Bool) : Bool := c.getLastD false

/-- The pointer in the last flip-flop of a pointer chain, none if it is no code (R262, R264; U10). -/
def lastPointer (c : List (BitVec 6)) : Option (Fin 60) := c.getLast?.bind g60inv

/-- `Sample(src)` (R311): the current value, or the previous one where the source is fresh and the environment's choice
`old` says so. -/
def sample {α : Type} (x : Crossing α) (old : Bool) (src : α) : α := if x.fresh && old then x.prev else src

/-- R321 for a source of the stepping domain: a change records the pre-step value and makes the source fresh. -/
def Crossing.track {α : Type} [DecidableEq α] (x : Crossing α) (pre post : α) : Crossing α :=
  if pre = post then x else { prev := pre, fresh := true }

/-- R321 for a source of the other domain: the step has sampled it. -/
def Crossing.sampled {α : Type} (x : Crossing α) : Crossing α := { x with fresh := false }

end Sys2Proof.Machine
end

