-- ==== Sys2Proof/Machine/Flags.lean ====
section
/-! DEFINITION. Every derived status value of 10_state R53: LEVEL and EMPTY (42_ring R264), the producer's full test
(R262), PARAM_PENDING (43_clock_steps R319), STATUS (40_host_registers R163), the effective activity of a stage
(10_state R54), the slope policy (41_audio_engine R213) and the input contract (R220). All read the pre-step state. -/

namespace Sys2Proof.Machine

open Sys2Proof

/-! ### Ring views -/

/-- `wsync(ch)`: the write pointer as the H domain sees it (R264). -/
def wsync (s : State) (ch : Chan) : Option (Fin 60) := lastPointer (s.h.ring.get ch).ws

/-- `rsync(ch)`: the read pointer as the A domain sees it (R262). -/
def rsync (s : State) (ch : Chan) : Option (Fin 60) := lastPointer (s.a.lane.get ch).rs

/-- `LEVEL(ch)` for the synchronised write pointer `w` (R264). -/
def level (w r : Fin 60) : Nat := ptrDist w r

/-- `EMPTY(ch)` (R264). -/
def isEmpty (w r : Fin 60) : Bool := decide (level w r = 0)

/-- `full_p(ch)` for the write pointer `w` and the synchronised read pointer `r` (R262). -/
def isFull (w r : Fin 60) : Bool := decide (ptrDist w r = 30)

/-- The RING_STAT word (R265): EMPTY at bit 8, LEVEL at bits 5:0. -/
def ringStatWord (w r : Fin 60) : Word := BitVec.ofNat 32 ((if isEmpty w r then 2 ^ 8 else 0) + level w r)

/-! ### Status -/

/-- The acknowledged toggle `H.ack_s[N_SYNC]` (10_state R38). -/
def ackToggle (s : State) : Bool := lastBit s.h.ackS

/-- PARAM_PENDING (R319). -/
def paramPending (s : State) : Bool := s.h.dirty || (s.h.mbTog != ackToggle s)

/-- The STATUS word (R163): PARAM_PENDING at bit 8, ACC_ERR at bit 1, CFG_ERR at bit 0. -/
def statusWord (s : State) : Word :=
  BitVec.ofNat 32 ((if paramPending s then 2 ^ 8 else 0) + (if lastBit s.h.accerrS then 2 else 0)
    + (if lastBit s.h.cfgerrS then 1 else 0))

/-! ### Stage activity -/

/-- `act(j)` (10_state R54). -/
def act (a : ADomain) : Stage → Bool
  | .lc k => a.enLc.get k && !a.bypLc
  | .pk => !a.bypPk
  | .hc k => a.enHc.get k && !a.bypHc

/-- The slope policy (R213): enables of a cut bank for ordinal `n`, exactly the indices k <= n. -/
def slopeEnables (n : BitVec 2) : Bank Bool := Bank.ofFn (fun k => decide (k.val ≤ n.toNat))

/-! ### Input contract -/

/-- `inband(f)` for sample rate `fs` (R220): finite, 20.0 <= f <= 20000.0 and 2 * f < fs, on real values. -/
def inband (f fs : F32) : Bool :=
  fFinite f && fLe 0x41A00000#32 f && fLe f 0x469C4000#32 && decide (2 * fUnits f < fUnits fs)

/-- `Valid(P, fs)` (R220). -/
def validConfig (p : ParamSet) (fs : F32) : Bool :=
  fFinite fs && decide (0 < fUnits fs) && inband p.pkFreq fs && inband p.lcFreq fs && inband p.hcFreq fs
    && fFinite p.pkQ && decide (0 < fUnits p.pkQ) && fFinite p.pkGain

end Sys2Proof.Machine
end

