-- ==== Sys2Proof/Machine/ClockSteps.lean ====
section
/-! DEFINITION. The background logic of every H step and every A step (43_clock_steps R312 to R317, R321) and the
commitment of a step (R318, 40_host_registers R160, 41_audio_engine R206): an operation gives the new values of the
registers it writes, computed from the pre-step state, and the background gives the others, from the same state. -/

namespace Sys2Proof.Machine

open Sys2Proof

/-! ### H background -/

/-- `H.ws[ch]` after an H step (R312). -/
def wsNext (s : State) (ch : Chan) : List (BitVec 6) :=
  shiftIn (sample (s.k.wgray.get ch) (s.capture.wgray.get ch) (s.a.lane.get ch).wgray) (s.h.ring.get ch).ws

/-- `H.ack_s` after an H step (R313). -/
def ackNext (s : State) : List Bool := shiftIn (sample s.k.aTog s.capture.aTog s.a.aTog) s.h.ackS

/-- `H.cfgerr_s` after an H step (R314). -/
def cfgerrNext (s : State) : List Bool := shiftIn (sample s.k.cfgErr s.capture.cfgErr s.a.cfgErr) s.h.cfgerrS

/-- `H.accerr_s` after an H step (R314). -/
def accerrNext (s : State) : List Bool := shiftIn (sample s.k.accErr s.capture.accErr s.a.accErr) s.h.accerrS

/-- `transfer` (R315). -/
def transfers (s : State) : Bool := s.h.dirty && (s.h.mbTog == ackToggle s)

/-- The H registers after an H step of an operation that leaves `h'` in the registers an operation may write (shadow,
changed, rbin, rgray); `pw` says the operation is a parameter write (R312 to R315). -/
def hBackground (s : State) (h' : HDomain) (pw : Bool) : HDomain :=
  { h' with
    mb := if transfers s then s.h.shadow else s.h.mb
    mbTog := if transfers s then !s.h.mbTog else s.h.mbTog
    dirty := (s.h.dirty && !transfers s) || pw
    ackS := ackNext s
    cfgerrS := cfgerrNext s
    accerrS := accerrNext s
    ring := ⟨{ h'.ring.left with ws := wsNext s .left }, { h'.ring.right with ws := wsNext s .right }⟩ }

/-- `K` after an H step from `pre` to `post` (R321). -/
def kAfterH (k : Bookkeeping) (pre post : HDomain) : Bookkeeping where
  wgray := ⟨k.wgray.left.sampled, k.wgray.right.sampled⟩
  rgray := ⟨k.rgray.left.track pre.ring.left.rgray post.ring.left.rgray,
            k.rgray.right.track pre.ring.right.rgray post.ring.right.rgray⟩
  mbTog := k.mbTog.track pre.mbTog post.mbTog
  aTog := k.aTog.sampled
  cfgErr := k.cfgErr.sampled
  accErr := k.accErr.sampled

/-- Commit an H step: the operation's registers `h'`, its parameter-write bit `pw` and its read data `out`. -/
def hCommit (s : State) (h' : HDomain) (pw : Bool) (out : Option Word) : State :=
  { s with
    h := hBackground s h' pw
    k := kAfterH s.k s.h (hBackground s h' pw)
    hostOut := out }

/-- An H step that carries no word (30_encoding R120, 40_host_registers R160). -/
def hIdle (s : State) : State := hCommit s s.h false none

/-! ### A background -/

/-- `A.rs[ch]` after an A step (R316). -/
def rsNext (s : State) (ch : Chan) : List (BitVec 6) :=
  shiftIn (sample (s.k.rgray.get ch) (s.capture.rgray.get ch) (s.h.ring.get ch).rgray) (s.a.lane.get ch).rs

/-- `A.tog_s` after an A step (R317). -/
def togNext (s : State) : List Bool := shiftIn (sample s.k.mbTog s.capture.mbTog s.h.mbTog) s.a.togS

/-- The A domain accepts the mailbox at this step (R317). -/
def accepts (s : State) : Bool := lastBit s.a.togS != s.a.aTog

/-- The A registers after an A step of an operation that leaves `a'` in the registers an operation may write. -/
def aBackground (s : State) (a' : ADomain) : ADomain :=
  { a' with
    togS := togNext s
    aTog := if accepts s then lastBit s.a.togS else s.a.aTog
    live := if accepts s then s.h.mb else s.a.live
    lane := ⟨{ a'.lane.left with rs := rsNext s .left }, { a'.lane.right with rs := rsNext s .right }⟩ }

/-- `K` after an A step from `pre` to `post` (R321). -/
def kAfterA (k : Bookkeeping) (pre post : ADomain) : Bookkeeping where
  wgray := ⟨k.wgray.left.track pre.lane.left.wgray post.lane.left.wgray,
            k.wgray.right.track pre.lane.right.wgray post.lane.right.wgray⟩
  rgray := ⟨k.rgray.left.sampled, k.rgray.right.sampled⟩
  mbTog := k.mbTog.sampled
  aTog := k.aTog.track pre.aTog post.aTog
  cfgErr := k.cfgErr.track pre.cfgErr post.cfgErr
  accErr := k.accErr.track pre.accErr post.accErr

/-- Commit an A step: the operation's registers `a'`, the slot memory `mem'` and the FRAME result `out`. -/
def aCommit (s : State) (a' : ADomain) (mem' : Memory) (out : Option (F32 × F32)) : State :=
  { s with
    a := aBackground s a'
    mem := mem'
    k := kAfterA s.k s.a (aBackground s a')
    audioOut := out }

/-- An A step whose operation writes nothing (41_audio_engine R207). -/
def aIdle (s : State) : State := aCommit s s.a s.mem none

end Sys2Proof.Machine
end

