-- ==== Sys2Proof/Machine/Engine.lean ====
section
/-! DEFINITION. The audio engine's functions (41_audio_engine R201 to R211, 42_ring R262, R263): the biquad step, the
chain, the push and the accumulator append. All work on one channel's registers (`Lane`). -/

namespace Sys2Proof.Machine

open Sys2Proof

/-- `BQ(c, s, x)`, the transposed direct form II in the order of R201. -/
def biquad (c : Coef) (s : StageState) (x : F32) : F32 × StageState :=
  let y := fadd (fmul c.b0 x) s.s1
  (y, { s1 := fadd (fsub (fmul c.b1 x) (fmul c.a1 y)) s.s2
        s2 := fsub (fmul c.b2 x) (fmul c.a2 y) })

/-- The stages of a list applied in order (R203): an active stage filters and updates its state, a bypassed one passes
its input and keeps its state (R202). -/
def chainRun (active : Stage → Bool) (coef : Stages Coef) :
    List Stage → Stages StageState → F32 → F32 × Stages StageState
  | [], st, v => (v, st)
  | j :: js, st, v =>
    if active j then
      chainRun active coef js (st.set j (biquad (coef.get j) (st.get j) v).2) (biquad (coef.get j) (st.get j) v).1
    else chainRun active coef js st v

/-- `Chain(ch, x)` (R203): the output and the channel's stage states after it. -/
def chain (a : ADomain) (ch : Chan) (x : F32) : F32 × Stages StageState :=
  chainRun (act a) a.coef stageOrder (a.lane.get ch).st x

/-- The accumulator tap (R211) for input `x` and output `y`. -/
def tapOf (t : Config.Tap) (x y : F32) : F32 :=
  match t with
  | .post => y
  | .pre => x

/-- `Push(ch, n, blk)` (42_ring R263): dropped without a change if the ring is full (R272), else the slot and both
pointer copies are written. -/
def push (ch : Chan) (l : Lane) (m : Memory) (n : BitVec 13) (blk : List F32) : Except Fault (Lane × Memory) :=
  match lastPointer l.rs with
  | none => .error (.readPointerNotCode ch)
  | some r =>
    if isFull l.wbin r then .ok (l, m)
    else .ok ({ l with wbin := inc l.wbin, wgray := g60 (inc l.wbin) }, slotWrite m (slotKey ch l.wbin) n blk)

/-- `Accumulate(ch, t)` (R210). An unprepared channel collects nothing; the caller sets `A.acc_err`. -/
def accumulate (ch : Chan) (l : Lane) (m : Memory) (t : F32) : Except Fault (Lane × Memory) :=
  let buf := abufWrite ch l.abuf l.cur.toNat t
  if !l.prep then .ok (l, m)
  else if l.cur.toNat + 1 = l.bsz.toNat then
    push ch { l with abuf := buf, cur := 0#13 } m l.bsz (abufBlock ch buf l.bsz.toNat)
  else .ok ({ l with abuf := buf, cur := l.cur + 1#13 }, m)

/-- One channel's part of a FRAME (R209): its output, its registers and the slot memory. -/
def laneFrame (s : State) (ch : Chan) (x : F32) (m : Memory) : Except Fault (F32 × Lane × Memory) :=
  let r := chain s.a ch x
  match accumulate ch { s.a.lane.get ch with st := r.2 } m (tapOf s.cfg.accTap x r.1) with
  | .ok lm => .ok (r.1, lm)
  | .error f => .error f

/-- `Factory(P, fs).lc[k]` (R214, R216). -/
def factoryLc (p : ParamSet) (fs : F32) (k : Fin 4) : Coef := Config.lowCutDesign fs p.lcFreq p.lcSlope k

/-- `Factory(P, fs).pk` (R214, R216). -/
def factoryPk (p : ParamSet) (fs : F32) : Coef := Config.peakDesign fs p.pkFreq p.pkQ p.pkGain

/-- `Factory(P, fs).hc[k]` (R214, R216). -/
def factoryHc (p : ParamSet) (fs : F32) (k : Fin 4) : Coef := Config.highCutDesign fs p.hcFreq p.hcSlope k

/-- A cut bank's coefficients after BLOCK_START (R212 step 2): indices 0..n take the new ones, the others keep the old. -/
def reloadBank (n : BitVec 2) (new : Fin 4 → Coef) (old : Bank Coef) : Bank Coef :=
  Bank.ofFn (fun k => if k.val ≤ n.toNat then new k else old.get k)

/-- BLOCK_START's writes to the A registers (R212) from parameter set `p` and sample rate `fs`. -/
def loadBlock (a : ADomain) (p : ParamSet) (fs : F32) : ADomain :=
  { a with
    snap := p
    fs := fs
    coef := ⟨reloadBank p.lcSlope (factoryLc p fs) a.coef.lc, factoryPk p fs,
             reloadBank p.hcSlope (factoryHc p fs) a.coef.hc⟩
    enLc := slopeEnables p.lcSlope
    enHc := slopeEnables p.hcSlope
    bypLc := p.lcByp
    bypPk := p.pkByp
    bypHc := p.hcByp
    cfgErr := a.cfgErr || !validConfig p fs }

/-- PREPARE's writes to one channel (R208); `n` is the length operand, `ok` whether it is valid. -/
def prepareLane (ok selected : Bool) (n : Word) (l : Lane) : Lane :=
  if !selected then l
  else if ok then { l with prep := true, bsz := BitVec.ofNat 13 n.toNat, cur := 0#13 }
  else { l with prep := false, bsz := 0#13, cur := 0#13 }

end Sys2Proof.Machine
end

