-- ==== Sys2Proof/Machine/Audio.lean ====
section
/-! DEFINITION. The AUDIO operations (41_audio_engine R206 to R212): NOP and the reserved kinds, PREPARE, BLOCK_START,
FRAME. -/

namespace Sys2Proof.Machine

open Sys2Proof

/-- NOP (R207). -/
def execNop (s : State) : Host.Outcome State Fault Refusal := .next (aIdle s)

/-- PREPARE (R208). -/
def execPrepare (n : Word) (m : BitVec 2) (s : State) : Host.Outcome State Fault Refusal :=
  let ok := validLength s.cfg n
  .next (aCommit s
    { s.a with
      lane := ⟨prepareLane ok (maskBit m .left) n s.a.lane.left, prepareLane ok (maskBit m .right) n s.a.lane.right⟩
      accErr := s.a.accErr || (!ok && (maskBit m .left || maskBit m .right)) }
    s.mem none)

/-- BLOCK_START (R212): designs from the pre-step `A.live` (R206). -/
def execBlockStart (fs : F32) (s : State) : Host.Outcome State Fault Refusal :=
  .next (aCommit s (loadBlock s.a s.a.live fs) s.mem none)

/-- FRAME (R209): the two channels are independent lanes (R204); a channel that is not prepared sets `A.acc_err`
(R210). -/
def execFrame (x0 x1 : F32) (s : State) : Host.Outcome State Fault Refusal :=
  match laneFrame s .left x0 s.mem with
  | .error f => .fault f
  | .ok (y0, l0, m0) =>
    match laneFrame s .right x1 m0 with
    | .error f => .fault f
    | .ok (y1, l1, m1) =>
      .next (aCommit s
        { s.a with
          lane := ⟨l0, l1⟩
          accErr := s.a.accErr || !s.a.lane.left.prep || !s.a.lane.right.prep }
        m1 (some (y0, y1)))

/-! ### Reserved kinds 0x4 to 0xF execute as NOP (R207, 30_encoding R127) -/

/-- RSV.KIND4 (R207). -/
def execRsvKind4 (s : State) : Host.Outcome State Fault Refusal := .next (aIdle s)

/-- RSV.KIND5 (R207). -/
def execRsvKind5 (s : State) : Host.Outcome State Fault Refusal := .next (aIdle s)

/-- RSV.KIND6 (R207). -/
def execRsvKind6 (s : State) : Host.Outcome State Fault Refusal := .next (aIdle s)

/-- RSV.KIND7 (R207). -/
def execRsvKind7 (s : State) : Host.Outcome State Fault Refusal := .next (aIdle s)

/-- RSV.KIND8 (R207). -/
def execRsvKind8 (s : State) : Host.Outcome State Fault Refusal := .next (aIdle s)

/-- RSV.KIND9 (R207). -/
def execRsvKind9 (s : State) : Host.Outcome State Fault Refusal := .next (aIdle s)

/-- RSV.KINDA (R207). -/
def execRsvKindA (s : State) : Host.Outcome State Fault Refusal := .next (aIdle s)

/-- RSV.KINDB (R207). -/
def execRsvKindB (s : State) : Host.Outcome State Fault Refusal := .next (aIdle s)

/-- RSV.KINDC (R207). -/
def execRsvKindC (s : State) : Host.Outcome State Fault Refusal := .next (aIdle s)

/-- RSV.KINDD (R207). -/
def execRsvKindD (s : State) : Host.Outcome State Fault Refusal := .next (aIdle s)

/-- RSV.KINDE (R207). -/
def execRsvKindE (s : State) : Host.Outcome State Fault Refusal := .next (aIdle s)

/-- RSV.KINDF (R207). -/
def execRsvKindF (s : State) : Host.Outcome State Fault Refusal := .next (aIdle s)

end Sys2Proof.Machine
end

