-- ==== Sys2Proof/Machine/HostRegs.lean ====
section
/-! DEFINITION. The host register operations other than the rings (40_host_registers R161 to R183): identification,
status, the seven parameter registers, the changed flag, read-only and reserved writes, reserved reads. -/

namespace Sys2Proof.Machine

open Sys2Proof

/-- A read without a side effect that returns `v`. -/
def hostRead (v : Word) (s : State) : Host.Outcome State Fault Refusal := .next (hCommit s s.h false (some v))

/-- A write that has no effect (R164, R183). -/
def hostIgnore (s : State) : Host.Outcome State Fault Refusal := .next (hCommit s s.h false none)

/-- ParamWrite (R165): the store becomes `p`, `H.changed` is set, and `H.dirty` is 1 after the step. -/
def paramWrite (p : ParamSet) (s : State) : Host.Outcome State Fault Refusal :=
  .next (hCommit s { s.h with shadow := p, changed := true } true none)

/-! ### Identification and status -/

/-- RD.ID (R161). -/
def execRdId (s : State) : Host.Outcome State Fault Refusal := hostRead idWord s

/-- RD.CAPS (R162). -/
def execRdCaps (s : State) : Host.Outcome State Fault Refusal := hostRead (capsWord s.cfg) s

/-- RD.STATUS (R163). -/
def execRdStatus (s : State) : Host.Outcome State Fault Refusal := hostRead (statusWord s) s

/-! ### Parameter registers -/

/-- WR.PK_FREQ (R166). -/
def execWrPkFreq (d : Word) (s : State) : Host.Outcome State Fault Refusal := paramWrite { s.h.shadow with pkFreq := d } s

/-- RD.PK_FREQ (R167). -/
def execRdPkFreq (s : State) : Host.Outcome State Fault Refusal := hostRead s.h.shadow.pkFreq s

/-- WR.PK_GAIN (R168). -/
def execWrPkGain (d : Word) (s : State) : Host.Outcome State Fault Refusal := paramWrite { s.h.shadow with pkGain := d } s

/-- RD.PK_GAIN (R169). -/
def execRdPkGain (s : State) : Host.Outcome State Fault Refusal := hostRead s.h.shadow.pkGain s

/-- WR.PK_Q (R170). -/
def execWrPkQ (d : Word) (s : State) : Host.Outcome State Fault Refusal := paramWrite { s.h.shadow with pkQ := d } s

/-- RD.PK_Q (R171). -/
def execRdPkQ (s : State) : Host.Outcome State Fault Refusal := hostRead s.h.shadow.pkQ s

/-- WR.LC_FREQ (R172). -/
def execWrLcFreq (d : Word) (s : State) : Host.Outcome State Fault Refusal := paramWrite { s.h.shadow with lcFreq := d } s

/-- RD.LC_FREQ (R173). -/
def execRdLcFreq (s : State) : Host.Outcome State Fault Refusal := hostRead s.h.shadow.lcFreq s

/-- WR.HC_FREQ (R174). -/
def execWrHcFreq (d : Word) (s : State) : Host.Outcome State Fault Refusal := paramWrite { s.h.shadow with hcFreq := d } s

/-- RD.HC_FREQ (R175). -/
def execRdHcFreq (s : State) : Host.Outcome State Fault Refusal := hostRead s.h.shadow.hcFreq s

/-- WR.SLOPE (R176). -/
def execWrSlope (d : Word) (s : State) : Host.Outcome State Fault Refusal := paramWrite (s.h.shadow.withSlope d) s

/-- RD.SLOPE (R177). -/
def execRdSlope (s : State) : Host.Outcome State Fault Refusal := hostRead (slopeWord s.h.shadow) s

/-- WR.BYPASS (R178). -/
def execWrBypass (d : Word) (s : State) : Host.Outcome State Fault Refusal := paramWrite (s.h.shadow.withBypass d) s

/-- RD.BYPASS (R179). -/
def execRdBypass (s : State) : Host.Outcome State Fault Refusal := hostRead (bypassWord s.h.shadow) s

/-! ### The settings-changed flag -/

/-- RD.CHG_PEEK (R180). -/
def execRdChgPeek (s : State) : Host.Outcome State Fault Refusal := hostRead (flagWord s.h.changed) s

/-- RD.CHG_TAC (R181): returns the flag and clears it in the same step. -/
def execRdChgTac (s : State) : Host.Outcome State Fault Refusal :=
  .next (hCommit s { s.h with changed := false } false (some (flagWord s.h.changed)))

/-! ### Writes to read-only registers (R164) -/

/-- WR.RO to ID (R164). -/
def execWrRoId (_d : Word) (s : State) : Host.Outcome State Fault Refusal := hostIgnore s

/-- WR.RO to CAPS (R164). -/
def execWrRoCaps (_d : Word) (s : State) : Host.Outcome State Fault Refusal := hostIgnore s

/-- WR.RO to STATUS (R164). -/
def execWrRoStatus (_d : Word) (s : State) : Host.Outcome State Fault Refusal := hostIgnore s

/-- WR.RO to CHG_PEEK (R164). -/
def execWrRoChgPeek (_d : Word) (s : State) : Host.Outcome State Fault Refusal := hostIgnore s

/-- WR.RO to CHG_TAC (R164): does not clear the flag. -/
def execWrRoChgTac (_d : Word) (s : State) : Host.Outcome State Fault Refusal := hostIgnore s

/-- WR.RO to RING_STAT0 (R164). -/
def execWrRoRingStat0 (_d : Word) (s : State) : Host.Outcome State Fault Refusal := hostIgnore s

/-- WR.RO to RING_HLEN0 (R164). -/
def execWrRoRingHlen0 (_d : Word) (s : State) : Host.Outcome State Fault Refusal := hostIgnore s

/-- WR.RO to RING_POP0 (R164): does not pop. -/
def execWrRoRingPop0 (_d : Word) (s : State) : Host.Outcome State Fault Refusal := hostIgnore s

/-- WR.RO to RING_STAT1 (R164). -/
def execWrRoRingStat1 (_d : Word) (s : State) : Host.Outcome State Fault Refusal := hostIgnore s

/-- WR.RO to RING_HLEN1 (R164). -/
def execWrRoRingHlen1 (_d : Word) (s : State) : Host.Outcome State Fault Refusal := hostIgnore s

/-- WR.RO to RING_POP1 (R164): does not pop. -/
def execWrRoRingPop1 (_d : Word) (s : State) : Host.Outcome State Fault Refusal := hostIgnore s

/-- WR.RO to RING_WIN0 (R164). -/
def execWrRoRingWin0 (_i : BitVec 12) (_d : Word) (s : State) : Host.Outcome State Fault Refusal := hostIgnore s

/-- WR.RO to RING_WIN1 (R164). -/
def execWrRoRingWin1 (_i : BitVec 12) (_d : Word) (s : State) : Host.Outcome State Fault Refusal := hostIgnore s

/-! ### Reserved addresses -/

/-- RD.RSV (R182): returns 0. -/
def execRdRsv (_a : BitVec 14) (s : State) : Host.Outcome State Fault Refusal := hostRead 0x00000000#32 s

/-- WR.RSV (R183): no effect. -/
def execWrRsv (_a : BitVec 14) (_d : Word) (s : State) : Host.Outcome State Fault Refusal := hostIgnore s

end Sys2Proof.Machine
end

