-- ==== Sys2Proof/Machine/Ring.lean ====
section
/-! DEFINITION. The consumer side of the rings (42_ring R264 to R269): RING_STAT, RING_HLEN, RING_WIN and RING_POP of
both channels. -/

namespace Sys2Proof.Machine

open Sys2Proof

/-- The read pointer of channel `ch`. -/
def rbinOf (s : State) (ch : Chan) : Fin 60 := (s.h.ring.get ch).rbin

/-- The number of the head slot of channel `ch` (R264 `head`). -/
def headKey (s : State) (ch : Chan) : Nat := slotKey ch (rbinOf s ch)

/-- RING_STAT of channel `ch` (R265). -/
def ringStat (ch : Chan) (s : State) : Host.Outcome State Fault Refusal :=
  match wsync s ch with
  | none => .fault (.writePointerNotCode ch)
  | some w => .next (hCommit s s.h false (some (ringStatWord w (rbinOf s ch))))

/-- The RING_HLEN word for synchronised write pointer `w` (R266). -/
def ringHlenWord (s : State) (ch : Chan) (w : Fin 60) : Word :=
  if isEmpty w (rbinOf s ch) then 0#32 else (slotTag s.mem (headKey s ch)).zeroExtend 32

/-- RING_HLEN of channel `ch` (R266). -/
def ringHlen (ch : Chan) (s : State) : Host.Outcome State Fault Refusal :=
  match wsync s ch with
  | none => .fault (.writePointerNotCode ch)
  | some w => .next (hCommit s s.h false (some (ringHlenWord s ch w)))

/-- The RING_WIN word `i` for synchronised write pointer `w` (R267). -/
def ringWinWord (s : State) (ch : Chan) (i : BitVec 12) (w : Fin 60) : Word :=
  if isEmpty w (rbinOf s ch) || decide ((slotTag s.mem (headKey s ch)).toNat ≤ i.toNat) then 0#32
  else slotWord s.mem (headKey s ch) i.toNat

/-- RING_WIN of channel `ch` at index `i` (R267). -/
def ringWin (ch : Chan) (i : BitVec 12) (s : State) : Host.Outcome State Fault Refusal :=
  match wsync s ch with
  | none => .fault (.writePointerNotCode ch)
  | some w => .next (hCommit s s.h false (some (ringWinWord s ch i w)))

/-- The H registers after a successful pop of channel `ch` (R268). -/
def popped (h : HDomain) (ch : Chan) : HDomain :=
  let r := h.ring.get ch
  { h with ring := h.ring.set ch { r with rbin := inc r.rbin, rgray := g60 (inc r.rbin) } }

/-- RING_POP of channel `ch` (R268): 0 and no change on an empty ring, else the read pointer advances and 1 returns. -/
def ringPop (ch : Chan) (s : State) : Host.Outcome State Fault Refusal :=
  match wsync s ch with
  | none => .fault (.writePointerNotCode ch)
  | some w =>
    if isEmpty w (rbinOf s ch) then .next (hCommit s s.h false (some 0#32))
    else .next (hCommit s (popped s.h ch) false (some 1#32))

/-- RD.RING_STAT0 (R265). -/
def execRdRingStat0 (s : State) : Host.Outcome State Fault Refusal := ringStat .left s

/-- RD.RING_HLEN0 (R266). -/
def execRdRingHlen0 (s : State) : Host.Outcome State Fault Refusal := ringHlen .left s

/-- RD.RING_POP0 (R268). -/
def execRdRingPop0 (s : State) : Host.Outcome State Fault Refusal := ringPop .left s

/-- RD.RING_STAT1 (R265). -/
def execRdRingStat1 (s : State) : Host.Outcome State Fault Refusal := ringStat .right s

/-- RD.RING_HLEN1 (R266). -/
def execRdRingHlen1 (s : State) : Host.Outcome State Fault Refusal := ringHlen .right s

/-- RD.RING_POP1 (R268). -/
def execRdRingPop1 (s : State) : Host.Outcome State Fault Refusal := ringPop .right s

/-- RD.RING_WIN0 (R267). -/
def execRdRingWin0 (i : BitVec 12) (s : State) : Host.Outcome State Fault Refusal := ringWin .left i s

/-- RD.RING_WIN1 (R267). -/
def execRdRingWin1 (i : BitVec 12) (s : State) : Host.Outcome State Fault Refusal := ringWin .right i s

end Sys2Proof.Machine
end

