-- ==== Sys2Proof/Machine/Dispatch.lean ====
section
/-! DEFINITION. The meaning of every operation: one arm per constructor. -/

namespace Sys2Proof.Machine

open Sys2Proof

def exec (i : Instr) (s : State) : Host.Outcome State Fault Refusal :=
  match i with
  | .rdId => Sys2Proof.Machine.execRdId s
  | .rdCaps => Sys2Proof.Machine.execRdCaps s
  | .rdStatus => Sys2Proof.Machine.execRdStatus s
  | .wrPkFreq d => Sys2Proof.Machine.execWrPkFreq d s
  | .rdPkFreq => Sys2Proof.Machine.execRdPkFreq s
  | .wrPkGain d => Sys2Proof.Machine.execWrPkGain d s
  | .rdPkGain => Sys2Proof.Machine.execRdPkGain s
  | .wrPkQ d => Sys2Proof.Machine.execWrPkQ d s
  | .rdPkQ => Sys2Proof.Machine.execRdPkQ s
  | .wrLcFreq d => Sys2Proof.Machine.execWrLcFreq d s
  | .rdLcFreq => Sys2Proof.Machine.execRdLcFreq s
  | .wrHcFreq d => Sys2Proof.Machine.execWrHcFreq d s
  | .rdHcFreq => Sys2Proof.Machine.execRdHcFreq s
  | .wrSlope d => Sys2Proof.Machine.execWrSlope d s
  | .rdSlope => Sys2Proof.Machine.execRdSlope s
  | .wrBypass d => Sys2Proof.Machine.execWrBypass d s
  | .rdBypass => Sys2Proof.Machine.execRdBypass s
  | .rdChgPeek => Sys2Proof.Machine.execRdChgPeek s
  | .rdChgTac => Sys2Proof.Machine.execRdChgTac s
  | .rdRingStat0 => Sys2Proof.Machine.execRdRingStat0 s
  | .rdRingHlen0 => Sys2Proof.Machine.execRdRingHlen0 s
  | .rdRingPop0 => Sys2Proof.Machine.execRdRingPop0 s
  | .rdRingStat1 => Sys2Proof.Machine.execRdRingStat1 s
  | .rdRingHlen1 => Sys2Proof.Machine.execRdRingHlen1 s
  | .rdRingPop1 => Sys2Proof.Machine.execRdRingPop1 s
  | .rdRingWin0 idx => Sys2Proof.Machine.execRdRingWin0 idx s
  | .rdRingWin1 idx => Sys2Proof.Machine.execRdRingWin1 idx s
  | .wrRoId d => Sys2Proof.Machine.execWrRoId d s
  | .wrRoCaps d => Sys2Proof.Machine.execWrRoCaps d s
  | .wrRoStatus d => Sys2Proof.Machine.execWrRoStatus d s
  | .wrRoChgPeek d => Sys2Proof.Machine.execWrRoChgPeek d s
  | .wrRoChgTac d => Sys2Proof.Machine.execWrRoChgTac d s
  | .wrRoRingStat0 d => Sys2Proof.Machine.execWrRoRingStat0 d s
  | .wrRoRingHlen0 d => Sys2Proof.Machine.execWrRoRingHlen0 d s
  | .wrRoRingPop0 d => Sys2Proof.Machine.execWrRoRingPop0 d s
  | .wrRoRingStat1 d => Sys2Proof.Machine.execWrRoRingStat1 d s
  | .wrRoRingHlen1 d => Sys2Proof.Machine.execWrRoRingHlen1 d s
  | .wrRoRingPop1 d => Sys2Proof.Machine.execWrRoRingPop1 d s
  | .wrRoRingWin0 idx d => Sys2Proof.Machine.execWrRoRingWin0 idx d s
  | .wrRoRingWin1 idx d => Sys2Proof.Machine.execWrRoRingWin1 idx d s
  | .rdRsv a => Sys2Proof.Machine.execRdRsv a s
  | .wrRsv a d => Sys2Proof.Machine.execWrRsv a d s
  | .nop => Sys2Proof.Machine.execNop s
  | .prepare n m => Sys2Proof.Machine.execPrepare n m s
  | .blockStart fs => Sys2Proof.Machine.execBlockStart fs s
  | .frame x0 x1 => Sys2Proof.Machine.execFrame x0 x1 s
  | .rsvKind4 => Sys2Proof.Machine.execRsvKind4 s
  | .rsvKind5 => Sys2Proof.Machine.execRsvKind5 s
  | .rsvKind6 => Sys2Proof.Machine.execRsvKind6 s
  | .rsvKind7 => Sys2Proof.Machine.execRsvKind7 s
  | .rsvKind8 => Sys2Proof.Machine.execRsvKind8 s
  | .rsvKind9 => Sys2Proof.Machine.execRsvKind9 s
  | .rsvKindA => Sys2Proof.Machine.execRsvKindA s
  | .rsvKindB => Sys2Proof.Machine.execRsvKindB s
  | .rsvKindC => Sys2Proof.Machine.execRsvKindC s
  | .rsvKindD => Sys2Proof.Machine.execRsvKindD s
  | .rsvKindE => Sys2Proof.Machine.execRsvKindE s
  | .rsvKindF => Sys2Proof.Machine.execRsvKindF s

end Sys2Proof.Machine
end

