-- ==== Sys2Proof/Machine/Fetch.lean ====
section
/-! DEFINITION. Which event a step takes, and what it runs (43_clock_steps R310, log entries 1 and 2). YBQ fetches nothing
from a memory: the words come from its two ports. -/

namespace Sys2Proof.Machine

open Sys2Proof

/-- The event of the next step: the first one presented; when none is, one idle edge of the domain and with the captures
that `Config` leaves free: an H edge with no word, or an A edge carrying NOP (30_encoding R120). -/
def nextEdge (s : State) : Edge :=
  match s.pending with
  | e :: _ => e
  | [] =>
    if Config.idleEdgeIsHost s.tick then .host none (Config.idleCapture s.tick)
    else .audio 0#72 (Config.idleCapture s.tick)

/-- The state an edge's operation runs in: the event is taken and its metastability choices hold for this edge. -/
def takeEdge (s : State) (c : Config.Capture) : State :=
  { s with pending := s.pending.tail, capture := c, tick := s.tick + 1 }

/-- Assertion and release of reset (70_reset_and_hazards R370, R374): every register of both domains, the bookkeeping and
the rings hold their reset values; the parameters and the events still to come are not the machine's. -/
def afterReset (s : State) : State :=
  { State.resetWith s.cfg with pending := s.pending.tail, tick := s.tick + 1 }

/-- Run one event (R310; 40_host_registers R160, 41_audio_engine R206). -/
def runEdge (s : State) : Edge → Host.Outcome State Fault Refusal
  | .host (some w) c => exec (decodeHost w) (takeEdge s c)
  | .host none c => .next (hIdle (takeEdge s c))
  | .audio w c => exec (decodeAudio w) (takeEdge s c)
  | .reset => .next (afterReset s)

/-- The edge that carries a port word. -/
def edgeOf (p : PortWord) (c : Config.Capture) : Edge :=
  match p with
  | .host w => .host (some w) c
  | .audio w => .audio w c

/-- `s` with the word of a table row presented first (log entry 14); no row is wider than 72 bits. -/
def presentBits (s : State) (nbits w : Nat) : State :=
  match portWordOfBits nbits w with
  | .ok p => { s with pending := edgeOf p s.capture :: s.pending }
  | .error _ => s

end Sys2Proof.Machine
end

