-- ==== Sys2Proof/Machine/Step.lean ====
section
/-! DEFINITION. One step of YBQ: one edge of one domain (43_clock_steps R310). -/

namespace Sys2Proof.Machine

open Sys2Proof

/-- Take the next event and run it. -/
def step (s : State) : Host.Outcome State Fault Refusal := runEdge s (nextEdge s)

/-- `s` with the given instruction bits presented where `step` takes its next word. -/
def State.withFetchWord (s : State) (nbits w : Nat) : State := presentBits s nbits w

end Sys2Proof.Machine
end

