-- ==== Sys2Proof/Machine/Pseudo.lean ====
section
/-! DEFINITION. The pseudo-operations of 30_encoding R131 as sequences of operations, and the pull sequence of 42_ring
R270. They are programs a host or an audio source issues (R132), not operations of YBQ: `exec` does not use them. -/

namespace Sys2Proof.Machine

open Sys2Proof

/-- The edge of one line of R130's assembly syntax: operation `i` on its port, with the captures of that edge. -/
def line (i : Instr) (c : Config.Capture) : Edge := edgeOf (encode i) c

/-- `h.idle` (R130). -/
def idleLine (c : Config.Capture) : Edge := .host none c

/-- `h.idle*k` and `a.nop*k` (R130): a line repeated, once for each capture. -/
def repeated (l : Config.Capture → Edge) (cs : List Config.Capture) : List Edge := cs.map l

/-- `setparams p` (R131). -/
def setParams (p : ParamSet) : List Instr :=
  [.wrPkFreq p.pkFreq, .wrPkGain p.pkGain, .wrPkQ p.pkQ, .wrLcFreq p.lcFreq, .wrHcFreq p.hcFreq,
   .wrSlope (slopeWord p), .wrBypass (bypassWord p)]

/-- `a.prepare2 n` (R131). -/
def prepareBoth (n : Word) : Instr := .prepare n 3#2

/-- `a.process fs, frames` (R131). -/
def processBlock (fs : F32) (frames : List (F32 × F32)) : List Instr :=
  .blockStart fs :: frames.map (fun x => .frame x.1 x.2)

/-- `tac` (R131): the read, and the bit it gives. -/
def testAndClear : Instr × (Word → Bool) := (.rdChgTac, fun r => r.getLsbD 0)

/-- The RING_STAT read of a channel (42_ring R265). -/
def statOp : Chan → Instr
  | .left => .rdRingStat0
  | .right => .rdRingStat1

/-- The RING_HLEN read of a channel (R266). -/
def hlenOp : Chan → Instr
  | .left => .rdRingHlen0
  | .right => .rdRingHlen1

/-- The RING_POP read of a channel (R268). -/
def popOp : Chan → Instr
  | .left => .rdRingPop0
  | .right => .rdRingPop1

/-- The RING_WIN read of a channel at index `i` (R267). -/
def winOp (ch : Chan) (i : BitVec 12) : Instr :=
  match ch with
  | .left => .rdRingWin0 i
  | .right => .rdRingWin1 i

/-- Run operations one after the other, collecting the words the reads return. That no other step comes in between and
that all use the captures the state holds is the model's choice, since R310 leaves any interleaving (log entry 18). -/
def readAll : List Instr → State → Host.Outcome (State × List Word) Fault Refusal
  | [], s => .next (s, [])
  | i :: is, s =>
    match exec i s with
    | .fault f => .fault f
    | .refused r => .refused r
    | .next t =>
      match readAll is t with
      | .fault f => .fault f
      | .refused r => .refused r
      | .next (u, ws) => .next (u, t.hostOut.toList ++ ws)

/-- Run the given edges, presented before whatever else is (R310). -/
def runEdges : List Edge → State → Host.Outcome State Fault Refusal
  | [], s => .next s
  | e :: es, s =>
    match runEdge { s with pending := e :: s.pending } e with
    | .fault f => .fault f
    | .refused r => .refused r
    | .next t => runEdges es t

/-- The edges that come before an operation of a sequence, of either domain and of any agent (R310), and the captures of the
operation's own edge. -/
abbrev Gap := List Edge × Config.Capture

/-- One line of a sequence: the edges of the gap, then operation `i` on its port. -/
def runLine (i : Instr) (g : Gap) (s : State) : Host.Outcome State Fault Refusal := runEdges (g.1 ++ [line i g.2]) s

/-- `waitparams` (R131): read STATUS until PARAM_PENDING reads 0; the answer says whether it did. R131 gives no bound and
R310 leaves open what falls between two reads. The model's choice (log entry 18): both are the argument `tries`, which
lists for each read the edges of either domain before it and the captures of its own edge; after the last the model gives
up. A claim about every `tries` is a claim about every interleaving. -/
def waitParams : List Gap → State → Host.Outcome (State × Bool) Fault Refusal
  | [], s => .next (s, false)
  | g :: tries, s =>
    match runLine .rdStatus g s with
    | .fault f => .fault f
    | .refused r => .refused r
    | .next t => if (t.hostOut.getD 0#32).getLsbD 8 then waitParams tries t else .next (t, true)

/-- The window reads of words 0..n-1. -/
def winReads (ch : Chan) (n : Nat) : List Instr := (List.range n).map (fun i => winOp ch (BitVec.ofNat 12 i))

/-- `pull ch` (R131, R270): none when EMPTY, else the head's length, its words, and the word RING_POP returned. Its reads
follow one another with no step in between, the model's choice (log entries 15 and 18); `pullAmong` lets any come. -/
def pull (ch : Chan) (s : State) : Host.Outcome (State × Option (Word × List Word × List Word)) Fault Refusal :=
  match readAll [statOp ch] s with
  | .fault f => .fault f
  | .refused r => .refused r
  | .next (s1, st) =>
    if (st.headD 0#32).getLsbD 8 then .next (s1, none)
    else
      match readAll [hlenOp ch] s1 with
      | .fault f => .fault f
      | .refused r => .refused r
      | .next (s2, len) =>
        match readAll (winReads ch (len.headD 0#32).toNat) s2 with
        | .fault f => .fault f
        | .refused r => .refused r
        | .next (s3, d) =>
          match readAll [popOp ch] s3 with
          | .fault f => .fault f
          | .refused r => .refused r
          | .next (s4, ok) => .next (s4, some (len.headD 0#32, d, ok))

/-- `readAll` with other steps in between: operation number `n` comes after the edges of `gaps n`. -/
def readLines (gaps : Nat → Gap) : List Instr → Nat → State → Host.Outcome (State × List Word) Fault Refusal
  | [], _, s => .next (s, [])
  | i :: is, n, s =>
    match runLine i (gaps n) s with
    | .fault f => .fault f
    | .refused r => .refused r
    | .next t =>
      match readLines gaps is (n + 1) t with
      | .fault f => .fault f
      | .refused r => .refused r
      | .next (u, ws) => .next (u, t.hostOut.toList ++ ws)

/-- The rest of `pull ch` once HLEN has answered `len`: the window reads and the pop, lines 2 to len + 2 (R270). -/
def drainLines (ch : Chan) (gaps : Nat → Gap) (len : Word) (s : State) :
    Host.Outcome (State × Option (Word × List Word × List Word)) Fault Refusal :=
  match readLines gaps (winReads ch len.toNat) 2 s with
  | .fault f => .fault f
  | .refused r => .refused r
  | .next (t, d) =>
    match readLines gaps [popOp ch] (2 + len.toNat) t with
    | .fault f => .fault f
    | .refused r => .refused r
    | .next (u, ok) => .next (u, some (len, d, ok))

/-- `pull ch` among other steps (R270): RING_STAT is line 0, RING_HLEN line 1, window word `i` line `i + 2`, RING_POP the
last, and the edges of `gaps n` come before line `n`. A claim about every `gaps` is a claim about every interleaving. -/
def pullAmong (ch : Chan) (gaps : Nat → Gap) (s : State) :
    Host.Outcome (State × Option (Word × List Word × List Word)) Fault Refusal :=
  match readLines gaps [statOp ch] 0 s with
  | .fault f => .fault f
  | .refused r => .refused r
  | .next (t, st) =>
    if (st.headD 0#32).getLsbD 8 then .next (t, none)
    else
      match readLines gaps [hlenOp ch] 1 t with
      | .fault f => .fault f
      | .refused r => .refused r
      | .next (u, len) => drainLines ch gaps (len.headD 0#32) u

end Sys2Proof.Machine
end

