-- ==== Sys2Proof/Safety.lean ====
section
/-! DEFINITION. What claims are about: a run that never stops, the invariant of every reachable state (42_ring R271,
43_clock_steps R320, 10_state R48, R51), the contents of a ring as a queue (42_ring R275), the value of a binary32 as a
rational, and what a claim may assume of the coefficient factory (41_audio_engine R217, R218). -/

namespace Sys2Proof.Machine

open Sys2Proof

/-- A safe run: `n` steps from `s` meet no fault and no refusal (60_exceptions R340). -/
def RunsFor (n : Nat) (s : State) : Prop := ∃ t, Host.Core.run Sys2Proof.core n s = .next t

/-! ### The invariant -/

/-- Every synchroniser has N_SYNC flip-flops (00_scope R7). -/
def chainsSized (s : State) : Bool :=
  [s.h.ackS, s.h.cfgerrS, s.h.accerrS, s.a.togS].all (fun c => decide (c.length = s.cfg.nSync)) &&
  [s.h.ring.left.ws, s.h.ring.right.ws, s.a.lane.left.rs, s.a.lane.right.rs].all
    (fun c => decide (c.length = s.cfg.nSync))

/-- The pointer copies are the codes of the pointers (R271 I0). -/
def pointersCoded (s : State) (ch : Chan) : Bool :=
  decide ((s.h.ring.get ch).rgray = g60 (s.h.ring.get ch).rbin) &&
  decide ((s.a.lane.get ch).wgray = g60 (s.a.lane.get ch).wbin)

/-- A fresh source's previous value, which a synchroniser may still capture (R311). -/
def staleValue {α : Type} (x : Crossing α) : List α := if x.fresh then [x.prev] else []

/-- Every copy of channel `ch`'s two pointers, oldest first: the read pointer through the A synchroniser, the read
pointer, the write pointer through the H synchroniser, the write pointer. -/
def pointerTrail (s : State) (ch : Chan) : List (BitVec 6) :=
  (s.a.lane.get ch).rs.reverse ++ staleValue (s.k.rgray.get ch) ++ [(s.h.ring.get ch).rgray]
    ++ (s.h.ring.get ch).ws.reverse ++ staleValue (s.k.wgray.get ch) ++ [(s.a.lane.get ch).wgray]

/-- How far a code is ahead of pointer `base`; 60, out of range, for a value that is no code. -/
def aheadOf (base : Fin 60) (g : BitVec 6) : Nat :=
  match g60inv g with
  | some p => ptrDist p base
  | none => 60

/-- R271 I0 to I3 in one: counted from the producer's view of the read pointer, the copies never go back along the trail
and none is more than 30 ahead. -/
def trailOrdered (s : State) (ch : Chan) : Bool :=
  match rsync s ch with
  | none => false
  | some base =>
    decide (List.Pairwise (· ≤ ·) ((pointerTrail s ch).map (aheadOf base))) &&
    (pointerTrail s ch).all (fun g => decide (aheadOf base g ≤ 30))

/-- Pointer `p` advanced `n` times (R261). -/
def advance (p : Fin 60) (n : Nat) : Fin 60 := ⟨(p.val + n) % 60, Nat.mod_lt _ (by decide)⟩

/-- The number of blocks pushed and not popped (R271 I1). -/
def occupancy (s : State) (ch : Chan) : Nat := ptrDist (s.a.lane.get ch).wbin (s.h.ring.get ch).rbin

/-- Every slot that holds a block has been written (10_state R51). -/
def occupiedWritten (s : State) (ch : Chan) : Bool :=
  (List.range (occupancy s ch)).all (fun i => (s.mem.find (slotKey ch (advance (rbinOf s ch) i))).isSome)

/-- A written slot has a length in 1..BLK_MAX and that many written words (10_state R51). -/
def slotWf (p : Config.Params) (v : Slot) : Bool :=
  decide (1 ≤ v.len.toNat) && decide (v.len.toNat ≤ v.data.length) && decide (v.data.length ≤ p.blkMax)

/-- The accumulator ranges of 10_state R48; entries below the cursor have been written. -/
def accumulatorWf (p : Config.Params) (l : Lane) : Bool :=
  (if l.prep then
    decide (1 ≤ l.bsz.toNat) && decide (l.bsz.toNat ≤ p.blkMax) && decide (l.cur.toNat < l.bsz.toNat)
      && decide (l.cur.toNat ≤ l.abuf.length)
  else decide (l.bsz = 0#13) && decide (l.cur = 0#13)) && decide (l.abuf.length ≤ p.blkMax)

/-- The toggle on its way round: H to A through `tog_s`, back through `ack_s`, newest first (R313, R317). -/
def toggleTrail (s : State) : List Bool :=
  [s.h.mbTog] ++ staleValue s.k.mbTog ++ s.a.togS ++ [s.a.aTog] ++ staleValue s.k.aTog ++ s.h.ackS

/-- A list of bits that changes at most once. -/
def changesOnce (l : List Bool) : Bool :=
  (l.dropWhile (fun b => b == l.headD false)).all (fun b => b != l.headD false)

/-- The mailbox invariant behind R320 (a) to (d): at most one toggle is under way; a clean store is the mailbox; an
accepted mailbox is the live set. -/
def mailboxOk (s : State) : Bool :=
  changesOnce (toggleTrail s) && (s.h.dirty || decide (s.h.mb = s.h.shadow)) &&
  (s.a.aTog != s.h.mbTog || decide (s.a.live = s.h.mb))

/-- A status bit reads 1 only if its sticky bit is set (R314). -/
def statusOk (bit : Bool) (x : Crossing Bool) (c : List Bool) : Bool := bit || (!x.fresh && c.all (fun b => !b))

/-- The invariant of every state reachable from reset. -/
structure Inv (s : State) : Prop where
  params : s.cfg.wf = true
  chains : chainsSized s = true
  coded : ∀ ch, pointersCoded s ch = true
  ordered : ∀ ch, trailOrdered s ch = true
  written : ∀ ch, occupiedWritten s ch = true
  memory : s.mem.wf = true
  slots : s.mem.all (fun e => slotWf s.cfg e.2) = true
  accumulators : ∀ ch, accumulatorWf s.cfg (s.a.lane.get ch) = true
  mailbox : mailboxOk s = true
  cfgStatus : statusOk s.a.cfgErr s.k.cfgErr s.h.cfgerrS = true
  accStatus : statusOk s.a.accErr s.k.accErr s.h.accerrS = true

/-! ### A ring as a queue of blocks -/

/-- A block: its length tag and that many words. -/
abbrev Block := BitVec 13 × List F32

/-- The block in the slot of pointer `p` (R264 `head`, R267). -/
def blockAt (s : State) (ch : Chan) (p : Fin 60) : Block :=
  let key := slotKey ch p
  (slotTag s.mem key, (List.range (slotTag s.mem key).toNat).map (slotWord s.mem key))

/-- The blocks pushed and not popped, oldest first (R271 I5). -/
def queued (s : State) (ch : Chan) : List Block :=
  (List.range (occupancy s ch)).map (fun i => blockAt s ch (advance (rbinOf s ch) i))

/-- A FRAME completes channel `ch`'s accumulator block (41_audio_engine R210). -/
def completes (s : State) (ch : Chan) : Bool :=
  (s.a.lane.get ch).prep && decide ((s.a.lane.get ch).cur.toNat + 1 = (s.a.lane.get ch).bsz.toNat)

/-- A FRAME's operand for channel `ch`. -/
def inputOf (x0 x1 : F32) : Chan → F32
  | .left => x0
  | .right => x1

/-- The sample a FRAME gives channel `ch`'s accumulator (R211). -/
def tappedSample (s : State) (ch : Chan) (x0 x1 : F32) : F32 :=
  tapOf s.cfg.accTap (inputOf x0 x1 ch) (chain s.a ch (inputOf x0 x1 ch)).1

/-- The block a completing FRAME hands to Push (R210): the collected samples, then the new one. -/
def completedBlock (s : State) (ch : Chan) (x0 x1 : F32) : Block :=
  let l := s.a.lane.get ch
  (l.bsz, (List.range l.cur.toNat).map (abufRead ch l.abuf) ++ [tappedSample s ch x0 x1])

/-! ### Values of binary32 patterns -/

/-- The real value of a finite binary32, straight from the layout of 20_memory R84: sign, exponent biased by 127,
23 fraction bits. -/
def f32Value (x : F32) : ℚ :=
  let e := (x.extractLsb' 23 8).toNat
  let f : ℚ := (x.extractLsb' 0 23).toNat
  let m : ℚ := if e = 0 then f / 2 ^ 149 else (1 + f / 2 ^ 23) * 2 ^ e / 2 ^ 127
  if x.getLsbD 31 then -m else m

/-- r is the binary32 nearest to the real number v, ties to the even significand (41_audio_engine R200). From
2^128 - 2^103 on, the nearest is the infinity of v's sign. -/
def RoundsTo (v : ℚ) (r : F32) : Prop :=
  if v ≥ 2 ^ 128 - 2 ^ 103 then r = 0x7F800000#32
  else if v ≤ -(2 ^ 128 - 2 ^ 103) then r = 0xFF800000#32
  else fFinite r = true ∧ ∀ y : F32, fFinite y = true →
    |f32Value r - v| < |f32Value y - v| ∨ f32Value y = f32Value r ∨
      (|f32Value r - v| = |f32Value y - v| ∧ r.getLsbD 0 = false)

/-! ### What a claim may assume of the factory -/

/-- The outputs of one stage from state `st` for a list of inputs (R201). -/
def stageOutputs (c : Coef) : StageState → List F32 → List F32
  | _, [] => []
  | st, x :: xs => (biquad c st x).1 :: stageOutputs c (biquad c st x).2 xs

/-- The real value of a coefficient or an operand. -/
def realValue (x : F32) : ℝ := (f32Value x : ℝ)

/-- All five coefficients are finite; the value of an infinity or a NaN is no number. -/
def coefFinite (c : Coef) : Bool := [c.b0, c.b1, c.b2, c.a1, c.a2].all fFinite

/-- The squared magnitude of one section at frequency `f` for sample rate `fs` (transfer function of R201). -/
noncomputable def power (c : Coef) (f fs : ℝ) : ℝ :=
  let z : ℂ := Complex.exp (-(2 * Real.pi * f / fs : ℝ) * Complex.I)
  let v (x : F32) : ℂ := ((realValue x : ℝ) : ℂ)
  Complex.normSq (v c.b0 + v c.b1 * z + v c.b2 * z ^ 2) / Complex.normSq (1 + v c.a1 * z + v c.a2 * z ^ 2)

/-- The bilinear frequency of `f` for sample rate `fs` (R225 `n`). -/
noncomputable def warp (f fs : ℝ) : ℝ := Real.tan (Real.pi * f / fs)

/-- The squared magnitude of the standard peaking filter with centre `f0`, quality `q` and gain `g` dB: the analog
prototype (s^2 + s A/q + 1) / (s^2 + s/(A q) + 1) with A^2 = 10^(g/20), at the frequency that is `x` times the centre
after prewarping (R224, R226; log entry 16). -/
noncomputable def peakReference (x q g : ℝ) : ℝ :=
  let a : ℝ := (10 : ℝ) ^ (g / 40)
  ((1 - x ^ 2) ^ 2 + (x * a / q) ^ 2) / ((1 - x ^ 2) ^ 2 + (x / (a * q)) ^ 2)

/-- R217, first half: inside the contract the peak coefficients are finite and, at every frequency below half the sample
rate, have the response of the standard peaking filter with centre `pk_freq`, quality `pk_q` and gain `pk_gain` dB, within
the unstated tolerance. The spec gives no measure of a "standard biquad peaking-filter design" (D13); that it is judged by
the squared magnitude alone, so that phase and stability stay free, is the model's choice (log entry 16). -/
def PeakDesign : Prop :=
  ∀ (p : ParamSet) (fs : F32), validConfig p fs = true →
    coefFinite (factoryPk p fs) = true ∧
    ∀ f : ℝ, 0 < f → 2 * f < realValue fs →
      Config.withinTolPeak (power (factoryPk p fs) f (realValue fs))
        (peakReference (warp f (realValue fs) / warp (realValue p.pkFreq) (realValue fs)) (realValue p.pkQ)
          (realValue p.pkGain))

/-- R217, second half: inside the contract at 0 dB gain the peak stage is the identity within `TOL_ID`, for finite inputs.
R217 names no stage state to judge this from; that it is judged from the zero state, and for finite inputs only, is the
model's choice (log entry 16). -/
def PeakIdentity : Prop :=
  ∀ (p : ParamSet) (fs : F32) (xs : List F32), validConfig p fs = true →
    (p.pkGain = 0x00000000#32 ∨ p.pkGain = 0x80000000#32) → (∀ x ∈ xs, fFinite x = true) →
    List.Forall₂ (fun y x => Config.withinTolId y x = true) (stageOutputs (factoryPk p fs) ⟨0#32, 0#32⟩ xs) xs

/-- R217. -/
def PeakContract : Prop := PeakDesign ∧ PeakIdentity

/-- The cascade `cs` is within 0.1 dB of the squared magnitude `ref` at frequency `f` for sample rate `fs` (R218), said of
the ratio: 0.1 dB of power is a factor of 10^(1/100). A cascade that passes nothing is within 0.1 dB of nothing. -/
def WithinTenthDb (cs : List Coef) (f fs ref : ℝ) : Prop :=
  let total : ℝ := (cs.map (fun c => power c f fs)).prod
  ref * (10 : ℝ) ^ (-(1 / 100) : ℝ) < total ∧ total < ref * (10 : ℝ) ^ ((1 / 100) : ℝ)

/-- Sections 0..n of a cut design. -/
def sections (n : BitVec 2) (d : Fin 4 → Coef) : List Coef :=
  ((List.finRange 4).filter (fun k => decide (k.val ≤ n.toNat))).map d

/-- The quality of Butterworth section `k` for ordinal `n` (R225 `Q_k`). -/
noncomputable def butterworthQ (n k : Nat) : ℝ := 1 / (2 * Real.cos ((2 * k + 1) * Real.pi / (4 * (n + 1))))

/-- R218 "exact pole placement": sections 0..n of `d` have, in some order, the denominators of the Butterworth pole pairs
for the prewarped cutoff `t`, each coefficient within the unstated tolerance. A high-pass and a low-pass section have the
same denominator (R225). Every pair is complex, so a section holds one pair whole. -/
def PolesPlaced (n : BitVec 2) (d : Fin 4 → Coef) (t : ℝ) : Prop :=
  ∃ order : Equiv.Perm (Fin (n.toNat + 1)), ∀ k : Fin (n.toNat + 1),
    let c := d ⟨(order k).val, by have := (order k).isLt; have := n.isLt; omega⟩
    let q := butterworthQ n.toNat k.val
    Config.withinTolPole (realValue c.a1) (2 * (t ^ 2 - 1) / (1 + t / q + t ^ 2)) ∧
      Config.withinTolPole (realValue c.a2) ((1 - t / q + t ^ 2) / (1 + t / q + t ^ 2))

/-- R218 for one bank: finite coefficients, exact poles, and a magnitude within 0.1 dB of the Butterworth response of
order 2(n+1) at the test frequencies, where `ratio x` is the reference's frequency ratio at warped frequency `x`. -/
def IsButterworth (n : BitVec 2) (d : Fin 4 → Coef) (cutoff fs : F32) (ratio : ℝ → ℝ) : Prop :=
  let rate := realValue fs
  (∀ c ∈ sections n d, coefFinite c = true) ∧ PolesPlaced n d (warp (realValue cutoff) rate) ∧
  ∀ f ∈ Config.testFreqs fs, 0 < f → 2 * f < rate →
    WithinTenthDb (sections n d) f rate (1 / (1 + ratio (warp f rate) ^ (2 * (2 * (n.toNat + 1)))))

/-- R218: inside the contract the low-cut cascade is a Butterworth high-pass and the high-cut cascade a Butterworth
low-pass, each of order 2(N+1) at its cutoff; the reference is the prewarped bilinear design R225 gives (log entry
16). -/
def CutContract : Prop :=
  ∀ (p : ParamSet) (fs : F32), validConfig p fs = true →
    let rate := realValue fs
    IsButterworth p.lcSlope (factoryLc p fs) p.lcFreq fs (fun x => warp (realValue p.lcFreq) rate / x) ∧
      IsButterworth p.hcSlope (factoryHc p fs) p.hcFreq fs (fun x => x / warp (realValue p.hcFreq) rate)

/-- All a claim may assume of the factory beyond R215 and R216, which its type gives (R214, R219). -/
def FactoryContract : Prop := PeakContract ∧ CutContract

end Sys2Proof.Machine
end

