-- ==== Sys2Proof/Certificates/Slice0/Obligations.lean ====
section
/-! DEFINITION. The statements about YBQ that the provers settle. Helper predicates first, in Sys2Proof.Claims; then the
obligations, family by family. Statements about a state hold for every state, hence for every environment: every
schedule, every word, every metastable capture, every value of the OPEN parameters. -/

namespace Sys2Proof.Claims

open Sys2Proof Sys2Proof.Machine

/-- R311: what a first flip-flop captures from source value `cur` when the environment's choice is `old`. -/
def captured {α : Type} (x : Crossing α) (old : Bool) (cur : α) : α :=
  if x.fresh = true ∧ old = true then x.prev else cur

/-- `l'` is chain `l` after one shift that lets `v` in: flip-flop 1 takes `v`, flip-flop k takes flip-flop k - 1. -/
def Shifted {α : Type} (v : α) (l l' : List α) : Prop :=
  l'.length = l.length ∧ ∀ k, k < l.length → l'[k]? = if k = 0 then some v else l[k - 1]?

/-- R321 for a source of the stepping domain that goes from `pre` to `post`. -/
def Tracked {α : Type} (x x' : Crossing α) (pre post : α) : Prop :=
  (pre = post → x' = x) ∧ (pre ≠ post → x' = { prev := pre, fresh := true })

/-- R321 for a source of the other domain. -/
def Consumed {α : Type} (x x' : Crossing α) : Prop := x'.prev = x.prev ∧ x'.fresh = false

/-- The seven parameter writes (R165). -/
def isParamWrite : Instr → Bool
  | .wrPkFreq _ | .wrPkGain _ | .wrPkQ _ | .wrLcFreq _ | .wrHcFreq _ | .wrSlope _ | .wrBypass _ => true
  | _ => false

/-- The thirteen writes of R164 and the write of R183. -/
def isIgnoredWrite : Instr → Bool
  | .wrRoId _ | .wrRoCaps _ | .wrRoStatus _ | .wrRoChgPeek _ | .wrRoChgTac _ | .wrRoRingStat0 _ | .wrRoRingHlen0 _
  | .wrRoRingPop0 _ | .wrRoRingStat1 _ | .wrRoRingHlen1 _ | .wrRoRingPop1 _ | .wrRoRingWin0 _ _ | .wrRoRingWin1 _ _
  | .wrRsv _ _ => true
  | _ => false

/-- NOP and the twelve reserved kinds (R207). -/
def isNop : Instr → Bool
  | .nop | .rsvKind4 | .rsvKind5 | .rsvKind6 | .rsvKind7 | .rsvKind8 | .rsvKind9 | .rsvKindA | .rsvKindB | .rsvKindC
  | .rsvKindD | .rsvKindE | .rsvKindF => true
  | _ => false

/-- The HOSTBUS reads. -/
def isRead : Instr → Bool
  | .rdId | .rdCaps | .rdStatus | .rdPkFreq | .rdPkGain | .rdPkQ | .rdLcFreq | .rdHcFreq | .rdSlope | .rdBypass
  | .rdChgPeek | .rdChgTac | .rdRingStat0 | .rdRingHlen0 | .rdRingPop0 | .rdRingStat1 | .rdRingHlen1 | .rdRingPop1
  | .rdRingWin0 _ | .rdRingWin1 _ | .rdRsv _ => true
  | _ => false

/-- The reads with a side effect (R88). -/
def isSideEffectRead : Instr → Bool
  | .rdChgTac | .rdRingPop0 | .rdRingPop1 => true
  | _ => false

/-- An idle H step, but for the word `v` the read returns. -/
def idleReturning (s : State) (v : Word) : State := { hIdle s with hostOut := some v }

/-- An idle H step, but for a parameter write of `p` (R165). -/
def idleWriting (s : State) (p : ParamSet) : State :=
  { hIdle s with h := { (hIdle s).h with shadow := p, changed := true, dirty := true } }

/-- No register outside the H domain and `K` changes (R318); the environment's fields stay. -/
def OnlyHChanges (s t : State) : Prop :=
  t.cfg = s.cfg ∧ t.a = s.a ∧ t.mem = s.mem ∧ t.pending = s.pending ∧ t.capture = s.capture ∧ t.tick = s.tick ∧
    t.audioOut = s.audioOut

/-- No register outside the A domain, the slot memory and `K` changes (R318); the environment's fields stay. -/
def OnlyAChanges (s t : State) : Prop :=
  t.cfg = s.cfg ∧ t.h = s.h ∧ t.pending = s.pending ∧ t.capture = s.capture ∧ t.tick = s.tick ∧ t.hostOut = s.hostOut

/-- R312 to R315 for an H step from `s` to `t`; `pw` says the operation is a parameter write. -/
def HBackground (s t : State) (pw : Bool) : Prop :=
  (∀ ch, Shifted (captured (s.k.wgray.get ch) (s.capture.wgray.get ch) (s.a.lane.get ch).wgray)
      (s.h.ring.get ch).ws (t.h.ring.get ch).ws) ∧
  Shifted (captured s.k.aTog s.capture.aTog s.a.aTog) s.h.ackS t.h.ackS ∧
  Shifted (captured s.k.cfgErr s.capture.cfgErr s.a.cfgErr) s.h.cfgerrS t.h.cfgerrS ∧
  Shifted (captured s.k.accErr s.capture.accErr s.a.accErr) s.h.accerrS t.h.accerrS ∧
  (if s.h.dirty = true ∧ s.h.mbTog = s.h.ackS.getLastD false then
    t.h.mb = s.h.shadow ∧ t.h.mbTog = !s.h.mbTog ∧ t.h.dirty = pw
  else t.h.mb = s.h.mb ∧ t.h.mbTog = s.h.mbTog ∧ t.h.dirty = (s.h.dirty || pw))

/-- R316 and R317 for an A step from `s` to `t`. -/
def ABackground (s t : State) : Prop :=
  (∀ ch, Shifted (captured (s.k.rgray.get ch) (s.capture.rgray.get ch) (s.h.ring.get ch).rgray)
      (s.a.lane.get ch).rs (t.a.lane.get ch).rs) ∧
  Shifted (captured s.k.mbTog s.capture.mbTog s.h.mbTog) s.a.togS t.a.togS ∧
  (if s.a.togS.getLastD false ≠ s.a.aTog then t.a.live = s.h.mb ∧ t.a.aTog = s.a.togS.getLastD false
  else t.a.live = s.a.live ∧ t.a.aTog = s.a.aTog)

/-- The registers that hold a block's configuration are the same in both (R222). -/
def SameConfiguration (a b : ADomain) : Prop :=
  a.snap = b.snap ∧ a.fs = b.fs ∧ a.coef = b.coef ∧ a.enLc = b.enLc ∧ a.enHc = b.enHc ∧ a.bypLc = b.bypLc ∧
    a.bypPk = b.bypPk ∧ a.bypHc = b.bypHc

/-- An edge of the H clock. -/
def isHostEdge : Edge → Bool
  | .host _ _ => true
  | .audio _ _ | .reset => false

/-- An edge that neither pops ring `ch` nor resets. -/
def harmlessTo (ch : Chan) : Edge → Bool
  | .host (some w) _ => decide (decodeHost w ≠ popOp ch)
  | .host none _ | .audio _ _ => true
  | .reset => false

/-- The infinity of a sign; `true` is negative. -/
def infinity (neg : Bool) : F32 := if neg then 0xFF800000#32 else 0x7F800000#32

/-- The zero of a sign. -/
def signedZero (neg : Bool) : F32 := if neg then 0x80000000#32 else 0x00000000#32

/-- Channel `ch` can complete its block only with a readable read pointer. -/
def PushReadable (s : State) : Prop := ∀ ch, completes s ch = true → (rsync s ch).isSome = true

/-- A FRAME in `s` pushes channel `ch`'s completed block: the producer does not see the ring full (R262, R263). -/
def Pushes (s : State) (ch : Chan) : Prop :=
  completes s ch = true ∧ ∃ r : Fin 60, rsync s ch = some r ∧ ((s.a.lane.get ch).wbin.val + 60 - r.val) % 60 ≠ 30

/-- Stage index j = 0..8 of R45. -/
def stageAt (j : Fin 9) : Stage :=
  if h : j.val < 4 then .lc ⟨j.val, h⟩
  else if h : 4 < j.val then .hc ⟨j.val - 5, by omega⟩
  else .pk

end Sys2Proof.Claims

open Sys2Proof Sys2Proof.Machine Sys2Proof.Claims

/-! ## Reset, stepping, decoding -/

/-- R34, R56: the value of every register after reset, for every choice of the OPEN parameters. The environment's fields
and the two port outputs are the model's own (log entries 1, 2, 3, 9) and are not claimed. -/
def Obligations.ResetLeavesEverySpecifiedValue : Prop :=
  ∀ p : Config.Params,
    let s := State.resetWith p
    let d : ParamSet := ⟨0x443B8000#32, 0x00000000#32, 0x3F800000#32, 0x41A00000#32, 0x469C4000#32, 0#2, 0#2,
      false, false, false⟩
    s.h.shadow = d ∧ s.h.mb = d ∧ s.a.live = d ∧ s.a.snap = d ∧
    s.h.dirty = false ∧ s.h.mbTog = false ∧ s.a.aTog = false ∧ s.h.changed = true ∧
    s.h.ackS = List.replicate p.nSync false ∧ s.a.togS = List.replicate p.nSync false ∧
    s.h.cfgerrS = List.replicate p.nSync false ∧ s.h.accerrS = List.replicate p.nSync false ∧
    s.a.cfgErr = false ∧ s.a.accErr = false ∧ s.a.fs = 0x00000000#32 ∧
    (∀ ch, (s.h.ring.get ch).rbin = 0 ∧ (s.a.lane.get ch).wbin = 0 ∧ (s.h.ring.get ch).rgray = 0x03#6 ∧
      (s.a.lane.get ch).wgray = 0x03#6 ∧ (s.h.ring.get ch).ws = List.replicate p.nSync 0x03#6 ∧
      (s.a.lane.get ch).rs = List.replicate p.nSync 0x03#6 ∧ (s.a.lane.get ch).prep = false ∧
      (s.a.lane.get ch).bsz = 0#13 ∧ (s.a.lane.get ch).cur = 0#13) ∧
    (∀ j, s.a.coef.get j = ⟨0x3F800000#32, 0#32, 0#32, 0#32, 0#32⟩) ∧
    (∀ ch j, (s.a.lane.get ch).st.get j = ⟨0#32, 0#32⟩) ∧
    (∀ k, s.a.enLc.get k = false ∧ s.a.enHc.get k = false) ∧
    s.a.bypLc = false ∧ s.a.bypHc = false ∧ s.a.bypPk = true ∧
    (∀ ch, s.k.wgray.get ch = ⟨0x03#6, false⟩ ∧ s.k.rgray.get ch = ⟨0x03#6, false⟩) ∧
    s.k.mbTog = ⟨false, false⟩ ∧ s.k.aTog = ⟨false, false⟩ ∧ s.k.cfgErr = ⟨false, false⟩ ∧ s.k.accErr = ⟨false, false⟩

/-- A HOSTBUS or AUDIO word runs the operation it decodes to, an idle H edge the background alone, a reset gives the
reset values (R120, R160, R206, R310, R370). The frame around that is the model's choice and no rule of the spec: a step
takes the first event of a list (log entry 1); the edge's captures go into `capture` (log entry 3) and each step counts in
`tick` (log entry 2); a reset is one event, which keeps `cfg` and the events still presented (log entry 10); with nothing
presented, which domain ticks and what it captures are free, either an idle H edge or a NOP (log entry 2). -/
def Obligations.StepRunsThePresentedOperation : Prop :=
  ∀ s : State,
    (∀ w c rest, s.pending = .host (some w) c :: rest →
      step s = exec (decodeHost w) { s with pending := rest, capture := c, tick := s.tick + 1 }) ∧
    (∀ c rest, s.pending = .host none c :: rest →
      step s = .next (hIdle { s with pending := rest, capture := c, tick := s.tick + 1 })) ∧
    (∀ w c rest, s.pending = .audio w c :: rest →
      step s = exec (decodeAudio w) { s with pending := rest, capture := c, tick := s.tick + 1 }) ∧
    (∀ rest, s.pending = .reset :: rest →
      step s = .next { State.resetWith s.cfg with pending := rest, tick := s.tick + 1 }) ∧
    (s.pending = [] → ∃ c : Config.Capture,
      step s = .next (hIdle { s with pending := [], capture := c, tick := s.tick + 1 }) ∨
      step s = exec .nop { s with pending := [], capture := c, tick := s.tick + 1 })

/-- The encoding vectors of 95_test_vectors section 2, and one word of each other family, decode to the operation they
stand for. -/
def Obligations.SpecWordsDecodeAsListed : Prop :=
  decodeHost 0x0000000000000000#64 = .rdId ∧ decodeHost 0x0000000800000000#64 = .rdStatus ∧
  decodeHost 0x8000010C42C80000#64 = .wrLcFreq 0x42C80000#32 ∧ decodeHost 0x8000011400000001#64 = .wrSlope 0x00000001#32 ∧
  decodeHost 0x0000400C00000000#64 = .rdRingWin0 3#12 ∧ decodeHost 0x0000800000000000#64 = .rdRingWin1 0#12 ∧
  decodeHost 0x0000000300000000#64 = .rdId ∧ decodeHost 0x0000C00000000000#64 = .rdRsv 0x3000#14 ∧
  decodeHost 0x8000000000000007#64 = .wrRoId 7#32 ∧ decodeHost 0x7FFF000000000000#64 = .rdId ∧
  decodeHost 0x0000012400000000#64 = .rdChgTac ∧ decodeHost 0x0000022800000000#64 = .rdRingPop1 ∧
  decodeHost 0x0000020400000000#64 = .rdRingHlen0 ∧ decodeHost 0x8000011C00000005#64 = .wrRsv 0x0047#14 5#32 ∧
  decodeAudio 0x000000000000000000#72 = .nop ∧ decodeAudio 0x100000000400000003#72 = .prepare 4#32 3#2 ∧
  decodeAudio 0x20473B800000000000#72 = .blockStart 0x473B8000#32 ∧
  decodeAudio 0x303F800000BF800000#72 = .frame 0x3F800000#32 0xBF800000#32 ∧
  decodeAudio 0x703F80000040000000#72 = .rsvKind7

/-- Decoding the encoding of any well-formed operation gives it back, with every operand (R121 to R124, R126). -/
def Obligations.DecodeInvertsEncode : Prop := ∀ i : Instr, i.wellFormed = true → decode (encode i) = i

/-- R128: the reserved bits of both formats, ADDR[1:0], the ignored operand bits of PREPARE and BLOCK_START and the
unimplemented data bits of SLOPE, BYPASS and read-only writes do not matter; every other register write uses all of D. -/
def Obligations.ReservedBitsAreIgnored : Prop :=
  (∀ w : BitVec 64, decodeHost w = decodeHost (w &&& 0x8000FFFCFFFFFFFF#64)) ∧
  (∀ w : BitVec 72, decodeAudio w = decodeAudio (w &&& 0xF0FFFFFFFFFFFFFFFF#72)) ∧
  (∀ w : BitVec 72, audioKind w = 1#4 → decodeAudio w = decodeAudio (w &&& 0xF0FFFFFFFF00000003#72)) ∧
  (∀ w : BitVec 72, audioKind w = 2#4 → decodeAudio w = decodeAudio (w &&& 0xF0FFFFFFFF00000000#72)) ∧
  (∀ w : BitVec 64, hostW w = 0#1 → decodeHost w = decodeHost (w &&& 0x8000FFFC00000000#64)) ∧
  (∀ (d : Word) (s : State), exec (.wrSlope d) s = exec (.wrSlope (d &&& 0x00000303#32)) s) ∧
  (∀ (d : Word) (s : State), exec (.wrBypass d) s = exec (.wrBypass (d &&& 0x00000007#32)) s) ∧
  (∀ (w : BitVec 64) (s : State), isIgnoredWrite (decodeHost w) = true →
    exec (decodeHost w) s = exec (decodeHost (w &&& 0x8000FFFC00000000#64)) s)

/-- R82, R125: the register map is exact. A word address selects a register exactly when it is that register's address,
and selects none exactly when R82 reserves it; so every HOSTBUS word is exactly one well-formed operation of the H
domain, and every AUDIO word one of the A domain. -/
def Obligations.EveryWordIsExactlyOneOperation : Prop :=
  (∀ (a : BitVec 14) (r : HostReg), hostRegAt a = some r ↔ r.addr = a ++ 0#2) ∧
  (∀ a : BitVec 14, hostRegAt a = none ↔ reservedAddr a = true) ∧
  (∀ w : BitVec 64, (decodeHost w).wellFormed = true ∧ (decodeHost w).isHost = true) ∧
  (∀ w : BitVec 72, (decodeAudio w).wellFormed = true ∧ (decodeAudio w).isHost = false)

/-! ## Host registers -/

/-- R161, R182: RD.ID returns the constant, a reserved read 0; neither does anything else. -/
def Obligations.IdAndReservedReadsReturnConstants : Prop :=
  ∀ s : State, exec .rdId s = .next (idleReturning s 0x59544251#32) ∧
    ∀ a, exec (.rdRsv a) s = .next (idleReturning s 0x00000000#32)

/-- R162: every field of CAPS, other bits 0, and no side effect. -/
def Obligations.CapsReportsTheParameters : Prop :=
  ∀ s : State, ∃ v : Word, exec .rdCaps s = .next (idleReturning s v) ∧
    v.extractLsb' 28 4 = BitVec.ofNat 4 (min s.cfg.nSync 15) ∧ v.extractLsb' 24 4 = 4#4 ∧ v.extractLsb' 21 3 = 0#3 ∧
    v.extractLsb' 16 5 = 30#5 ∧ v.extractLsb' 13 3 = 0#3 ∧ v.extractLsb' 0 13 = BitVec.ofNat 13 s.cfg.blkMax

/-- R163, R319: STATUS shows PARAM_PENDING, ACC_ERR and CFG_ERR as synchronised, other bits 0, and no side effect. -/
def Obligations.StatusReportsPendingAndErrors : Prop :=
  ∀ s : State, ∃ v : Word, exec .rdStatus s = .next (idleReturning s v) ∧
    v.getLsbD 8 = (s.h.dirty || (s.h.mbTog != s.h.ackS.getLastD false)) ∧
    v.getLsbD 1 = s.h.accerrS.getLastD false ∧ v.getLsbD 0 = s.h.cfgerrS.getLastD false ∧
    v &&& 0xFFFFFEFC#32 = 0#32

/-- R167, R169, R171, R173, R175, R177, R179: the parameter reads return the store and have no side effect. -/
def Obligations.ParameterReadsReturnTheStore : Prop :=
  ∀ s : State,
    exec .rdPkFreq s = .next (idleReturning s s.h.shadow.pkFreq) ∧
    exec .rdPkGain s = .next (idleReturning s s.h.shadow.pkGain) ∧
    exec .rdPkQ s = .next (idleReturning s s.h.shadow.pkQ) ∧
    exec .rdLcFreq s = .next (idleReturning s s.h.shadow.lcFreq) ∧
    exec .rdHcFreq s = .next (idleReturning s s.h.shadow.hcFreq) ∧
    (∃ v : Word, exec .rdSlope s = .next (idleReturning s v) ∧ v.extractLsb' 8 2 = s.h.shadow.hcSlope ∧
      v.extractLsb' 0 2 = s.h.shadow.lcSlope ∧ v &&& 0xFFFFFCFC#32 = 0#32) ∧
    (∃ v : Word, exec .rdBypass s = .next (idleReturning s v) ∧ v.getLsbD 2 = s.h.shadow.hcByp ∧
      v.getLsbD 1 = s.h.shadow.pkByp ∧ v.getLsbD 0 = s.h.shadow.lcByp ∧ v &&& 0xFFFFFFF8#32 = 0#32)

/-- R165, R166, R168, R170, R172, R174, R176, R178: a parameter write completes in every state; it writes its own fields
of the store, sets `H.changed` and `H.dirty`, returns nothing, and does nothing else an idle H step does not do. -/
def Obligations.ParameterWritesUpdateTheStore : Prop :=
  ∀ (d : Word) (s : State),
    exec (.wrPkFreq d) s = .next (idleWriting s { s.h.shadow with pkFreq := d }) ∧
    exec (.wrPkGain d) s = .next (idleWriting s { s.h.shadow with pkGain := d }) ∧
    exec (.wrPkQ d) s = .next (idleWriting s { s.h.shadow with pkQ := d }) ∧
    exec (.wrLcFreq d) s = .next (idleWriting s { s.h.shadow with lcFreq := d }) ∧
    exec (.wrHcFreq d) s = .next (idleWriting s { s.h.shadow with hcFreq := d }) ∧
    exec (.wrSlope d) s = .next (idleWriting s
      { s.h.shadow with lcSlope := d.extractLsb' 0 2, hcSlope := d.extractLsb' 8 2 }) ∧
    exec (.wrBypass d) s = .next (idleWriting s
      { s.h.shadow with lcByp := d.getLsbD 0, pkByp := d.getLsbD 1, hcByp := d.getLsbD 2 })

/-- R90, R394: a parameter register read at the step after a write returns what its implemented bits were written
with. -/
def Obligations.ParameterReadsSeeEarlierWrites : Prop :=
  ∀ (d : Word) (s : State),
    (∃ t u, exec (.wrPkFreq d) s = .next t ∧ exec .rdPkFreq t = .next u ∧ u.hostOut = some d) ∧
    (∃ t u, exec (.wrPkGain d) s = .next t ∧ exec .rdPkGain t = .next u ∧ u.hostOut = some d) ∧
    (∃ t u, exec (.wrPkQ d) s = .next t ∧ exec .rdPkQ t = .next u ∧ u.hostOut = some d) ∧
    (∃ t u, exec (.wrLcFreq d) s = .next t ∧ exec .rdLcFreq t = .next u ∧ u.hostOut = some d) ∧
    (∃ t u, exec (.wrHcFreq d) s = .next t ∧ exec .rdHcFreq t = .next u ∧ u.hostOut = some d) ∧
    (∃ t u, exec (.wrSlope d) s = .next t ∧ exec .rdSlope t = .next u ∧ u.hostOut = some (d &&& 0x00000303#32)) ∧
    (∃ t u, exec (.wrBypass d) s = .next t ∧ exec .rdBypass t = .next u ∧ u.hostOut = some (d &&& 0x00000007#32))

/-- R180, R181: CHG_PEEK returns the flag and leaves it; CHG_TAC returns it and clears it. -/
def Obligations.ChangedFlagIsPeekedAndCleared : Prop :=
  ∀ s : State,
    exec .rdChgPeek s = .next (idleReturning s (if s.h.changed then 1#32 else 0#32)) ∧
    exec .rdChgTac s = .next { idleReturning s (if s.h.changed then 1#32 else 0#32) with
      h := { (hIdle s).h with changed := false } }

/-- R164, R183: writes to read-only and reserved addresses complete and are idle H steps. -/
def Obligations.ReadOnlyAndReservedWritesDoNothing : Prop :=
  ∀ (i : Instr) (s : State), isIgnoredWrite i = true → exec i s = .next (hIdle s)

/-- R88: a read other than CHG_TAC and RING_POP that completes is an idle H step but for the word it returns; the reads
with a side effect change, beyond an idle H step, only `H.changed`, or `H.rbin` and `H.rgray` of their channel with the
bookkeeping of that code. -/
def Obligations.OnlyTacAndPopReadsHaveSideEffects : Prop :=
  ∀ (i : Instr) (s t : State), isRead i = true → exec i s = .next t →
    ∃ v : Word, t.hostOut = some v ∧
      (isSideEffectRead i = false → t = idleReturning s v) ∧
      (i = .rdChgTac → t = { idleReturning s v with h := { (hIdle s).h with changed := false } }) ∧
      (∀ ch, i = popOp ch → ∃ rb rg kx,
        t = { idleReturning s v with
          h := { (hIdle s).h with
            ring := (hIdle s).h.ring.set ch (⟨rb, rg, ((hIdle s).h.ring.get ch).ws⟩ : ReadSide) },
          k := { (hIdle s).k with rgray := (hIdle s).k.rgray.set ch kx } })

/-! ## Rings, consumer side -/

/-- R260: the code of a pointer decodes to it, neighbouring pointers (59 and 0 included) have codes that differ in
exactly one bit, and exactly the four values 0x00, 0x01, 0x20, 0x21 are codes of no pointer. -/
def Obligations.GrayCodeChangesOneBit : Prop :=
  (∀ p : Fin 60, g60inv (g60 p) = some p) ∧
  (∀ p : Fin 60, ∃ i : Fin 6, g60 p ^^^ g60 ⟨(p.val + 1) % 60, Nat.mod_lt _ (by decide)⟩ = BitVec.ofNat 6 (2 ^ i.val)) ∧
  (∀ g : BitVec 6, g60inv g = none ↔ g = 0x00#6 ∨ g = 0x01#6 ∨ g = 0x20#6 ∨ g = 0x21#6) ∧
  (∀ p : Fin 60, (g60 p).toNat = (p.val + 2) ^^^ ((p.val + 2) >>> 1))

/-- R261: `inc`, `dist` and `slot`: `dist(a, b)` is in 0..59 and that many advances lead from b to a. -/
def Obligations.PointerArithmeticIsModularSixty : Prop :=
  ∀ a b : Fin 60, (inc a).val = (a.val + 1) % 60 ∧ slotOf a = a.val % 30 ∧ ptrDist a b < 60 ∧
    (ptrDist a b : Int) = ((a.val : Int) - b.val) % 60 ∧ advance b (ptrDist a b) = a

/-- R264, R265: RING_STAT of a readable ring completes, returns EMPTY and LEVEL, and has no side effect. -/
def Obligations.RingStatReportsLevelAndEmpty : Prop :=
  ∀ (ch : Chan) (s : State) (w : Fin 60), wsync s ch = some w →
    ∃ v : Word, exec (statOp ch) s = .next (idleReturning s v) ∧
      (v.extractLsb' 0 6).toNat = (w.val + 60 - (s.h.ring.get ch).rbin.val) % 60 ∧
      (v.getLsbD 8 = true ↔ w = (s.h.ring.get ch).rbin) ∧ v &&& 0xFFFFFEC0#32 = 0#32

/-- R266: RING_HLEN of a readable ring completes: 0 when EMPTY, else the head's length tag; no side effect. -/
def Obligations.RingHlenReturnsTheHeadTag : Prop :=
  ∀ (ch : Chan) (s : State) (w : Fin 60), wsync s ch = some w →
    (w = (s.h.ring.get ch).rbin → exec (hlenOp ch) s = .next (idleReturning s 0#32)) ∧
    (w ≠ (s.h.ring.get ch).rbin → ∃ v : Word, exec (hlenOp ch) s = .next (idleReturning s v) ∧
      v.toNat = (slotTag s.mem (slotKey ch (s.h.ring.get ch).rbin)).toNat)

/-- R267: RING_WIN of a readable ring completes: 0 when EMPTY or at and beyond the head's length, else the head's word;
no side effect. -/
def Obligations.RingWindowReturnsTheHeadWords : Prop :=
  ∀ (ch : Chan) (i : BitVec 12) (s : State) (w : Fin 60), wsync s ch = some w →
    let key := slotKey ch (s.h.ring.get ch).rbin
    (w = (s.h.ring.get ch).rbin ∨ (slotTag s.mem key).toNat ≤ i.toNat →
      exec (winOp ch i) s = .next (idleReturning s 0#32)) ∧
    (w ≠ (s.h.ring.get ch).rbin ∧ i.toNat < (slotTag s.mem key).toNat →
      exec (winOp ch i) s = .next (idleReturning s (slotWord s.mem key i.toNat)))

/-- R268: RING_POP of a readable ring completes: on an empty ring it returns 0 and changes nothing; else the channel's
read pointer and its code advance and it returns 1. The other channel, the store, the flag, the A domain and the slot
memory stay. -/
def Obligations.RingPopAdvancesTheReadPointer : Prop :=
  ∀ (ch : Chan) (s : State) (w : Fin 60), wsync s ch = some w →
    (w = (s.h.ring.get ch).rbin → exec (popOp ch) s = .next (idleReturning s 0#32)) ∧
    (w ≠ (s.h.ring.get ch).rbin → ∃ t : State, exec (popOp ch) s = .next t ∧ t.hostOut = some 1#32 ∧
      (t.h.ring.get ch).rbin.val = ((s.h.ring.get ch).rbin.val + 1) % 60 ∧
      (t.h.ring.get ch).rgray = g60 (t.h.ring.get ch).rbin ∧
      (∀ d, d ≠ ch → (t.h.ring.get d).rbin = (s.h.ring.get d).rbin ∧ (t.h.ring.get d).rgray = (s.h.ring.get d).rgray) ∧
      t.h.shadow = s.h.shadow ∧ t.h.changed = s.h.changed ∧ OnlyHChanges s t)

/-- 93_implementation_defined U10: the ring reads, and a FRAME that completes a block, stop with the model's fault exactly
when the synchronised pointer they need is no code. That the model stops there at all, and that a FRAME names the left
channel when both hold no code, is the model's choice (log entry 8): U10 allows the fault, no rule asks for it. -/
def Obligations.NonCodePointersFault : Prop :=
  (∀ (ch : Chan) (s : State) (f : Fault),
    (exec (statOp ch) s = .fault f ↔ f = .writePointerNotCode ch ∧ wsync s ch = none) ∧
    (exec (hlenOp ch) s = .fault f ↔ f = .writePointerNotCode ch ∧ wsync s ch = none) ∧
    (exec (popOp ch) s = .fault f ↔ f = .writePointerNotCode ch ∧ wsync s ch = none) ∧
    ∀ i, (exec (winOp ch i) s = .fault f ↔ f = .writePointerNotCode ch ∧ wsync s ch = none)) ∧
  (∀ (x0 x1 : F32) (s : State) (f : Fault), exec (.frame x0 x1) s = .fault f ↔
    (f = .readPointerNotCode .left ∧ completes s .left = true ∧ rsync s .left = none) ∨
    (f = .readPointerNotCode .right ∧ completes s .right = true ∧ rsync s .right = none ∧
      (completes s .left = true → rsync s .left ≠ none)))

/-! ## Background logic of the steps -/

/-- R312, R313, R314, R315: the synchronisers, the mailbox transfer and the dirty bit, for every HOSTBUS operation that
completes and for an idle H step, which also keeps the registers operations write. -/
def Obligations.HostStepRunsTheBackground : Prop :=
  (∀ (i : Instr) (s t : State), i.isHost = true → exec i s = .next t → HBackground s t (isParamWrite i)) ∧
  (∀ s : State, HBackground s (hIdle s) false ∧ OnlyHChanges s (hIdle s) ∧ (hIdle s).hostOut = none ∧
    (hIdle s).h.shadow = s.h.shadow ∧ (hIdle s).h.changed = s.h.changed ∧
    ∀ ch, ((hIdle s).h.ring.get ch).rbin = (s.h.ring.get ch).rbin ∧
      ((hIdle s).h.ring.get ch).rgray = (s.h.ring.get ch).rgray)

/-- R316, R317: the read-pointer and toggle synchronisers and the mailbox acceptance, for every AUDIO operation that
completes. -/
def Obligations.AudioStepRunsTheBackground : Prop :=
  ∀ (i : Instr) (s t : State), i.isHost = false → exec i s = .next t → ABackground s t

/-- R321: the bookkeeping of all six kinds of source, for every operation that completes. -/
def Obligations.CrossingsAreTrackedAndConsumed : Prop :=
  ∀ (i : Instr) (s t : State), exec i s = .next t →
    (i.isHost = true →
      (∀ ch, Consumed (s.k.wgray.get ch) (t.k.wgray.get ch)) ∧ Consumed s.k.aTog t.k.aTog ∧
      Consumed s.k.cfgErr t.k.cfgErr ∧ Consumed s.k.accErr t.k.accErr ∧
      (∀ ch, Tracked (s.k.rgray.get ch) (t.k.rgray.get ch) (s.h.ring.get ch).rgray (t.h.ring.get ch).rgray) ∧
      Tracked s.k.mbTog t.k.mbTog s.h.mbTog t.h.mbTog) ∧
    (i.isHost = false →
      (∀ ch, Consumed (s.k.rgray.get ch) (t.k.rgray.get ch)) ∧ Consumed s.k.mbTog t.k.mbTog ∧
      (∀ ch, Tracked (s.k.wgray.get ch) (t.k.wgray.get ch) (s.a.lane.get ch).wgray (t.a.lane.get ch).wgray) ∧
      Tracked s.k.aTog t.k.aTog s.a.aTog t.a.aTog ∧ Tracked s.k.cfgErr t.k.cfgErr s.a.cfgErr t.a.cfgErr ∧
      Tracked s.k.accErr t.k.accErr s.a.accErr t.a.accErr)

/-- R318: an operation of one domain writes only that domain's registers, the slot memory (A only) and `K`. -/
def Obligations.OperationsWriteOnlyTheirDomain : Prop :=
  ∀ (i : Instr) (s t : State), exec i s = .next t →
    (i.isHost = true → OnlyHChanges s t) ∧ (i.isHost = false → OnlyAChanges s t)

/-- R322, first half: counting H steps alone, a pushed write pointer is in every flip-flop of the consumer's synchroniser
after N_SYNC + 1 of them, whatever the captures resolve to, whatever words the H edges carry and whatever A edges come in
between, if none of these pushes on the channel and no reset comes. With idle H edges alone such a run exists. -/
def Obligations.WritePointerCrossesInBoundedSteps : Prop :=
  (∀ (ch : Chan) (s t : State) (n : Nat),
    (s.h.ring.get ch).ws.length = s.cfg.nSync → Host.Core.run Sys2Proof.core n s = .next t →
    Edge.reset ∉ s.pending.take n → s.cfg.nSync + 1 ≤ ((s.pending.take n).filter isHostEdge).length →
    (∀ (m : Nat) (u : State), m ≤ n → Host.Core.run Sys2Proof.core m s = .next u →
      (u.a.lane.get ch).wgray = (s.a.lane.get ch).wgray) →
    (t.h.ring.get ch).ws = List.replicate s.cfg.nSync (s.a.lane.get ch).wgray) ∧
  (∀ (ch : Chan) (s : State) (caps : List Config.Capture) (rest : List Edge),
    (s.h.ring.get ch).ws.length = s.cfg.nSync → caps.length = s.cfg.nSync + 1 →
    s.pending = caps.map (Edge.host none) ++ rest →
    ∃ t : State, Host.Core.run Sys2Proof.core (s.cfg.nSync + 1) s = .next t ∧
      (t.h.ring.get ch).ws = List.replicate s.cfg.nSync (s.a.lane.get ch).wgray)

/-! ## Audio operations -/

/-- R207: NOP and every reserved kind complete and write nothing beyond the A background: all A registers but the
synchronisers, the toggle and the live set stay, the slot memory stays, nothing is returned. -/
def Obligations.NopAndReservedKindsWriteNothing : Prop :=
  ∀ (i : Instr) (s : State), isNop i = true →
    ∃ t : State, exec i s = .next t ∧ OnlyAChanges s t ∧ t.mem = s.mem ∧ t.audioOut = none ∧
      SameConfiguration t.a s.a ∧ t.a.cfgErr = s.a.cfgErr ∧ t.a.accErr = s.a.accErr ∧
      ∀ ch, t.a.lane.get ch = { s.a.lane.get ch with rs := (t.a.lane.get ch).rs }

/-- R208: PREPARE completes in every state. A selected channel takes a valid length and returns its cursor to 0, or is
left unprepared by an invalid one, which sets `A.acc_err`; nothing else changes. -/
def Obligations.PrepareSelectsTheBlockLength : Prop :=
  ∀ (n : Word) (m : BitVec 2) (s : State), s.cfg.wf = true →
    ∃ t : State, exec (.prepare n m) s = .next t ∧ OnlyAChanges s t ∧ t.mem = s.mem ∧ t.audioOut = none ∧
      SameConfiguration t.a s.a ∧ t.a.cfgErr = s.a.cfgErr ∧
      (∀ ch, ∃ l' : Lane, l' = t.a.lane.get ch ∧
        (m.getLsbD ch.index = false → l' = { s.a.lane.get ch with rs := l'.rs }) ∧
        (m.getLsbD ch.index = true →
          l' = { s.a.lane.get ch with rs := l'.rs, prep := l'.prep, bsz := l'.bsz, cur := 0#13 } ∧
          (1 ≤ n.toNat ∧ n.toNat ≤ s.cfg.blkMax → l'.prep = true ∧ l'.bsz.toNat = n.toNat) ∧
          (¬(1 ≤ n.toNat ∧ n.toNat ≤ s.cfg.blkMax) → l'.prep = false ∧ l'.bsz = 0#13))) ∧
      (t.a.accErr = true ↔ s.a.accErr = true ∨ (m ≠ 0#2 ∧ ¬(1 ≤ n.toNat ∧ n.toNat ≤ s.cfg.blkMax)))

/-- R212: BLOCK_START completes in every state: it snapshots the pre-step live set, reloads the coefficients of the
stages up to each ordinal and the peak stage, sets enables and bypass flags, and sets `A.cfg_err` outside the contract.
Stage states, accumulators, ring pointers, `A.acc_err` and the slot memory stay. -/
def Obligations.BlockStartReloadsTheConfiguration : Prop :=
  ∀ (fs : F32) (s : State), ∃ t : State, exec (.blockStart fs) s = .next t ∧ OnlyAChanges s t ∧ t.mem = s.mem ∧
    t.audioOut = none ∧ t.a.snap = s.a.live ∧ t.a.fs = fs ∧
    (∀ k : Fin 4, t.a.enLc.get k = decide (k.val ≤ s.a.live.lcSlope.toNat) ∧
      t.a.enHc.get k = decide (k.val ≤ s.a.live.hcSlope.toNat) ∧
      t.a.coef.get (.lc k) = (if k.val ≤ s.a.live.lcSlope.toNat
        then Config.lowCutDesign fs s.a.live.lcFreq s.a.live.lcSlope k else s.a.coef.get (.lc k)) ∧
      t.a.coef.get (.hc k) = (if k.val ≤ s.a.live.hcSlope.toNat
        then Config.highCutDesign fs s.a.live.hcFreq s.a.live.hcSlope k else s.a.coef.get (.hc k))) ∧
    t.a.coef.get .pk = Config.peakDesign fs s.a.live.pkFreq s.a.live.pkQ s.a.live.pkGain ∧
    t.a.bypLc = s.a.live.lcByp ∧ t.a.bypPk = s.a.live.pkByp ∧ t.a.bypHc = s.a.live.hcByp ∧
    t.a.cfgErr = (s.a.cfgErr || !validConfig s.a.live fs) ∧ t.a.accErr = s.a.accErr ∧
    ∀ ch, t.a.lane.get ch = { s.a.lane.get ch with rs := (t.a.lane.get ch).rs }

/-- R213, R54: after BLOCK_START exactly the N + 1 lowest stages of each cut bank are enabled, whether the bank is bypassed
or not, and a stage is active when it is enabled and its section is not bypassed. -/
def Obligations.SlopePolicyActivatesLowestStages : Prop :=
  ∀ (fs : F32) (s t : State), exec (.blockStart fs) s = .next t →
    (∀ k : Fin 4, t.a.enLc.get k = decide (k.val ≤ s.a.live.lcSlope.toNat) ∧
      t.a.enHc.get k = decide (k.val ≤ s.a.live.hcSlope.toNat)) ∧
    ((List.finRange 4).filter (fun k => t.a.enLc.get k)).length = s.a.live.lcSlope.toNat + 1 ∧
    ((List.finRange 4).filter (fun k => t.a.enHc.get k)).length = s.a.live.hcSlope.toNat + 1 ∧
    (∀ k : Fin 4, act t.a (.lc k) = (decide (k.val ≤ s.a.live.lcSlope.toNat) && !s.a.live.lcByp) ∧
      act t.a (.hc k) = (decide (k.val ≤ s.a.live.hcSlope.toNat) && !s.a.live.hcByp)) ∧
    act t.a .pk = !s.a.live.pkByp

/-- R220: the input contract on the real values of the operands. -/
def Obligations.InputContractComparesRealValues : Prop :=
  ∀ (p : ParamSet) (fs : F32), validConfig p fs = true ↔
    (fFinite fs = true ∧ 0 < f32Value fs) ∧
    (∀ f ∈ [p.pkFreq, p.lcFreq, p.hcFreq],
      fFinite f = true ∧ 20 ≤ f32Value f ∧ f32Value f ≤ 20000 ∧ 2 * f32Value f < f32Value fs) ∧
    (fFinite p.pkQ = true ∧ 0 < f32Value p.pkQ) ∧ fFinite p.pkGain = true

/-- R203: the chain is the loop over j = 0..8 in order, an active stage filtering and updating its own state. -/
def Obligations.ChainLoopsOverTheNineStages : Prop :=
  ∀ (a : ADomain) (ch : Chan) (x : F32),
    chain a ch x = (List.finRange 9).foldl (fun (v : F32 × Stages StageState) j =>
      if act a (stageAt j) = true then
        ((biquad (a.coef.get (stageAt j)) (v.2.get (stageAt j)) v.1).1,
         v.2.set (stageAt j) (biquad (a.coef.get (stageAt j)) (v.2.get (stageAt j)) v.1).2)
      else v) (x, (a.lane.get ch).st)

/-- R201: with one stage active the chain is that stage's biquad step in transposed direct form II, and only its state
changes. -/
def Obligations.ActiveStageIsTransposedDirectFormTwo : Prop :=
  ∀ (a : ADomain) (ch : Chan) (x : F32) (j : Stage), (∀ i, act a i = true ↔ i = j) →
    let c := a.coef.get j
    let st := (a.lane.get ch).st.get j
    let y := fadd (fmul c.b0 x) st.s1
    (chain a ch x).1 = y ∧
    (chain a ch x).2.get j = ⟨fadd (fsub (fmul c.b1 x) (fmul c.a1 y)) st.s2, fsub (fmul c.b2 x) (fmul c.a2 y)⟩ ∧
    ∀ i, i ≠ j → (chain a ch x).2.get i = (a.lane.get ch).st.get i

/-- R209, R211: a FRAME whose pushes can read their pointer completes: it returns the chain outputs of both channels,
leaves the chain's stage states, sets `A.acc_err` exactly when a channel is unprepared, and keeps the block's
configuration, the block lengths and `A.cfg_err`. -/
def Obligations.FrameReturnsTheChainOutputs : Prop :=
  ∀ (x0 x1 : F32) (s : State), PushReadable s →
    ∃ t : State, exec (.frame x0 x1) s = .next t ∧ OnlyAChanges s t ∧
      t.audioOut = some ((chain s.a .left x0).1, (chain s.a .right x1).1) ∧
      SameConfiguration t.a s.a ∧ t.a.cfgErr = s.a.cfgErr ∧
      t.a.accErr = (s.a.accErr || !(s.a.lane.get .left).prep || !(s.a.lane.get .right).prep) ∧
      ∀ ch, (t.a.lane.get ch).st = (chain s.a ch (inputOf x0 x1 ch)).2 ∧
        (t.a.lane.get ch).prep = (s.a.lane.get ch).prep ∧ (t.a.lane.get ch).bsz = (s.a.lane.get ch).bsz

/-- R210, R211: what a FRAME does to each accumulator: nothing if unprepared; else the tapped sample (output for POST,
input for PRE) goes to the cursor's entry, other entries stay, and the cursor advances, or returns to 0 when the block is
complete, whether the push is dropped or not. -/
def Obligations.FrameCollectsOneSamplePerChannel : Prop :=
  ∀ (x0 x1 : F32) (s : State), PushReadable s →
    ∃ t : State, exec (.frame x0 x1) s = .next t ∧ ∀ ch,
      let l := s.a.lane.get ch
      let l' := t.a.lane.get ch
      let y := (chain s.a ch (inputOf x0 x1 ch)).1
      (l.prep = false → l'.abuf = l.abuf ∧ l'.cur = l.cur ∧ l'.wbin = l.wbin ∧ l'.wgray = l.wgray) ∧
      (l.prep = true →
        abufRead ch l'.abuf l.cur.toNat = (if s.cfg.accTap = .post then y else inputOf x0 x1 ch) ∧
        (∀ i, i ≠ l.cur.toNat → abufRead ch l'.abuf i = abufRead ch l.abuf i) ∧
        (l.cur.toNat + 1 = l.bsz.toNat → l'.cur = 0#13) ∧
        (l.cur.toNat + 1 ≠ l.bsz.toNat → l'.cur = l.cur + 1#13 ∧ l'.wbin = l.wbin ∧ l'.wgray = l.wgray))

/-- R262, R263, R272, R83: a completing FRAME pushes unless the producer sees the ring full: the slot of the write
pointer takes the length tag and the collected samples, its later words stay, and both pointer copies advance; a dropped
push leaves the pointers; every slot not pushed to stays, tag and words. -/
def Obligations.FramePushesOrDropsCompletedBlocks : Prop :=
  ∀ (x0 x1 : F32) (s : State), PushReadable s →
    ∃ t : State, exec (.frame x0 x1) s = .next t ∧
      (∀ ch, let l := s.a.lane.get ch
        let key := slotKey ch l.wbin
        (Pushes s ch →
          (t.a.lane.get ch).wbin.val = (l.wbin.val + 1) % 60 ∧ (t.a.lane.get ch).wgray = g60 (t.a.lane.get ch).wbin ∧
          slotTag t.mem key = l.bsz ∧
          (∀ i, i < l.bsz.toNat → slotWord t.mem key i =
            if i = l.cur.toNat then tappedSample s ch x0 x1 else abufRead ch l.abuf i) ∧
          (∀ i, l.bsz.toNat ≤ i → slotWord t.mem key i = slotWord s.mem key i)) ∧
        (¬ Pushes s ch → (t.a.lane.get ch).wbin = l.wbin ∧ (t.a.lane.get ch).wgray = l.wgray)) ∧
      (∀ key : Nat, (∀ ch, Pushes s ch → key ≠ slotKey ch (s.a.lane.get ch).wbin) →
        slotTag t.mem key = slotTag s.mem key ∧ ∀ i, slotWord t.mem key i = slotWord s.mem key i)

/-- R202: a bypassed stage keeps its state through every AUDIO operation that completes. -/
def Obligations.BypassedStageStateIsFrozen : Prop :=
  ∀ (i : Instr) (s t : State) (j : Stage) (ch : Chan), i.isHost = false → act s.a j = false → exec i s = .next t →
    (t.a.lane.get ch).st.get j = (s.a.lane.get ch).st.get j

/-- R205: with every stage bypassed the FRAME outputs are the inputs, bit for bit, and no stage state changes; an active
stage with identity coefficients and zero state is not so exact: it maps -0.0 to +0.0. -/
def Obligations.AllBypassedIsTheExactIdentity : Prop :=
  (∀ (x0 x1 : F32) (s : State), PushReadable s → (∀ j, act s.a j = false) →
    ∃ t : State, exec (.frame x0 x1) s = .next t ∧ t.audioOut = some (x0, x1) ∧
      ∀ ch, (t.a.lane.get ch).st = (s.a.lane.get ch).st) ∧
  (biquad ⟨0x3F800000#32, 0#32, 0#32, 0#32, 0#32⟩ ⟨0#32, 0#32⟩ 0x80000000#32).1 = 0x00000000#32

/-- R204: a channel's output and stage states after a FRAME depend on nothing of the other channel, of the H domain or of
the environment; and equal inputs in equal states give equal outputs in the two channels. -/
def Obligations.ChannelsDoNotInterfere : Prop :=
  (∀ (ch : Chan) (x0 x1 z0 z1 : F32) (s s' t t' : State),
    SameConfiguration s.a s'.a → (s.a.lane.get ch).st = (s'.a.lane.get ch).st → inputOf x0 x1 ch = inputOf z0 z1 ch →
    exec (.frame x0 x1) s = .next t → exec (.frame z0 z1) s' = .next t' →
    t.audioOut.map (fun y => inputOf y.1 y.2 ch) = t'.audioOut.map (fun y => inputOf y.1 y.2 ch) ∧
    (t.a.lane.get ch).st = (t'.a.lane.get ch).st) ∧
  (∀ (x : F32) (s t : State), (s.a.lane.get .left).st = (s.a.lane.get .right).st → exec (.frame x x) s = .next t →
    (∃ y, t.audioOut = some (y, y)) ∧ (t.a.lane.get .left).st = (t.a.lane.get .right).st)

/-- R222: only BLOCK_START writes the block's configuration. -/
def Obligations.OnlyBlockStartChangesTheConfiguration : Prop :=
  ∀ (i : Instr) (s t : State), (∀ fs, i ≠ .blockStart fs) → exec i s = .next t → SameConfiguration t.a s.a

/-- R47, R223: only FRAME writes a stage state; only FRAME writes the slot memory (R83). -/
def Obligations.OnlyFrameWritesDelayLinesAndSlots : Prop :=
  ∀ (i : Instr) (s t : State), (∀ x0 x1, i ≠ .frame x0 x1) → exec i s = .next t →
    t.mem = s.mem ∧ ∀ ch, (t.a.lane.get ch).st = (s.a.lane.get ch).st

/-- R50: no operation clears a sticky bit; only a BLOCK_START outside the contract sets `A.cfg_err`, only PREPARE and
FRAME set `A.acc_err`. -/
def Obligations.StickyBitsAreOnlySet : Prop :=
  ∀ (i : Instr) (s t : State), exec i s = .next t →
    (s.a.cfgErr = true → t.a.cfgErr = true) ∧ (s.a.accErr = true → t.a.accErr = true) ∧
    (t.a.cfgErr ≠ s.a.cfgErr → ∃ fs, i = .blockStart fs ∧ validConfig s.a.live fs = false) ∧
    (t.a.accErr ≠ s.a.accErr → (∃ n m, i = .prepare n m ∧ validLength s.cfg n = false) ∨
      ∃ x0 x1, i = .frame x0 x1 ∧ ∃ ch, (s.a.lane.get ch).prep = false)

/-- R392: once either state word of an active stage is a NaN, every FRAME leaves its first state word the canonical
NaN. -/
def Obligations.NanStateStaysNan : Prop :=
  ∀ (x0 x1 : F32) (s t : State) (ch : Chan) (j : Stage), act s.a j = true →
    (fIsNaN ((s.a.lane.get ch).st.get j).s1 = true ∨ fIsNaN ((s.a.lane.get ch).st.get j).s2 = true) →
    exec (.frame x0 x1) s = .next t → ((t.a.lane.get ch).st.get j).s1 = 0x7FC00000#32

/-! ## Binary32 -/

/-- R200: the special cases. A NaN operand, opposite infinities and zero times infinity give the canonical NaN, in either
order, and a NaN result is always that pattern. An infinity with a finite operand or with one of its own sign stays, and
times anything but a zero or a NaN gives the infinity of the product's sign. An exact zero sum is +0 unless both addends
are negative zeros, and a product has the exclusive or of the signs. -/
def Obligations.FloatSpecialCases : Prop :=
  (∀ a b : F32, fIsNaN a = true ∨ fIsNaN b = true →
    fadd a b = 0x7FC00000#32 ∧ fsub a b = 0x7FC00000#32 ∧ fmul a b = 0x7FC00000#32) ∧
  (∀ a b : F32, (fIsNaN (fadd a b) = true → fadd a b = 0x7FC00000#32) ∧
    (fIsNaN (fsub a b) = true → fsub a b = 0x7FC00000#32) ∧ (fIsNaN (fmul a b) = true → fmul a b = 0x7FC00000#32)) ∧
  (∀ n : Bool, fadd (infinity n) (infinity (!n)) = 0x7FC00000#32 ∧ fsub (infinity n) (infinity n) = 0x7FC00000#32 ∧
    fadd (infinity n) (infinity n) = infinity n ∧ fsub (infinity n) (infinity (!n)) = infinity n) ∧
  (∀ (n : Bool) (b : F32), fFinite b = true →
    fadd (infinity n) b = infinity n ∧ fadd b (infinity n) = infinity n ∧
    fsub (infinity n) b = infinity n ∧ fsub b (infinity n) = infinity (!n)) ∧
  (∀ (n : Bool) (b : F32), fFinite b = true → f32Value b = 0 →
    fmul (infinity n) b = 0x7FC00000#32 ∧ fmul b (infinity n) = 0x7FC00000#32) ∧
  (∀ (n : Bool) (b : F32), fIsNaN b = false → (fFinite b = true → f32Value b ≠ 0) →
    fmul (infinity n) b = infinity (n != b.getLsbD 31) ∧ fmul b (infinity n) = infinity (n != b.getLsbD 31)) ∧
  (∀ a b : F32, fFinite a = true → fFinite b = true →
    (f32Value a + f32Value b = 0 → fadd a b = signedZero (a.getLsbD 31 && b.getLsbD 31)) ∧
    (f32Value a - f32Value b = 0 → fsub a b = signedZero (a.getLsbD 31 && !b.getLsbD 31)) ∧
    (f32Value a * f32Value b = 0 → fmul a b = signedZero (a.getLsbD 31 != b.getLsbD 31)) ∧
    (fmul a b).getLsbD 31 = (a.getLsbD 31 != b.getLsbD 31)) ∧
  (∀ x : F32, fFinite x = true → fsub x x = 0x00000000#32 ∧ fadd x (x ^^^ 0x80000000#32) = 0x00000000#32)

/-- R200: the sum and the difference of finite operands are the exact ones rounded once to nearest, ties to even, with
subnormals kept and overflow to infinity. -/
def Obligations.AdditionRoundsToNearestEven : Prop :=
  ∀ a b : F32, fFinite a = true → fFinite b = true →
    RoundsTo (f32Value a + f32Value b) (fadd a b) ∧ RoundsTo (f32Value a - f32Value b) (fsub a b)

/-- R200: the product of finite operands is the exact one rounded once to nearest, ties to even. -/
def Obligations.MultiplicationRoundsToNearestEven : Prop :=
  ∀ a b : F32, fFinite a = true → fFinite b = true → RoundsTo (f32Value a * f32Value b) (fmul a b)

/-! ## The invariant and what rests on it -/

/-- The invariant holds after reset, whatever the OPEN parameters (within R7's ranges). -/
def Obligations.ResetMeetsTheInvariant : Prop := ∀ p : Config.Params, p.wf = true → Inv (State.resetWith p)

/-- Every step keeps the invariant (R271 I0 to I3, R320, R48, R51, the canonical form of the slot memory). -/
def Obligations.EveryStepKeepsTheInvariant : Prop := ∀ s t : State, Inv s → step s = .next t → Inv t

/-- R340: from a state that meets the invariant no step faults or is refused, whatever is presented. -/
def Obligations.NoStepStopsUnderTheInvariant : Prop := ∀ s : State, Inv s → ∃ t : State, step s = .next t

/-- R271 I1 to I3: in every state that meets the invariant the true occupancy is at most 30 and each side's view lags. -/
def Obligations.PointerViewsLagAndOccupancyIsBounded : Prop :=
  ∀ (s : State) (ch : Chan), Inv s → ∃ w r : Fin 60, wsync s ch = some w ∧ rsync s ch = some r ∧
    ptrDist (s.a.lane.get ch).wbin (s.h.ring.get ch).rbin ≤ 30 ∧
    ptrDist (s.a.lane.get ch).wbin r ≤ 30 ∧ ptrDist (s.h.ring.get ch).rbin r ≤ ptrDist (s.a.lane.get ch).wbin r ∧
    ptrDist w (s.h.ring.get ch).rbin ≤ ptrDist (s.a.lane.get ch).wbin (s.h.ring.get ch).rbin

/-- R273: a producer that does not see the ring full has a free slot; a consumer that does not see it empty has a block
in a written slot. -/
def Obligations.FullAndEmptyAreConservative : Prop :=
  ∀ (s : State) (ch : Chan) (w r : Fin 60), Inv s → wsync s ch = some w → rsync s ch = some r →
    (isFull (s.a.lane.get ch).wbin r = false → occupancy s ch < 30) ∧
    (isEmpty w (rbinOf s ch) = false → 0 < occupancy s ch ∧ (s.mem.find (headKey s ch)).isSome = true)

/-- R271 I4: no operation writes a slot that the consumer of its channel can see. -/
def Obligations.VisibleSlotsAreStable : Prop :=
  ∀ (i : Instr) (s t : State) (ch : Chan) (w p : Fin 60), Inv s → exec i s = .next t → wsync s ch = some w →
    ptrDist p (rbinOf s ch) < ptrDist w (rbinOf s ch) → t.mem.find (slotKey ch p) = s.mem.find (slotKey ch p)

/-- R271 I5, R275: the blocks of a ring are a queue. A push that is not dropped appends the completed block; a
successful pop takes the oldest; no other operation changes the queue. -/
def Obligations.RingIsAQueueOfBlocks : Prop :=
  ∀ (i : Instr) (s t : State) (ch : Chan), Inv s → exec i s = .next t →
    (∀ x0 x1, i = .frame x0 x1 → Pushes s ch → queued t ch = queued s ch ++ [completedBlock s ch x0 x1]) ∧
    (∀ x0 x1, i = .frame x0 x1 → ¬ Pushes s ch → queued t ch = queued s ch) ∧
    (i = popOp ch → t.hostOut = some 1#32 → ∃ b, queued s ch = b :: queued t ch) ∧
    (i = popOp ch → t.hostOut ≠ some 1#32 → queued t ch = queued s ch) ∧
    ((∀ x0 x1, i ≠ .frame x0 x1) → i ≠ popOp ch → queued t ch = queued s ch)

/-- R131, R270, for one agent with no other step in between (the model's choice, log entries 15 and 18): `pull` fails and
pops nothing when the consumer sees the ring empty, and else returns the length and the words of the oldest block and pops
it. -/
def Obligations.PullReturnsTheOldestBlock : Prop :=
  ∀ (ch : Chan) (s : State) (w : Fin 60), Inv s → wsync s ch = some w →
    (w = rbinOf s ch → ∃ t : State, pull ch s = .next (t, none) ∧ queued t ch = queued s ch) ∧
    (w ≠ rbinOf s ch → ∃ (t : State) (len : Word) (d : List F32),
      pull ch s = .next (t, some (len, d, [1#32])) ∧ queued s ch = (len.setWidth 13, d) :: queued t ch)

/-- R51, R48: in a state that meets the invariant the consumer never reads a word that has not been written: the head's
tag and every word below it are those of a listed slot. -/
def Obligations.ConsumerReadsOnlyWrittenWords : Prop :=
  ∀ (ch : Chan) (s : State) (w : Fin 60), Inv s → wsync s ch = some w → w ≠ rbinOf s ch →
    ∃ v : Slot, s.mem.find (headKey s ch) = some v ∧ 1 ≤ v.len.toNat ∧ v.len.toNat ≤ s.cfg.blkMax ∧
      (∃ t, exec (hlenOp ch) s = .next t ∧ t.hostOut = some (v.len.zeroExtend 32)) ∧
      ∀ i : BitVec 12, i.toNat < v.len.toNat →
        ∃ t x, v.data[i.toNat]? = some x ∧ exec (winOp ch i) s = .next t ∧ t.hostOut = some x

/-- R320 (a), (d): in a state that meets the invariant, a mailbox about to be accepted cannot be overwritten, and once
PARAM_PENDING is 0 the live set is the host's store. -/
def Obligations.SettledParametersAreTheStore : Prop :=
  ∀ s : State, Inv s →
    (s.a.togS.getLastD false ≠ s.a.aTog → transfers s = false) ∧
    ((s.h.dirty || (s.h.mbTog != s.h.ackS.getLastD false)) = false → s.a.live = s.h.shadow)

/-- R374: a reset discards every queued block, every partial block, every stage state and every parameter. That a reset is
one event taken by one step, and that `cfg` and the events still presented survive it, is the model's choice (log entry
10). -/
def Obligations.ResetWhileRunningDiscardsEverything : Prop :=
  ∀ (s : State) (rest : List Edge), s.pending = .reset :: rest →
    ∃ t : State, step s = .next t ∧ t.h = (State.resetWith s.cfg).h ∧ t.a = (State.resetWith s.cfg).a ∧
      t.k = (State.resetWith s.cfg).k ∧ (∀ ch, queued t ch = []) ∧ t.cfg = s.cfg ∧ t.pending = rest

/-- R270: the pull sequence with any edges of either domain between its steps, none of them a pop of the same ring (and no
reset). When the ring is EMPTY at its first step it fails and changes no queue; else it returns 1 with exactly the length
and the words of the block that was the oldest at its first step, that block is gone after it, and the blocks queued behind
it are still there in order, before any pushed meanwhile. -/
def Obligations.PullIsUnchangedByInterleavedSteps : Prop :=
  ∀ (ch : Chan) (gaps : Nat → Gap) (s : State) (w : Fin 60), Inv s → wsync s ch = some w → (gaps 0).1 = [] →
    (∀ n, ∀ e ∈ (gaps n).1, harmlessTo ch e = true) →
    (w = rbinOf s ch → ∃ t : State, pullAmong ch gaps s = .next (t, none) ∧ queued t ch = queued s ch) ∧
    (w ≠ rbinOf s ch → ∃ (t : State) (len : Word) (d : List F32) (behind : List Block),
      pullAmong ch gaps s = .next (t, some (len, d, [1#32])) ∧ queued s ch = (len.setWidth 13, d) :: behind ∧
      behind <+: queued t ch)
end

