-- ==== Sys2Proof/Laws/Encoding.lean ====
section
/-! SUPPORT. What the decoder's field functions read from a word the encoder builds (30_encoding R121, R122), so that a
round-trip proof need not look into a word. -/

namespace Sys2Proof

/-- The HOSTBUS word of the given fields, as `hostWord` builds it. -/
def hostBits (wr : BitVec 1) (addr : BitVec 16) (d : Word) : BitVec 64 := ((wr ++ 0#15) ++ addr) ++ d

theorem hostWord_eq (wr : BitVec 1) (addr : BitVec 16) (d : Word) : hostWord wr addr d = .host (hostBits wr addr d) := rfl

@[simp] theorem hostW_hostBits (wr : BitVec 1) (addr : BitVec 16) (d : Word) : hostW (hostBits wr addr d) = wr := by
  apply BitVec.eq_of_getLsbD_eq
  intro i hi
  have h1 : ¬ (63 + i < 32) := by omega
  have h2 : ¬ (63 + i - 32 < 16) := by omega
  have h3 : ¬ (63 + i - 32 - 16 < 15) := by omega
  have h4 : 63 + i - 32 - 16 - 15 = i := by omega
  simp only [hostW, hostBits, BitVec.getLsbD_extractLsb', BitVec.getLsbD_append, h1, h2, h3, h4, if_false]
  simp [hi]

@[simp] theorem hostWordAddr_hostBits (wr : BitVec 1) (addr : BitVec 16) (d : Word) :
    hostWordAddr (hostBits wr addr d) = addr.extractLsb' 2 14 := by
  apply BitVec.eq_of_getLsbD_eq
  intro i hi
  have h1 : ¬ (34 + i < 32) := by omega
  have h2 : 34 + i - 32 < 16 := by omega
  have h3 : 34 + i - 32 = 2 + i := by omega
  simp only [hostWordAddr, hostBits, BitVec.getLsbD_extractLsb', BitVec.getLsbD_append, h1, h2, if_true, if_false]
  rw [h3]

@[simp] theorem hostData_hostBits (wr : BitVec 1) (addr : BitVec 16) (d : Word) :
    hostData (hostBits wr addr d) = d := by
  apply BitVec.eq_of_getLsbD_eq
  intro i hi
  have h1 : 0 + i = i := by omega
  simp only [hostData, hostBits, BitVec.getLsbD_extractLsb', BitVec.getLsbD_append, h1, hi, if_true]
  simp

/-- The AUDIO word of the given fields, as `audioWord` builds it. -/
def audioBits (kind : BitVec 4) (x0 x1 : Word) : BitVec 72 := ((kind ++ 0#4) ++ x0) ++ x1

theorem audioWord_eq (kind : BitVec 4) (x0 x1 : Word) : audioWord kind x0 x1 = .audio (audioBits kind x0 x1) := rfl

@[simp] theorem audioKind_audioBits (kind : BitVec 4) (x0 x1 : Word) : audioKind (audioBits kind x0 x1) = kind := by
  apply BitVec.eq_of_getLsbD_eq
  intro i hi
  have h1 : ¬ (68 + i < 32) := by omega
  have h2 : ¬ (68 + i - 32 < 32) := by omega
  have h3 : ¬ (68 + i - 32 - 32 < 4) := by omega
  have h4 : 68 + i - 32 - 32 - 4 = i := by omega
  simp only [audioKind, audioBits, BitVec.getLsbD_extractLsb', BitVec.getLsbD_append, h1, h2, h3, h4, if_false]
  simp [hi]

@[simp] theorem audioX0_audioBits (kind : BitVec 4) (x0 x1 : Word) : audioX0 (audioBits kind x0 x1) = x0 := by
  apply BitVec.eq_of_getLsbD_eq
  intro i hi
  have h1 : ¬ (32 + i < 32) := by omega
  have h2 : 32 + i - 32 = i := by omega
  simp only [audioX0, audioBits, BitVec.getLsbD_extractLsb', BitVec.getLsbD_append, h1, h2, hi, if_true, if_false]
  simp

@[simp] theorem audioX1_audioBits (kind : BitVec 4) (x0 x1 : Word) : audioX1 (audioBits kind x0 x1) = x1 := by
  apply BitVec.eq_of_getLsbD_eq
  intro i hi
  have h1 : 0 + i = i := by omega
  simp only [audioX1, audioBits, BitVec.getLsbD_extractLsb', BitVec.getLsbD_append, h1, hi, if_true]
  simp

/-- The word address of a byte address with a zero offset. -/
@[simp] theorem wordAddr_append (a : BitVec 14) : (a ++ 0#2).extractLsb' 2 14 = a := by
  apply BitVec.eq_of_getLsbD_eq
  intro i hi
  have h1 : ¬ (2 + i < 2) := by omega
  have h2 : 2 + i - 2 = i := by omega
  simp only [BitVec.getLsbD_extractLsb', BitVec.getLsbD_append, h1, h2, hi, if_false]
  simp

end Sys2Proof
end

