-- ==== Sys2Proof/Laws/State.lean ====
section
/-! SUPPORT. What the two commit operations leave in each field of the state, and the accessors of the containers: one
lemma per field per update, true by unfolding, so that later proofs never unfold a record update. -/

namespace Sys2Proof

/-! ### Containers -/

@[simp] theorem PerCh.get_left {α : Type} (p : PerCh α) : p.get .left = p.left := rfl
@[simp] theorem PerCh.get_right {α : Type} (p : PerCh α) : p.get .right = p.right := rfl
@[simp] theorem PerCh.set_left_left {α : Type} (p : PerCh α) (v : α) : (p.set .left v).left = v := rfl
@[simp] theorem PerCh.set_left_right {α : Type} (p : PerCh α) (v : α) : (p.set .left v).right = p.right := rfl
@[simp] theorem PerCh.set_right_left {α : Type} (p : PerCh α) (v : α) : (p.set .right v).left = p.left := rfl
@[simp] theorem PerCh.set_right_right {α : Type} (p : PerCh α) (v : α) : (p.set .right v).right = v := rfl

@[simp] theorem PerCh.get_set_same {α : Type} (p : PerCh α) (ch : Chan) (v : α) : (p.set ch v).get ch = v := by
  cases ch <;> rfl

theorem PerCh.get_set_other {α : Type} (p : PerCh α) {c d : Chan} (v : α) (h : d ≠ c) : (p.set c v).get d = p.get d := by
  cases c <;> cases d <;> first | rfl | exact absurd rfl h

@[simp] theorem Bank.get_ofFn {α : Type} (f : Fin 4 → α) (k : Fin 4) : (Bank.ofFn f).get k = f k := by
  match k with
  | 0 => rfl
  | 1 => rfl
  | 2 => rfl
  | 3 => rfl

theorem Bank.get_set {α : Type} (b : Bank α) (j k : Fin 4) (v : α) :
    (b.set j v).get k = if k = j then v else b.get k := by
  match j, k with
  | 0, 0 | 0, 1 | 0, 2 | 0, 3 => rfl
  | 1, 0 | 1, 1 | 1, 2 | 1, 3 => rfl
  | 2, 0 | 2, 1 | 2, 2 | 2, 3 => rfl
  | 3, 0 | 3, 1 | 3, 2 | 3, 3 => rfl

theorem Stages.get_set {α : Type} (t : Stages α) (i j : Stage) (v : α) :
    (t.set i v).get j = if j = i then v else t.get j := by
  cases i <;> cases j <;> simp [Stages.set, Stages.get, Bank.get_set]

@[simp] theorem Stages.get_all {α : Type} (v : α) (j : Stage) : (Stages.all v).get j = v := by
  cases j with
  | pk => rfl
  | lc k => match k with
    | 0 => rfl
    | 1 => rfl
    | 2 => rfl
    | 3 => rfl
  | hc k => match k with
    | 0 => rfl
    | 1 => rfl
    | 2 => rfl
    | 3 => rfl

namespace Machine

/-! ### An H step -/

section
variable (s : State) (h' : HDomain) (pw : Bool) (out : Option Word)

@[simp] theorem hCommit_cfg : (hCommit s h' pw out).cfg = s.cfg := rfl
@[simp] theorem hCommit_h : (hCommit s h' pw out).h = hBackground s h' pw := rfl
@[simp] theorem hCommit_a : (hCommit s h' pw out).a = s.a := rfl
@[simp] theorem hCommit_mem : (hCommit s h' pw out).mem = s.mem := rfl
@[simp] theorem hCommit_k : (hCommit s h' pw out).k = kAfterH s.k s.h (hBackground s h' pw) := rfl
@[simp] theorem hCommit_pending : (hCommit s h' pw out).pending = s.pending := rfl
@[simp] theorem hCommit_capture : (hCommit s h' pw out).capture = s.capture := rfl
@[simp] theorem hCommit_tick : (hCommit s h' pw out).tick = s.tick := rfl
@[simp] theorem hCommit_hostOut : (hCommit s h' pw out).hostOut = out := rfl
@[simp] theorem hCommit_audioOut : (hCommit s h' pw out).audioOut = s.audioOut := rfl

@[simp] theorem hBackground_shadow : (hBackground s h' pw).shadow = h'.shadow := rfl
@[simp] theorem hBackground_changed : (hBackground s h' pw).changed = h'.changed := rfl
@[simp] theorem hBackground_mb : (hBackground s h' pw).mb = if transfers s then s.h.shadow else s.h.mb := rfl
@[simp] theorem hBackground_mbTog :
    (hBackground s h' pw).mbTog = if transfers s then !s.h.mbTog else s.h.mbTog := rfl
@[simp] theorem hBackground_dirty : (hBackground s h' pw).dirty = ((s.h.dirty && !transfers s) || pw) := rfl
@[simp] theorem hBackground_ackS : (hBackground s h' pw).ackS = ackNext s := rfl
@[simp] theorem hBackground_cfgerrS : (hBackground s h' pw).cfgerrS = cfgerrNext s := rfl
@[simp] theorem hBackground_accerrS : (hBackground s h' pw).accerrS = accerrNext s := rfl

@[simp] theorem hBackground_rbin (ch : Chan) :
    ((hBackground s h' pw).ring.get ch).rbin = (h'.ring.get ch).rbin := by cases ch <;> rfl
@[simp] theorem hBackground_rgray (ch : Chan) :
    ((hBackground s h' pw).ring.get ch).rgray = (h'.ring.get ch).rgray := by cases ch <;> rfl
@[simp] theorem hBackground_ws (ch : Chan) :
    ((hBackground s h' pw).ring.get ch).ws = wsNext s ch := by cases ch <;> rfl

end

/-! ### A popped ring -/

section
variable (h : HDomain) (ch : Chan)

@[simp] theorem popped_shadow : (popped h ch).shadow = h.shadow := rfl
@[simp] theorem popped_changed : (popped h ch).changed = h.changed := rfl
@[simp] theorem popped_rbin : ((popped h ch).ring.get ch).rbin = inc (h.ring.get ch).rbin := by cases ch <;> rfl
@[simp] theorem popped_rgray : ((popped h ch).ring.get ch).rgray = g60 (inc (h.ring.get ch).rbin) := by
  cases ch <;> rfl

theorem popped_other {d : Chan} (hd : d ≠ ch) : (popped h ch).ring.get d = h.ring.get d :=
  PerCh.get_set_other _ _ hd

end

/-! ### An A step -/

section
variable (s : State) (a' : ADomain) (m : Memory) (out : Option (F32 × F32))

@[simp] theorem aCommit_cfg : (aCommit s a' m out).cfg = s.cfg := rfl
@[simp] theorem aCommit_h : (aCommit s a' m out).h = s.h := rfl
@[simp] theorem aCommit_a : (aCommit s a' m out).a = aBackground s a' := rfl
@[simp] theorem aCommit_mem : (aCommit s a' m out).mem = m := rfl
@[simp] theorem aCommit_k : (aCommit s a' m out).k = kAfterA s.k s.a (aBackground s a') := rfl
@[simp] theorem aCommit_pending : (aCommit s a' m out).pending = s.pending := rfl
@[simp] theorem aCommit_capture : (aCommit s a' m out).capture = s.capture := rfl
@[simp] theorem aCommit_tick : (aCommit s a' m out).tick = s.tick := rfl
@[simp] theorem aCommit_hostOut : (aCommit s a' m out).hostOut = s.hostOut := rfl
@[simp] theorem aCommit_audioOut : (aCommit s a' m out).audioOut = out := rfl

@[simp] theorem aBackground_togS : (aBackground s a').togS = togNext s := rfl
@[simp] theorem aBackground_aTog :
    (aBackground s a').aTog = if accepts s then lastBit s.a.togS else s.a.aTog := rfl
@[simp] theorem aBackground_live : (aBackground s a').live = if accepts s then s.h.mb else s.a.live := rfl
@[simp] theorem aBackground_snap : (aBackground s a').snap = a'.snap := rfl
@[simp] theorem aBackground_fs : (aBackground s a').fs = a'.fs := rfl
@[simp] theorem aBackground_coef : (aBackground s a').coef = a'.coef := rfl
@[simp] theorem aBackground_enLc : (aBackground s a').enLc = a'.enLc := rfl
@[simp] theorem aBackground_enHc : (aBackground s a').enHc = a'.enHc := rfl
@[simp] theorem aBackground_bypLc : (aBackground s a').bypLc = a'.bypLc := rfl
@[simp] theorem aBackground_bypPk : (aBackground s a').bypPk = a'.bypPk := rfl
@[simp] theorem aBackground_bypHc : (aBackground s a').bypHc = a'.bypHc := rfl
@[simp] theorem aBackground_cfgErr : (aBackground s a').cfgErr = a'.cfgErr := rfl
@[simp] theorem aBackground_accErr : (aBackground s a').accErr = a'.accErr := rfl

@[simp] theorem aBackground_lane (ch : Chan) :
    (aBackground s a').lane.get ch = { a'.lane.get ch with rs := rsNext s ch } := by cases ch <;> rfl

end

/-! ### Events -/

@[simp] theorem step_of_pending (s : State) (e : Edge) (rest : List Edge) (h : s.pending = e :: rest) :
    step s = runEdge s e := by
  simp [step, nextEdge, h]

theorem takeEdge_h (s : State) (c : Config.Capture) : (takeEdge s c).h = s.h := rfl
theorem takeEdge_a (s : State) (c : Config.Capture) : (takeEdge s c).a = s.a := rfl
theorem takeEdge_mem (s : State) (c : Config.Capture) : (takeEdge s c).mem = s.mem := rfl
theorem takeEdge_k (s : State) (c : Config.Capture) : (takeEdge s c).k = s.k := rfl
theorem takeEdge_cfg (s : State) (c : Config.Capture) : (takeEdge s c).cfg = s.cfg := rfl

end Machine

end Sys2Proof
end

