-- ==== Sys2Proof/Laws/Memory.lean ====
section
/-! SUPPORT. The basic laws of the slot memory and of the accumulator buffer: a read after a write to the same place
gives what was written, a write leaves every other place alone, and every operation keeps the canonical form. -/

namespace Sys2Proof.Machine

open Sys2Proof

/-! ### Slot memory -/

theorem Memory.find_put_same (m : Memory) (key : Nat) (v : Slot) : (m.put key v).find key = some v := by
  induction m with
  | nil => simp [Memory.put, Memory.find]
  | cons e rest ih =>
    obtain ⟨k, w⟩ := e
    by_cases h1 : key < k
    · simp [Memory.put, h1, Memory.find]
    · by_cases h2 : key = k
      · simp [Memory.put, h2, Memory.find]
      · have h3 : (key == k) = false := by simpa using h2
        simp only [Memory.put, h1, h2, if_false, Memory.find, List.lookup_cons, h3]
        exact ih

theorem Memory.find_put_other (m : Memory) {key j : Nat} (v : Slot) (h : j ≠ key) :
    (m.put key v).find j = m.find j := by
  have hj : (j == key) = false := by simpa using h
  induction m with
  | nil => simp [Memory.put, Memory.find, List.lookup_cons, hj]
  | cons e rest ih =>
    obtain ⟨k, w⟩ := e
    by_cases h1 : key < k
    · simp [Memory.put, h1, Memory.find, List.lookup_cons, hj]
    · by_cases h2 : key = k
      · subst h2
        simp [Memory.put, Memory.find, List.lookup_cons, hj]
      · simp only [Memory.put, h1, h2, if_false, Memory.find, List.lookup_cons]
        cases (j == k) with
        | true => rfl
        | false => exact ih

theorem slotTag_slotWrite_same (m : Memory) (key : Nat) (n : BitVec 13) (d : List F32) :
    slotTag (slotWrite m key n d) key = n := by
  simp [slotTag, slotWrite, Memory.find_put_same]

theorem slotWord_slotWrite_same (m : Memory) (key : Nat) (n : BitVec 13) (d : List F32) {i : Nat} (h : i < d.length) :
    slotWord (slotWrite m key n d) key i = d[i] := by
  simp [slotWord, slotWrite, Memory.find_put_same, List.getElem?_append_left h, h]

/-- Words at or beyond the new length keep what they held (20_memory R83). -/
theorem slotWord_slotWrite_beyond (m : Memory) (key : Nat) (n : BitVec 13) (d : List F32) {i : Nat}
    (h : d.length ≤ i) : slotWord (slotWrite m key n d) key i = slotWord m key i := by
  have e : d.length + (i - d.length) = i := by omega
  simp only [slotWord, slotWrite, Memory.find_put_same, List.getElem?_append_right h, List.getElem?_drop, e,
    slotData]
  cases m.find key <;> simp

theorem slotTag_slotWrite_other (m : Memory) {key j : Nat} (n : BitVec 13) (d : List F32) (h : j ≠ key) :
    slotTag (slotWrite m key n d) j = slotTag m j := by
  simp [slotTag, slotWrite, Memory.find_put_other _ _ h]

theorem slotWord_slotWrite_other (m : Memory) {key j : Nat} (n : BitVec 13) (d : List F32) (i : Nat) (h : j ≠ key) :
    slotWord (slotWrite m key n d) j i = slotWord m j i := by
  simp [slotWord, slotWrite, Memory.find_put_other _ _ h]

/-- Which numbers a memory lists after a write. -/
theorem Memory.mem_keys_put (m : Memory) (key j : Nat) (v : Slot) :
    j ∈ (m.put key v).map Prod.fst ↔ j = key ∨ j ∈ m.map Prod.fst := by
  induction m with
  | nil => simp [Memory.put]
  | cons e rest ih =>
    obtain ⟨k, w⟩ := e
    by_cases h1 : key < k
    · simp [Memory.put, h1]
    · by_cases h2 : key = k
      · simp [Memory.put, h2]
      · simp only [Memory.put, h1, h2, if_false, List.map_cons, List.mem_cons, ih]
        tauto

theorem Memory.pairwise_put (m : Memory) (key : Nat) (v : Slot) (h : (m.map Prod.fst).Pairwise (· < ·)) :
    ((m.put key v).map Prod.fst).Pairwise (· < ·) := by
  induction m with
  | nil => simp [Memory.put]
  | cons e rest ih =>
    obtain ⟨k, w⟩ := e
    rw [List.map_cons, List.pairwise_cons] at h
    by_cases h1 : key < k
    · simp only [Memory.put, h1, if_true, List.map_cons, List.pairwise_cons, List.mem_cons]
      refine ⟨?_, h⟩
      rintro j (rfl | hj)
      · exact h1
      · exact lt_trans h1 (h.1 j hj)
    · by_cases h2 : key = k
      · subst h2
        simpa [Memory.put] using h
      · simp only [Memory.put, h1, h2, if_false, List.map_cons, List.pairwise_cons]
        refine ⟨fun j hj => ?_, ih h.2⟩
        rcases (Memory.mem_keys_put rest key j v).mp hj with rfl | hj'
        · omega
        · exact h.1 j hj'

theorem Memory.wf_put (m : Memory) (key : Nat) (v : Slot) (hk : key < 60) (h : m.wf = true) :
    (m.put key v).wf = true := by
  have hall : ∀ j, j ∈ m.map Prod.fst → j < 60 := by
    intro j hj
    obtain ⟨e, he, rfl⟩ := List.mem_map.mp hj
    have := h
    simp only [Memory.wf, Bool.and_eq_true, List.all_eq_true, decide_eq_true_eq] at this
    exact this.2 e he
  simp only [Memory.wf, Bool.and_eq_true, List.all_eq_true, decide_eq_true_eq] at h ⊢
  refine ⟨Memory.pairwise_put m key v h.1, fun e he => ?_⟩
  rcases (Memory.mem_keys_put m key e.1 v).mp (List.mem_map_of_mem he) with h' | h'
  · omega
  · exact hall _ h'

theorem slotWrite_wf (m : Memory) (key : Nat) (n : BitVec 13) (d : List F32) (hk : key < 60) (h : m.wf = true) :
    (slotWrite m key n d).wf = true := Memory.wf_put m key _ hk h

theorem reset_memory_wf (p : Config.Params) : (State.resetWith p).mem.wf = true := rfl

theorem slotKey_lt (ch : Chan) (p : Fin 60) : slotKey ch p < 60 := by
  have : p.val % 30 < 30 := Nat.mod_lt _ (by decide)
  cases ch <;> simp [slotKey, slotOf, Chan.index] <;> omega

/-- Slots of different channels are different. -/
theorem slotKey_ne_of_chan {c d : Chan} (p q : Fin 60) (h : c ≠ d) : slotKey c p ≠ slotKey d q := by
  have h1 : p.val % 30 < 30 := Nat.mod_lt _ (by decide)
  have h2 : q.val % 30 < 30 := Nat.mod_lt _ (by decide)
  cases c <;> cases d <;> simp [slotKey, slotOf, Chan.index] at * <;> omega

/-! ### Accumulator buffer -/

theorem abufRead_abufWrite_same (ch : Chan) (buf : List F32) (i : Nat) (t : F32) :
    abufRead ch (abufWrite ch buf i t) i = t := by
  by_cases h : i < buf.length
  · simp [abufRead, abufWrite, h]
  · have hl : (buf ++ (List.range' buf.length (i - buf.length)).map
        (fun j => Config.powerOnSample ch.index j)).length = i := by
      simp; omega
    simp only [abufRead, abufWrite, h, if_false]
    rw [List.getElem?_append_right (by omega), hl]
    simp

theorem abufRead_abufWrite_other (ch : Chan) (buf : List F32) {i j : Nat} (t : F32) (hij : j ≠ i) :
    abufRead ch (abufWrite ch buf i t) j = abufRead ch buf j := by
  by_cases h : i < buf.length
  · simp [abufRead, abufWrite, h, List.getElem?_set_ne (Ne.symm hij)]
  · simp only [abufRead, abufWrite, h, if_false]
    by_cases h1 : j < buf.length
    · rw [List.append_assoc, List.getElem?_append_left h1]
    · rw [List.append_assoc, List.getElem?_append_right (by omega), List.getElem?_eq_none (by omega : buf.length ≤ j)]
      by_cases h2 : j < i
      · rw [List.getElem?_append_left (by simp; omega)]
        rw [List.getElem?_map, List.getElem?_range' (by omega)]
        simp
        congr 1
        omega
      · rw [List.getElem?_append_right (by simp; omega)]
        rw [List.getElem?_eq_none (by simp; omega)]

theorem length_abufBlock (ch : Chan) (buf : List F32) (n : Nat) : (abufBlock ch buf n).length = n := by
  simp [abufBlock]

end Sys2Proof.Machine
end

