-- ==== Sys2Proof/Laws/Steps.lean ====
section
/-! SUPPORT. What each shared operation can do, said once: the ring reads, the accumulator append, one channel of a
FRAME, and from them every HOSTBUS and every AUDIO operation. Later proofs cite these instead of unfolding `exec`. -/

namespace Sys2Proof.Machine

open Sys2Proof

/-! ### Host operations -/

/-- A ring read that answers next returned one word and wrote nothing (R265 to R267). -/
theorem ringStat_next {ch : Chan} {s t : State} (h : ringStat ch s = .next t) :
    ∃ w, wsync s ch = some w ∧ t = hCommit s s.h false (some (ringStatWord w (rbinOf s ch))) := by
  unfold ringStat at h
  split at h
  · cases h
  · rename_i w hw
    cases h
    exact ⟨w, hw, rfl⟩

theorem ringHlen_next {ch : Chan} {s t : State} (h : ringHlen ch s = .next t) :
    ∃ w, wsync s ch = some w ∧ t = hCommit s s.h false (some (ringHlenWord s ch w)) := by
  unfold ringHlen at h
  split at h
  · cases h
  · rename_i w hw
    cases h
    exact ⟨w, hw, rfl⟩

theorem ringWin_next {ch : Chan} {i : BitVec 12} {s t : State} (h : ringWin ch i s = .next t) :
    ∃ w, wsync s ch = some w ∧ t = hCommit s s.h false (some (ringWinWord s ch i w)) := by
  unfold ringWin at h
  split at h
  · cases h
  · rename_i w hw
    cases h
    exact ⟨w, hw, rfl⟩

/-- A RING_POP that answers next found the ring empty and wrote nothing, or popped (R268). -/
theorem ringPop_next {ch : Chan} {s t : State} (h : ringPop ch s = .next t) :
    ∃ w, wsync s ch = some w ∧
      ((isEmpty w (rbinOf s ch) = true ∧ t = hCommit s s.h false (some 0#32)) ∨
       (isEmpty w (rbinOf s ch) = false ∧ t = hCommit s (popped s.h ch) false (some 1#32))) := by
  unfold ringPop at h
  split at h
  · cases h
  · rename_i w hw
    split at h
    · rename_i he
      cases h
      exact ⟨w, hw, .inl ⟨he, rfl⟩⟩
    · rename_i he
      cases h
      exact ⟨w, hw, .inr ⟨by simpa using he, rfl⟩⟩

/-- Everything a HOSTBUS operation can do (40_host_registers, 42_ring section 3): return a word or none and write
nothing, write a parameter, clear the changed flag, or pop. -/
inductive HostEffect (i : Instr) (s t : State) : Prop where
  | plain (out : Option Word) (h : t = hCommit s s.h false out)
  | param (p : ParamSet) (h : t = hCommit s { s.h with shadow := p, changed := true } true none)
  | clear (hi : i = .rdChgTac) (h : t = hCommit s { s.h with changed := false } false (some (flagWord s.h.changed)))
  | pop (ch : Chan) (w : Fin 60) (hi : i = popOp ch) (hw : wsync s ch = some w)
      (he : isEmpty w (rbinOf s ch) = false) (h : t = hCommit s (popped s.h ch) false (some 1#32))

theorem HostEffect.of_ringPop {ch : Chan} {s t : State} (h : ringPop ch s = .next t) :
    HostEffect (popOp ch) s t := by
  obtain ⟨w, hw, ⟨_, rfl⟩ | ⟨he, rfl⟩⟩ := ringPop_next h
  · exact .plain _ rfl
  · exact .pop ch w rfl hw he rfl

theorem hostRead_effect {i : Instr} {v : Word} {s t : State} (h : hostRead v s = .next t) : HostEffect i s t := by
  cases h; exact .plain _ rfl

theorem hostIgnore_effect {i : Instr} {s t : State} (h : hostIgnore s = .next t) : HostEffect i s t := by
  cases h; exact .plain _ rfl

theorem paramWrite_effect {i : Instr} {p : ParamSet} {s t : State} (h : paramWrite p s = .next t) :
    HostEffect i s t := by
  cases h; exact .param p rfl

theorem exec_host_effect {i : Instr} {s t : State} (hi : i.isHost = true) (h : exec i s = .next t) :
    HostEffect i s t := by
  cases i
  case rdChgTac => cases h; exact .clear rfl rfl
  case rdRingPop0 => exact HostEffect.of_ringPop (ch := .left) h
  case rdRingPop1 => exact HostEffect.of_ringPop (ch := .right) h
  case rdRingStat0 | rdRingStat1 => obtain ⟨w, _, rfl⟩ := ringStat_next h; exact .plain _ rfl
  case rdRingHlen0 | rdRingHlen1 => obtain ⟨w, _, rfl⟩ := ringHlen_next h; exact .plain _ rfl
  case rdRingWin0 | rdRingWin1 => obtain ⟨w, _, rfl⟩ := ringWin_next h; exact .plain _ rfl
  case wrPkFreq | wrPkGain | wrPkQ | wrLcFreq | wrHcFreq | wrSlope | wrBypass => exact paramWrite_effect h
  all_goals first
    | exact hostRead_effect h
    | exact hostIgnore_effect h
    | (simp [Instr.isHost] at hi)

/-! ### The accumulator and one channel of a FRAME -/

/-- Everything `push` can do (42_ring R263, R272): fault on a non-code, drop, or write one slot and both pointers. -/
theorem push_ok {ch : Chan} {l l' : Lane} {m m' : Memory} {n : BitVec 13} {blk : List F32}
    (h : push ch l m n blk = .ok (l', m')) :
    ∃ r, lastPointer l.rs = some r ∧
      ((isFull l.wbin r = true ∧ l' = l ∧ m' = m) ∨
       (isFull l.wbin r = false ∧ l' = { l with wbin := inc l.wbin, wgray := g60 (inc l.wbin) } ∧
        m' = slotWrite m (slotKey ch l.wbin) n blk)) := by
  unfold push at h
  split at h
  · cases h
  · rename_i r hr
    split at h
    · rename_i hf
      cases h
      exact ⟨r, hr, .inl ⟨hf, rfl, rfl⟩⟩
    · rename_i hf
      cases h
      exact ⟨r, hr, .inr ⟨by simpa using hf, rfl, rfl⟩⟩

/-- Everything `accumulate` can do (R210): nothing on an unprepared channel, collect one sample, or collect the last
one, return the cursor to 0 and push. -/
theorem accumulate_ok {ch : Chan} {l l' : Lane} {m m' : Memory} {t : F32}
    (h : accumulate ch l m t = .ok (l', m')) :
    (l.prep = false ∧ l' = l ∧ m' = m) ∨
    (l.prep = true ∧ l.cur.toNat + 1 ≠ l.bsz.toNat ∧ m' = m ∧
      l' = { l with abuf := abufWrite ch l.abuf l.cur.toNat t, cur := l.cur + 1#13 }) ∨
    (l.prep = true ∧ l.cur.toNat + 1 = l.bsz.toNat ∧
      push ch { l with abuf := abufWrite ch l.abuf l.cur.toNat t, cur := 0#13 } m l.bsz
        (abufBlock ch (abufWrite ch l.abuf l.cur.toNat t) l.bsz.toNat) = .ok (l', m')) := by
  unfold accumulate at h
  simp only at h
  split at h
  · rename_i hp
    cases h
    exact .inl ⟨by simpa using hp, rfl, rfl⟩
  · rename_i hp
    have hp' : l.prep = true := by simpa using hp
    split at h
    · rename_i hc
      exact .inr (.inr ⟨hp', hc, h⟩)
    · rename_i hc
      cases h
      exact .inr (.inl ⟨hp', hc, rfl, rfl⟩)

/-- One channel of a FRAME that did not fault: its output is the chain's, and its registers come from `accumulate`. -/
theorem laneFrame_ok {s : State} {ch : Chan} {x y : F32} {m m' : Memory} {l : Lane}
    (h : laneFrame s ch x m = .ok (y, l, m')) :
    y = (chain s.a ch x).1 ∧
      accumulate ch { s.a.lane.get ch with st := (chain s.a ch x).2 } m (tapOf s.cfg.accTap x y) = .ok (l, m') := by
  unfold laneFrame at h
  simp only at h
  split at h
  · rename_i lm hacc
    cases h
    exact ⟨rfl, hacc⟩
  · cases h

/-- A FRAME that answers next: both channels went through, the second on the memory the first left. -/
theorem execFrame_next {x0 x1 : F32} {s t : State} (h : execFrame x0 x1 s = .next t) :
    ∃ y0 l0 m0 y1 l1 m1, laneFrame s .left x0 s.mem = .ok (y0, l0, m0) ∧ laneFrame s .right x1 m0 = .ok (y1, l1, m1) ∧
      t = aCommit s
        { s.a with lane := ⟨l0, l1⟩, accErr := s.a.accErr || !s.a.lane.left.prep || !s.a.lane.right.prep }
        m1 (some (y0, y1)) := by
  unfold execFrame at h
  split at h
  · cases h
  · rename_i y0 l0 m0 h0
    split at h
    · cases h
    · rename_i y1 l1 m1 h1
      cases h
      exact ⟨y0, l0, m0, y1, l1, m1, h0, h1, rfl⟩

/-- Everything an AUDIO operation can do (41_audio_engine R207 to R212). -/
inductive AudioEffect (i : Instr) (s t : State) : Prop where
  | nothing (h : t = aIdle s)
  | prepare (n : Word) (m : BitVec 2) (hi : i = .prepare n m) (h : execPrepare n m s = .next t)
  | block (fs : F32) (hi : i = .blockStart fs) (h : t = aCommit s (loadBlock s.a s.a.live fs) s.mem none)
  | frame (x0 x1 : F32) (hi : i = .frame x0 x1) (h : execFrame x0 x1 s = .next t)

theorem exec_audio_effect {i : Instr} {s t : State} (hi : i.isHost = false) (h : exec i s = .next t) :
    AudioEffect i s t := by
  cases i
  case prepare n m => exact .prepare n m rfl h
  case blockStart fs => cases h; exact .block fs rfl rfl
  case frame x0 x1 => exact .frame x0 x1 rfl h
  case nop | rsvKind4 | rsvKind5 | rsvKind6 | rsvKind7 | rsvKind8 | rsvKind9 | rsvKindA | rsvKindB | rsvKindC | rsvKindD
      | rsvKindE | rsvKindF => cases h; exact .nothing rfl
  all_goals simp [Instr.isHost] at hi

end Sys2Proof.Machine
end

