-- ==== Sys2Proof/Laws/PerInstr.lean ====
section
/-! SUPPORT. The family PortMatches, per instruction: the encoder puts an instruction's word on the interface the
instruction belongs to (30_encoding R120), one lemma per constructor. -/

namespace Sys2Proof

/-- The word is a HOSTBUS word. -/
def PortWord.isHost : PortWord → Bool
  | .host _ => true
  | .audio _ => false

namespace Laws.PortMatches

/-- The encoded word of `i` is on the interface of `i`. -/
def Statement (i : Instr) : Prop := (encode i).isHost = i.isHost

theorem rdId : Statement (.rdId) := rfl
theorem rdCaps : Statement (.rdCaps) := rfl
theorem rdStatus : Statement (.rdStatus) := rfl
theorem wrPkFreq (d : Word) : Statement (.wrPkFreq d) := rfl
theorem rdPkFreq : Statement (.rdPkFreq) := rfl
theorem wrPkGain (d : Word) : Statement (.wrPkGain d) := rfl
theorem rdPkGain : Statement (.rdPkGain) := rfl
theorem wrPkQ (d : Word) : Statement (.wrPkQ d) := rfl
theorem rdPkQ : Statement (.rdPkQ) := rfl
theorem wrLcFreq (d : Word) : Statement (.wrLcFreq d) := rfl
theorem rdLcFreq : Statement (.rdLcFreq) := rfl
theorem wrHcFreq (d : Word) : Statement (.wrHcFreq d) := rfl
theorem rdHcFreq : Statement (.rdHcFreq) := rfl
theorem wrSlope (d : Word) : Statement (.wrSlope d) := rfl
theorem rdSlope : Statement (.rdSlope) := rfl
theorem wrBypass (d : Word) : Statement (.wrBypass d) := rfl
theorem rdBypass : Statement (.rdBypass) := rfl
theorem rdChgPeek : Statement (.rdChgPeek) := rfl
theorem rdChgTac : Statement (.rdChgTac) := rfl
theorem rdRingStat0 : Statement (.rdRingStat0) := rfl
theorem rdRingHlen0 : Statement (.rdRingHlen0) := rfl
theorem rdRingPop0 : Statement (.rdRingPop0) := rfl
theorem rdRingStat1 : Statement (.rdRingStat1) := rfl
theorem rdRingHlen1 : Statement (.rdRingHlen1) := rfl
theorem rdRingPop1 : Statement (.rdRingPop1) := rfl
theorem rdRingWin0 (i : BitVec 12) : Statement (.rdRingWin0 i) := rfl
theorem rdRingWin1 (i : BitVec 12) : Statement (.rdRingWin1 i) := rfl
theorem wrRoId (d : Word) : Statement (.wrRoId d) := rfl
theorem wrRoCaps (d : Word) : Statement (.wrRoCaps d) := rfl
theorem wrRoStatus (d : Word) : Statement (.wrRoStatus d) := rfl
theorem wrRoChgPeek (d : Word) : Statement (.wrRoChgPeek d) := rfl
theorem wrRoChgTac (d : Word) : Statement (.wrRoChgTac d) := rfl
theorem wrRoRingStat0 (d : Word) : Statement (.wrRoRingStat0 d) := rfl
theorem wrRoRingHlen0 (d : Word) : Statement (.wrRoRingHlen0 d) := rfl
theorem wrRoRingPop0 (d : Word) : Statement (.wrRoRingPop0 d) := rfl
theorem wrRoRingStat1 (d : Word) : Statement (.wrRoRingStat1 d) := rfl
theorem wrRoRingHlen1 (d : Word) : Statement (.wrRoRingHlen1 d) := rfl
theorem wrRoRingPop1 (d : Word) : Statement (.wrRoRingPop1 d) := rfl
theorem wrRoRingWin0 (i : BitVec 12) (d : Word) : Statement (.wrRoRingWin0 i d) := rfl
theorem wrRoRingWin1 (i : BitVec 12) (d : Word) : Statement (.wrRoRingWin1 i d) := rfl
theorem rdRsv (a : BitVec 14) : Statement (.rdRsv a) := rfl
theorem wrRsv (a : BitVec 14) (d : Word) : Statement (.wrRsv a d) := rfl
theorem nop : Statement (.nop) := rfl
theorem prepare (n : Word) (m : BitVec 2) : Statement (.prepare n m) := rfl
theorem blockStart (fs : F32) : Statement (.blockStart fs) := rfl
theorem frame (x0 x1 : F32) : Statement (.frame x0 x1) := rfl
theorem rsvKind4 : Statement (.rsvKind4) := rfl
theorem rsvKind5 : Statement (.rsvKind5) := rfl
theorem rsvKind6 : Statement (.rsvKind6) := rfl
theorem rsvKind7 : Statement (.rsvKind7) := rfl
theorem rsvKind8 : Statement (.rsvKind8) := rfl
theorem rsvKind9 : Statement (.rsvKind9) := rfl
theorem rsvKindA : Statement (.rsvKindA) := rfl
theorem rsvKindB : Statement (.rsvKindB) := rfl
theorem rsvKindC : Statement (.rsvKindC) := rfl
theorem rsvKindD : Statement (.rsvKindD) := rfl
theorem rsvKindE : Statement (.rsvKindE) := rfl
theorem rsvKindF : Statement (.rsvKindF) := rfl

end Laws.PortMatches

end Sys2Proof
end

