-- ==== Sys2Proof/Laws/Pseudo.lean ====
section
/-! SUPPORT. What running a list of edges can do (43_clock_steps R310), for proofs about the sequences of 30_encoding
R131. -/

namespace Sys2Proof.Machine

open Sys2Proof

@[simp] theorem runEdges_nil (s : State) : runEdges [] s = .next s := rfl

/-- The first edge, then the rest. -/
theorem runEdges_cons_next {e : Edge} {es : List Edge} {s t : State}
    (h : runEdge { s with pending := e :: s.pending } e = .next t) : runEdges (e :: es) s = runEdges es t := by
  simp only [runEdges, h]

/-- Two lists of edges one after the other. -/
theorem runEdges_append {es fs : List Edge} {s t : State} (h : runEdges es s = .next t) :
    runEdges (es ++ fs) s = runEdges fs t := by
  induction es generalizing s with
  | nil => cases h; rfl
  | cons e es ih =>
    simp only [List.cons_append, runEdges] at h ⊢
    split at h
    · cases h
    · cases h
    · exact ih h

/-- What holds of a state and is kept by every harmless edge holds after all of them; and none of them stops. -/
theorem runEdges_induct {P : State → Prop} {es : List Edge} {s : State} (h0 : P s)
    (hstep : ∀ (u : State) (e : Edge), e ∈ es → P u →
      ∃ v, runEdge { u with pending := e :: u.pending } e = .next v ∧ P v) :
    ∃ t, runEdges es s = .next t ∧ P t := by
  induction es generalizing s with
  | nil => exact ⟨s, rfl, h0⟩
  | cons e es ih =>
    obtain ⟨v, hv, hp⟩ := hstep s e (List.mem_cons_self ..) h0
    obtain ⟨t, ht, hpt⟩ := ih hp (fun u e' he' => hstep u e' (List.mem_cons_of_mem _ he'))
    exact ⟨t, (runEdges_cons_next hv).trans ht, hpt⟩

end Sys2Proof.Machine
end

