-- ==== Sys2Proof/Tests/Slice0.lean ====
section
/-! SUPPORT. The model's own tests: small steps whose expected values come from 95_test_vectors (named in each docstring)
or by hand from the rule named, the refusals of the well-formedness check, and a witness for the hypotheses of every
statement. -/

namespace Sys2Proof.Tests

set_option Elab.async false

open Sys2Proof Sys2Proof.Machine Sys2Proof.Claims

/-! ### Helpers -/

/-- The next state, none where the machine stops. -/
def nextOf (o : Host.Outcome State Fault Refusal) : Option State :=
  match o with
  | .next t => some t
  | .fault _ => none
  | .refused _ => none

/-- An operation that completes has a next state. -/
theorem completes_of {o : Host.Outcome State Fault Refusal} (h : (nextOf o).isSome = true) : ∃ t, o = .next t := by
  cases o with
  | next t => exact ⟨t, rfl⟩
  | fault _ => cases h
  | refused _ => cases h

/-- A fact about the next state. -/
def holds (o : Host.Outcome State Fault Refusal) (p : State → Bool) : Bool := ((nextOf o).map p).getD false

/-- The machine after reset. -/
def fresh : State := State.reset

/-- `fresh` with other read sides. -/
def rings (s : State) (f : ReadSide → ReadSide) : State :=
  { s with h := { s.h with ring := ⟨f s.h.ring.left, f s.h.ring.right⟩ } }

/-- `fresh` with other lanes. -/
def lanes (s : State) (f : Lane → Lane) : State :=
  { s with a := { s.a with lane := ⟨f s.a.lane.left, f s.a.lane.right⟩ } }

/-- `s` with another host store. -/
def stored (s : State) (p : ParamSet) : State := { s with h := { s.h with shadow := p } }

/-- `s` with another live set. -/
def living (s : State) (p : ParamSet) : State := { s with a := { s.a with live := p } }

/-- `s` with the given events presented. -/
def presented (s : State) (es : List Edge) : State := { s with pending := es }

/-- Captures that all resolve to the old value. -/
def oldCaptures : Config.Capture := ⟨⟨true, true⟩, ⟨true, true⟩, true, true, true, true⟩

/-- `fresh` with the changed flag cleared, the state after H8. -/
def unchanged : State := { fresh with h := { fresh.h with changed := false } }

/-- Program 1 before step 8: each ring shows one block of four samples. -/
def oneBlock : State :=
  let r := rings fresh (fun x => { x with ws := [0x02#6, 0x02#6] })
  let l := lanes r (fun x => { x with
    prep := true, bsz := 4#13, wbin := 1, wgray := 0x02#6,
    abuf := [0x3F800000#32, 0x40000000#32, 0x40400000#32, 0x40800000#32] })
  { l with mem := [
    (0, { len := 4#13, data := [0x3F800000#32, 0x40000000#32, 0x40400000#32, 0x40800000#32] }),
    (30, { len := 4#13, data := [0xBF800000#32, 0xC0000000#32, 0xC0400000#32, 0xC0800000#32] })] }

/-- Program 3 after step 34: both rings full of one-sample blocks, block k in slot k. -/
def fullRings : State :=
  let r := rings fresh (fun x => { x with ws := [0x30#6, 0x30#6] })
  let l := lanes r (fun x => { x with prep := true, bsz := 1#13, wbin := 30, wgray := 0x30#6, abuf := [0x41F00000#32] })
  { l with mem := (List.range 60).map (fun k => (k, { len := 1#13, data := [BitVec.ofNat 32 k] })) }

/-- E30: both channels prepared for three samples and two of them collected. -/
def twoOfThree : State :=
  lanes fresh (fun x => { x with
    prep := true, bsz := 3#13, cur := 2#13, abuf := [0x3F800000#32, 0x40000000#32] })

/-- Only the peak stage active, with the coefficients of E1. -/
def peakOnly : State :=
  { fresh with a := { fresh.a with
      bypPk := false
      coef := fresh.a.coef.set .pk ⟨0x3F000000#32, 0x3E800000#32, 0x3E000000#32, 0xBF000000#32, 0x3E800000#32⟩ } }

/-- `peakOnly` with a NaN in the peak stage of each channel. -/
def poisoned (st : StageState) : State := lanes peakOnly (fun l => { l with st := l.st.set .pk st })

/-- `fresh` with no pointer code in any pointer synchroniser, every channel about to complete a block. -/
def uncoded : State :=
  lanes (rings fresh (fun x => { x with ws := [0x00#6, 0x00#6] })) (fun x => { x with
    prep := true, bsz := 1#13, cur := 0#13, rs := [0x21#6, 0x21#6] })

/-- `uncoded` with the left channel's producer side in order, so that only the right channel lacks a code. -/
def rightUncoded : State :=
  { uncoded with a := { uncoded.a with lane := uncoded.a.lane.set .left { uncoded.a.lane.left with rs := [0x03#6, 0x03#6] } } }

/-! ### Well-formedness -/

/-- R82: the one ill-formed kind of read, a mapped register named as a reserved one. -/
theorem test_wellformed_refuses_mapped_read : (Instr.rdRsv 0x0000#14).wellFormed = false := by decide

/-- R82: the one ill-formed kind of write. -/
theorem test_wellformed_refuses_mapped_write : (Instr.wrRsv 0x0045#14 0#32).wellFormed = false := by decide

/-- R82: a window word is not reserved either. -/
theorem test_wellformed_refuses_window : (Instr.rdRsv 0x2FFF#14).wellFormed = false := by decide

/-- R82: both ends of every reserved range. -/
theorem test_wellformed_accepts_reserved :
    ([0x0003#14, 0x003F#14, 0x0047#14, 0x004A#14, 0x007F#14, 0x0083#14, 0x0087#14] ++
      [0x008B#14, 0x0FFF#14, 0x3000#14, 0x3FFF#14]).all (fun a => (Instr.rdRsv a).wellFormed) = true := by decide

/-! ### Decoding -/

/-- The words of the HOSTBUS reads from R124 and R81: W = 0 and the register address; the last window index. -/
def hostReadWords : List (BitVec 64 × Instr) :=
   [(0x0000000000000000#64, Instr.rdId),
    (0x0000000400000000#64, Instr.rdCaps),
    (0x0000000800000000#64, Instr.rdStatus),
    (0x0000010000000000#64, Instr.rdPkFreq),
    (0x0000010400000000#64, Instr.rdPkGain),
    (0x0000010800000000#64, Instr.rdPkQ)] ++
   [(0x0000010C00000000#64, Instr.rdLcFreq),
    (0x0000011000000000#64, Instr.rdHcFreq),
    (0x0000011400000000#64, Instr.rdSlope),
    (0x0000011800000000#64, Instr.rdBypass),
    (0x0000012000000000#64, Instr.rdChgPeek),
    (0x0000012400000000#64, Instr.rdChgTac)] ++
   [(0x0000020000000000#64, Instr.rdRingStat0),
    (0x0000020400000000#64, Instr.rdRingHlen0),
    (0x0000020800000000#64, Instr.rdRingPop0),
    (0x0000022000000000#64, Instr.rdRingStat1),
    (0x0000022400000000#64, Instr.rdRingHlen1),
    (0x0000022800000000#64, Instr.rdRingPop1)] ++
   [(0x00007FFC00000000#64, Instr.rdRingWin0 0xFFF#12),
    (0x0000BFFC00000000#64, Instr.rdRingWin1 0xFFF#12),
    (0x0000011C00000000#64, Instr.rdRsv 0x0047#14)]

theorem test_decode_host_read_words : hostReadWords.all (fun r => decide (decodeHost r.1 = r.2)) = true := by decide +kernel

/-- The words of the HOSTBUS writes from R124 and R81: W = 1, the register address, D = 0x12345678. -/
def hostWriteWords : List (BitVec 64 × Instr) :=
   [(0x8000010012345678#64, Instr.wrPkFreq 0x12345678#32),
    (0x8000010412345678#64, Instr.wrPkGain 0x12345678#32),
    (0x8000010812345678#64, Instr.wrPkQ 0x12345678#32),
    (0x8000010C12345678#64, Instr.wrLcFreq 0x12345678#32),
    (0x8000011012345678#64, Instr.wrHcFreq 0x12345678#32),
    (0x8000011412345678#64, Instr.wrSlope 0x12345678#32)] ++
   [(0x8000011812345678#64, Instr.wrBypass 0x12345678#32),
    (0x8000000012345678#64, Instr.wrRoId 0x12345678#32),
    (0x8000000412345678#64, Instr.wrRoCaps 0x12345678#32),
    (0x8000000812345678#64, Instr.wrRoStatus 0x12345678#32),
    (0x8000012012345678#64, Instr.wrRoChgPeek 0x12345678#32),
    (0x8000012412345678#64, Instr.wrRoChgTac 0x12345678#32)] ++
   [(0x8000020012345678#64, Instr.wrRoRingStat0 0x12345678#32),
    (0x8000020412345678#64, Instr.wrRoRingHlen0 0x12345678#32),
    (0x8000020812345678#64, Instr.wrRoRingPop0 0x12345678#32),
    (0x8000022012345678#64, Instr.wrRoRingStat1 0x12345678#32),
    (0x8000022412345678#64, Instr.wrRoRingHlen1 0x12345678#32),
    (0x8000022812345678#64, Instr.wrRoRingPop1 0x12345678#32)] ++
   [(0x80007FFC12345678#64, Instr.wrRoRingWin0 0xFFF#12 0x12345678#32),
    (0x8000BFFC12345678#64, Instr.wrRoRingWin1 0xFFF#12 0x12345678#32),
    (0x8000FFFC12345678#64, Instr.wrRsv 0x3FFF#14 0x12345678#32)]

theorem test_decode_host_write_words : hostWriteWords.all (fun r => decide (decodeHost r.1 = r.2)) = true := by decide +kernel

/-- The AUDIO words of R126: KIND, then X0 = 0x80000001 and X1 = 0x7FFFFFFE. -/
def audioWords : List (BitVec 72 × Instr) :=
   [(0x00800000017FFFFFFE#72, Instr.nop),
    (0x10800000017FFFFFFE#72, Instr.prepare 0x80000001#32 2#2),
    (0x20800000017FFFFFFE#72, Instr.blockStart 0x80000001#32),
    (0x30800000017FFFFFFE#72, Instr.frame 0x80000001#32 0x7FFFFFFE#32),
    (0x40800000017FFFFFFE#72, Instr.rsvKind4),
    (0x50800000017FFFFFFE#72, Instr.rsvKind5)] ++
   [(0x60800000017FFFFFFE#72, Instr.rsvKind6),
    (0x70800000017FFFFFFE#72, Instr.rsvKind7),
    (0x80800000017FFFFFFE#72, Instr.rsvKind8),
    (0x90800000017FFFFFFE#72, Instr.rsvKind9),
    (0xA0800000017FFFFFFE#72, Instr.rsvKindA),
    (0xB0800000017FFFFFFE#72, Instr.rsvKindB)] ++
   [(0xC0800000017FFFFFFE#72, Instr.rsvKindC),
    (0xD0800000017FFFFFFE#72, Instr.rsvKindD),
    (0xE0800000017FFFFFFE#72, Instr.rsvKindE),
    (0xF0800000017FFFFFFE#72, Instr.rsvKindF)]

theorem test_decode_audio_words : audioWords.all (fun r => decide (decodeAudio r.1 = r.2)) = true := by decide +kernel

/-- X7, X8, X10: ignored bits of a HOSTBUS word. -/
theorem test_decode_ignores_reserved_bits :
    decodeHost 0x0000000300000000#64 = .rdId ∧ decodeHost 0x0000C00000000000#64 = .rdRsv 0x3000#14 ∧
    decodeHost 0x7FFF000000000000#64 = .rdId := by decide

/-- E29: only X1[1:0] of a PREPARE counts. -/
theorem test_decode_prepare_mask : decodeAudio 0x1F00000004FFFFFFFD#72 = .prepare 4#32 1#2 := by decide

/-- R120: 64 bits are a HOSTBUS word, 72 an AUDIO word, wider bits neither. -/
theorem test_decode_table_word :
    decodeTableWord 64 0x8000010C42C80000 = some (.wrLcFreq 0x42C80000#32) ∧
    decodeTableWord 72 0x20473B800000000000 = some (.blockStart 0x473B8000#32) ∧
    decodeTableWord 80 0x20473B800000000000 = none := by decide

/-- H1 through `step`: the word presented first is the one that runs. -/
theorem test_step_runs_fetch_word :
    holds (step (fresh.withFetchWord 64 0)) (fun t => decide (t.hostOut = some 0x59544251#32)) = true := by
  decide +kernel

/-- R310 through `step`: an AUDIO word (E17). -/
theorem test_step_runs_audio_word :
    holds (step (fresh.withFetchWord 72 0x303F000000BE800000))
      (fun t => decide (t.audioOut = some (0x3F000000#32, 0xBE800000#32))) = true := by
  decide +kernel

/-! ### Host registers -/

/-- H1, H2. -/
theorem test_id_and_caps :
    holds (exec .rdId fresh) (fun t => decide (t.hostOut = some 0x59544251#32)) = true ∧
    holds (exec .rdCaps fresh) (fun t => decide (t.hostOut = some 0x241E0400#32)) = true := by decide +kernel

/-- H3, and Program 4 step 8. -/
theorem test_status :
    holds (exec .rdStatus fresh) (fun t => decide (t.hostOut = some 0x00000000#32)) = true ∧
    holds (exec .rdStatus { fresh with h := { fresh.h with accerrS := [true, true], cfgerrS := [true, true] } })
      (fun t => decide (t.hostOut = some 0x00000003#32)) = true := by decide +kernel

/-- H18: PARAM_PENDING after a parameter write. -/
theorem test_status_pending :
    holds (exec .rdStatus { fresh with h := { fresh.h with dirty := true } })
      (fun t => decide (t.hostOut = some 0x00000100#32)) = true := by decide +kernel

/-- H4 to H6: the seven parameter reads after reset. -/
theorem test_parameter_reads :
    ([(Instr.rdPkFreq, 0x443B8000#32), (.rdPkGain, 0x00000000#32), (.rdPkQ, 0x3F800000#32), (.rdLcFreq, 0x41A00000#32),
      (.rdHcFreq, 0x469C4000#32), (.rdSlope, 0x00000000#32), (.rdBypass, 0x00000000#32)]).all
      (fun r => holds (exec r.1 fresh) (fun t => decide (t.hostOut = some r.2))) = true := by decide +kernel

/-- H14: WR.PK_FREQ, and R165: the flag and the dirty bit. -/
theorem test_write_pk_freq :
    holds (exec (.wrPkFreq 0x447A0000#32) unchanged) (fun t => decide (t.h.shadow.pkFreq = 0x447A0000#32) &&
      t.h.changed && t.h.dirty && decide (t.hostOut = none)) = true := by decide +kernel

/-- R168, R170: each write reaches its own field only. -/
theorem test_write_pk_gain_and_q :
    holds (exec (.wrPkGain 5#32) fresh) (fun t => decide (t.h.shadow = { paramDefault with pkGain := 5#32 })) = true ∧
    holds (exec (.wrPkQ 6#32) fresh) (fun t => decide (t.h.shadow = { paramDefault with pkQ := 6#32 })) = true := by
  decide +kernel

/-- R172, R174. -/
theorem test_write_cut_frequencies :
    holds (exec (.wrLcFreq 7#32) fresh) (fun t => decide (t.h.shadow = { paramDefault with lcFreq := 7#32 })) = true ∧
    holds (exec (.wrHcFreq 8#32) fresh) (fun t => decide (t.h.shadow = { paramDefault with hcFreq := 8#32 })) = true := by
  decide +kernel

/-- H12: all ones, then 1 in bits 1:0 alone, so that the two fields cannot be exchanged. -/
theorem test_write_slope :
    holds (exec (.wrSlope 0xFFFFFFFF#32) unchanged)
      (fun t => decide (t.h.shadow.lcSlope = 3#2) && decide (t.h.shadow.hcSlope = 3#2)) = true ∧
    holds (exec (.wrSlope 0x00000001#32) unchanged)
      (fun t => decide (t.h.shadow.lcSlope = 1#2) && decide (t.h.shadow.hcSlope = 0#2)) = true := by decide +kernel

/-- H12 (readback) and R177's bit places. -/
theorem test_read_slope :
    holds (exec .rdSlope (stored fresh { paramDefault with lcSlope := 3#2, hcSlope := 3#2 }))
      (fun t => decide (t.hostOut = some 0x00000303#32)) = true ∧
    holds (exec .rdSlope (stored fresh { paramDefault with lcSlope := 1#2, hcSlope := 2#2 }))
      (fun t => decide (t.hostOut = some 0x00000201#32)) = true := by decide +kernel

/-- H13, and D[1] alone. -/
theorem test_write_bypass :
    holds (exec (.wrBypass 0xFFFFFFFF#32) fresh)
      (fun t => t.h.shadow.lcByp && t.h.shadow.pkByp && t.h.shadow.hcByp) = true ∧
    holds (exec (.wrBypass 0x00000002#32) fresh)
      (fun t => !t.h.shadow.lcByp && t.h.shadow.pkByp && !t.h.shadow.hcByp) = true := by decide +kernel

/-- H13 (readback) and R179's bit places. -/
theorem test_read_bypass :
    holds (exec .rdBypass (stored fresh { paramDefault with lcByp := true, pkByp := true, hcByp := true }))
      (fun t => decide (t.hostOut = some 0x00000007#32)) = true ∧
    holds (exec .rdBypass (stored fresh { paramDefault with hcByp := true }))
      (fun t => decide (t.hostOut = some 0x00000004#32)) = true := by decide +kernel

/-- H7. -/
theorem test_chg_peek :
    holds (exec .rdChgPeek fresh) (fun t => decide (t.hostOut = some 1#32) && t.h.changed) = true := by decide +kernel

/-- H8: the first and the second CHG_TAC. -/
theorem test_chg_tac :
    holds (exec .rdChgTac fresh) (fun t => decide (t.hostOut = some 1#32) && !t.h.changed) = true ∧
    holds (exec .rdChgTac unchanged) (fun t => decide (t.hostOut = some 0#32) && !t.h.changed) = true := by
  decide +kernel

/-- H15. -/
theorem test_reserved_read :
    holds (exec (.rdRsv 0x0003#14) oneBlock) (fun t => decide (t.hostOut = some 0#32)) = true := by decide +kernel

/-- The register state that H9 to H11 watch, beside an idle H step: nothing but the synchronisers moves. -/
def untouched (s t : State) : Bool :=
  decide (t.h.shadow = s.h.shadow) && decide (t.h.changed = s.h.changed) && decide (t.h.dirty = s.h.dirty) &&
    decide (t.h.ring.left.rbin = s.h.ring.left.rbin) && decide (t.h.ring.right.rbin = s.h.ring.right.rbin) &&
    decide (t.hostOut = none) && decide (t.a = s.a) && decide (t.mem = s.mem)

/-- H9 to H11 and R164, R183: no write to a read-only or reserved address does anything, with data all ones. -/
theorem test_ignored_writes :
    let d := 0xFFFFFFFF#32
    ([Instr.wrRoId d, .wrRoCaps d, .wrRoStatus d, .wrRoChgPeek d, .wrRoChgTac d, .wrRoRingStat0 d, .wrRoRingHlen0 d] ++
      [Instr.wrRoRingPop0 d, .wrRoRingStat1 d, .wrRoRingHlen1 d, .wrRoRingPop1 d, .wrRoRingWin0 0 d, .wrRoRingWin1 0 d] ++
      [Instr.wrRsv 0x0047#14 d]).all (fun i => holds (exec i oneBlock) (untouched oneBlock)) = true := by decide +kernel

/-! ### Rings -/

/-- H16, and G3: LEVEL 30. -/
theorem test_ring_stat_left :
    holds (exec .rdRingStat0 fresh) (fun t => decide (t.hostOut = some 0x00000100#32)) = true ∧
    holds (exec .rdRingStat0 (rings fresh (fun x => { x with ws := [0x31#6, 0x31#6], rbin := 1 })))
      (fun t => decide (t.hostOut = some 0x0000001E#32)) = true := by decide +kernel

/-- Program 1 step 17. -/
theorem test_ring_stat_right :
    holds (exec .rdRingStat1 oneBlock) (fun t => decide (t.hostOut = some 0x00000001#32)) = true := by decide +kernel

/-- H16, and Program 1 step 9. -/
theorem test_ring_hlen_left :
    holds (exec .rdRingHlen0 fresh) (fun t => decide (t.hostOut = some 0#32)) = true ∧
    holds (exec .rdRingHlen0 oneBlock) (fun t => decide (t.hostOut = some 4#32)) = true := by decide +kernel

/-- Program 3 step 36, on the other ring (R266). -/
theorem test_ring_hlen_right :
    holds (exec .rdRingHlen1 fullRings) (fun t => decide (t.hostOut = some 1#32)) = true := by decide +kernel

/-- H17, and Program 1 step 15. -/
theorem test_ring_pop_left :
    holds (exec .rdRingPop0 fresh) (fun t => decide (t.hostOut = some 0#32) && decide (t.h.ring.left.rbin = 0)) = true ∧
    holds (exec .rdRingPop0 oneBlock) (fun t => decide (t.hostOut = some 1#32) && decide (t.h.ring.left.rbin = 1) &&
      decide (t.h.ring.left.rgray = 0x02#6) && decide (t.h.ring.right.rbin = 0)) = true := by decide +kernel

/-- R268 at the wrap: from pointer 59 to 0, whose code is 0x03 (G1). -/
theorem test_ring_pop_right :
    holds (exec .rdRingPop1 (rings oneBlock (fun x => { x with rbin := 59, rgray := 0x23#6 })))
      (fun t => decide (t.h.ring.right.rbin = 0) && decide (t.h.ring.right.rgray = 0x03#6) &&
        decide (t.h.ring.left.rbin = 59)) = true := by decide +kernel

/-- Program 1 steps 13 and 14. -/
theorem test_ring_win_left :
    holds (exec (.rdRingWin0 3#12) oneBlock) (fun t => decide (t.hostOut = some 0x40800000#32)) = true ∧
    holds (exec (.rdRingWin0 4#12) oneBlock) (fun t => decide (t.hostOut = some 0#32)) = true := by decide +kernel

/-- Program 1 step 18, and G4: the last index. -/
theorem test_ring_win_right :
    holds (exec (.rdRingWin1 0#12) oneBlock) (fun t => decide (t.hostOut = some 0xBF800000#32)) = true ∧
    holds (exec (.rdRingWin1 0xFFF#12) oneBlock) (fun t => decide (t.hostOut = some 0#32)) = true := by decide +kernel

/-- G1. -/
theorem test_gray_codes :
    [g60 0, g60 1, g60 29, g60 30, g60 31, g60 59] = [0x03#6, 0x02#6, 0x10#6, 0x30#6, 0x31#6, 0x23#6] ∧
    g60inv 0x30#6 = some 30 ∧ g60inv 0x23#6 = some 59 := by decide

/-- G2. -/
theorem test_full_test : isFull 30 0 = true ∧ isFull 30 1 = false ∧ isFull 0 30 = true := by decide

/-! ### Background logic -/

/-- Program 2 step 4: a write at a transfer carries the pre-step store and leaves the dirty bit set (K3). -/
theorem test_transfer_at_write :
    holds (exec (.wrSlope 1#32) { stored fresh { paramDefault with lcFreq := 0x42C80000#32 } with
        h := { (stored fresh { paramDefault with lcFreq := 0x42C80000#32 }).h with dirty := true } })
      (fun t => decide (t.h.mb = { paramDefault with lcFreq := 0x42C80000#32 }) && t.h.mbTog && t.h.dirty &&
        decide (t.h.shadow.lcSlope = 1#2)) = true := by decide +kernel

/-- K1: the third A step accepts the mailbox. -/
theorem test_acceptance :
    holds (exec .nop { fresh with
        h := { fresh.h with mb := { paramDefault with pkQ := 9#32 }, mbTog := true }
        a := { fresh.a with togS := [true, true] } })
      (fun t => decide (t.a.live.pkQ = 9#32) && t.a.aTog) = true := by decide +kernel

/-- K5: a fresh source captured old, then new. -/
theorem test_metastable_capture :
    let s := { oneBlock with k := { oneBlock.k with wgray := ⟨⟨0x03#6, true⟩, ⟨0x03#6, true⟩⟩ }, capture := oldCaptures }
    holds (exec .rdId s) (fun t => decide (t.h.ring.left.ws = [0x03#6, 0x02#6]) && !t.k.wgray.left.fresh) = true ∧
    holds (exec .rdId { s with capture := Config.Capture.new }) (fun t => decide (t.h.ring.left.ws = [0x02#6, 0x02#6])) =
      true := by decide +kernel

/-- Program 2 and R319: with three A edges before each read (N_SYNC + 1, the crossing of R322), `waitparams` sees a pending
store settle; with none, PARAM_PENDING stays 1. -/
theorem test_waitparams :
    let s := { fresh with h := { fresh.h with dirty := true } }
    let nops := repeated (line .nop) [oldCaptures, oldCaptures, oldCaptures]
    let settled := fun (o : Host.Outcome (State × Bool) Fault Refusal) =>
      match o with
      | .next (_, b) => b
      | .fault _ => false
      | .refused _ => false
    settled (waitParams (List.replicate 8 (nops, Config.Capture.new)) s) = true ∧
    settled (waitParams (List.replicate 8 ([], Config.Capture.new)) s) = false := by decide +kernel

/-! ### Audio operations -/

/-- Program 2 step 6: the toggle synchroniser shifts at a NOP. -/
theorem test_nop :
    holds (exec .nop { fresh with h := { fresh.h with mbTog := true } })
      (fun t => decide (t.a.togS = [true, false]) && decide (t.audioOut = none)) = true := by decide +kernel

/-- E34, X15: a reserved kind does to the A domain what E34 says, nothing; all twelve. -/
theorem test_reserved_kinds :
    ([Instr.rsvKind4, .rsvKind5, .rsvKind6, .rsvKind7, .rsvKind8, .rsvKind9] ++
      [Instr.rsvKindA, .rsvKindB, .rsvKindC, .rsvKindD, .rsvKindE, .rsvKindF]).all
      (fun i => holds (exec i twoOfThree) (fun t => decide (t.audioOut = none) &&
        decide (t.a = twoOfThree.a) && decide (t.mem = twoOfThree.mem))) = true := by decide +kernel

/-- E25, E26: invalid lengths. -/
theorem test_prepare_invalid :
    holds (exec (.prepare 0#32 3#2) fresh) (fun t => !t.a.lane.left.prep && !t.a.lane.right.prep && t.a.accErr) = true ∧
    holds (exec (.prepare 1025#32 1#2) twoOfThree) (fun t => !t.a.lane.left.prep && decide (t.a.lane.left.bsz = 0#13) &&
      t.a.lane.right.prep && t.a.accErr) = true := by decide +kernel

/-- E27, and E32's PREPARE: the other channel keeps its block. -/
theorem test_prepare_valid :
    holds (exec (.prepare 1024#32 2#2) fresh) (fun t => !t.a.lane.left.prep && t.a.lane.right.prep &&
      decide (t.a.lane.right.bsz = 1024#13) && !t.a.accErr) = true ∧
    holds (exec (.prepare 2#32 1#2) twoOfThree) (fun t => decide (t.a.lane.left.cur = 0#13) &&
      decide (t.a.lane.left.bsz = 2#13) && decide (t.a.lane.right.cur = 2#13)) = true := by decide +kernel

/-- The nine activity bits of a state. -/
def activity (t : State) : List Bool := stageOrder.map (act t.a)

/-- E11, E13: slopes 1, 2 and 3, 0. -/
theorem test_block_start_slopes :
    holds (exec (.blockStart 0x473B8000#32) (living fresh { paramDefault with lcSlope := 1#2, hcSlope := 2#2 }))
      (fun t => decide (activity t = [true, true, false, false, true, true, true, true, false]) && !t.a.cfgErr) = true ∧
    holds (exec (.blockStart 0x473B8000#32) (living fresh { paramDefault with lcSlope := 3#2 }))
      (fun t => decide (activity t = [true, true, true, true, true, true, false, false, false])) = true := by
  decide +kernel

/-- E14, E15: bypass flags. -/
theorem test_block_start_bypass :
    holds (exec (.blockStart 0x473B8000#32) (living fresh { paramDefault with lcByp := true }))
      (fun t => decide (activity t = [false, false, false, false, true, true, false, false, false])) = true ∧
    holds (exec (.blockStart 0x473B8000#32) (living fresh { paramDefault with pkByp := true, hcByp := true }))
      (fun t => decide (activity t = [true, false, false, false, false, false, false, false, false])) = true := by
  decide +kernel

/-- E18 to E20f: the input contract. -/
theorem test_input_contract :
    [validConfig paramDefault 0x473B8000#32, validConfig paramDefault 0x471C4100#32] = [true, true] ∧
    [validConfig paramDefault 0x471C4000#32, validConfig paramDefault 0x46EA6000#32, validConfig paramDefault 0x00000000#32,
      validConfig paramDefault 0x7FC00000#32, validConfig { paramDefault with pkQ := 0#32 } 0x473B8000#32,
      validConfig { paramDefault with lcFreq := 0x41980000#32 } 0x473B8000#32,
      validConfig { paramDefault with pkGain := 0x7F800000#32 } 0x473B8000#32] =
      [false, false, false, false, false, false, false] := by decide +kernel

/-- E17: every stage inactive, so the samples pass bit for bit, the sign of zero and the NaN payload kept. -/
theorem test_frame_after_reset :
    holds (exec (.frame 0x80000000#32 0x7FC00001#32) fresh)
      (fun t => decide (t.audioOut = some (0x80000000#32, 0x7FC00001#32)) && t.a.accErr) = true := by decide +kernel

/-- E31: the third sample completes both blocks. -/
theorem test_frame_pushes :
    holds (exec (.frame 0x40400000#32 0#32) twoOfThree) (fun t => decide (t.a.lane.left.wbin = 1) &&
      decide (t.a.lane.left.wgray = 0x02#6) && decide (t.a.lane.left.cur = 0#13) && decide (t.a.lane.right.wbin = 1) &&
      decide (t.mem.find 0 = some { len := 3#13, data := [0x3F800000#32, 0x40000000#32, 0x40400000#32] })) = true := by
  decide +kernel

/-- Program 3 step 32: both blocks dropped, the samples still delivered. -/
theorem test_frame_drops_when_full :
    holds (exec (.frame 0x41F80000#32 0xC1F80000#32) fullRings) (fun t => decide (t.a.lane.left.wbin = 30) &&
      decide (t.mem = fullRings.mem) && decide (t.audioOut = some (0x41F80000#32, 0xC1F80000#32))) = true := by
  decide +kernel

/-- E33: one channel prepared. -/
theorem test_frame_unprepared_channel :
    holds (exec (.frame 0x3F800000#32 0x40000000#32) (Option.getD (nextOf (exec (.prepare 2#32 1#2) fresh)) fresh))
      (fun t => decide (t.audioOut = some (0x3F800000#32, 0x40000000#32)) && decide (t.a.lane.left.cur = 1#13) &&
        decide (t.a.lane.right.cur = 0#13) && t.a.accErr) = true := by decide +kernel

/-- U10: no pointer code where one is needed. -/
theorem test_uncoded_pointers_fault :
    (match exec .rdRingPop1 uncoded with | .fault f => decide (f = .writePointerNotCode .right) | _ => false) = true ∧
    (match exec (.frame 0 0) uncoded with | .fault f => decide (f = .readPointerNotCode .left) | _ => false) = true := by
  decide +kernel

/-! ### The filter -/

/-- The coefficients of E1. -/
def e1 : Coef := ⟨0x3F000000#32, 0x3E800000#32, 0x3E000000#32, 0xBF000000#32, 0x3E800000#32⟩

/-- A gain of `b` and nothing else. -/
def gain (b : F32) : Coef := ⟨b, 0, 0, 0, 0⟩

/-- The zero state. -/
def rest : StageState := ⟨0, 0⟩

/-- E1: outputs of the dyadic impulse. -/
theorem test_biquad_impulse :
    stageOutputs e1 rest [0x3F800000#32, 0, 0, 0, 0] =
      [0x3F000000#32, 0x3F000000#32, 0x3E800000#32, 0x00000000#32, 0xBD800000#32] := by decide +kernel

/-- E1: the state after the second sample. -/
theorem test_biquad_state :
    (biquad e1 ⟨0x3F000000#32, 0⟩ 0).2 = ⟨0x3E800000#32, 0xBE000000#32⟩ := by decide +kernel

/-- E2, E5, E6: rounding, no fusion, subnormals. -/
theorem test_biquad_rounding :
    (biquad (gain 0x3DCCCCCD#32) rest 0x40400000#32).1 = 0x3E99999A#32 ∧
    (biquad (gain 0x3F800001#32) ⟨0xBF800002#32, 0⟩ 0x3F800001#32).1 = 0x00000000#32 ∧
    (biquad (gain 0x00800000#32) rest 0x3F000000#32).1 = 0x00400000#32 := by decide +kernel

/-- E3, E4, E8: overflow, a NaN input, an infinite input. -/
theorem test_biquad_special :
    biquad (gain 0x7F000000#32) rest 0x40800000#32 = (0x7F800000#32, ⟨0x7FC00000#32, 0x7FC00000#32⟩) ∧
    biquad e1 rest 0x7FC00001#32 = (0x7FC00000#32, ⟨0x7FC00000#32, 0x7FC00000#32⟩) ∧
    biquad (gain 0x3F000000#32) rest 0x7F800000#32 = (0x7F800000#32, ⟨0x7FC00000#32, 0x7FC00000#32⟩) := by
  decide +kernel

/-- E7: an active identity stage turns -0 into +0. -/
theorem test_biquad_identity :
    biquad identityCoef rest 0x80000000#32 = (0x00000000#32, ⟨0x00000000#32, 0x80000000#32⟩) ∧
    (biquad identityCoef rest 0x00000001#32).1 = 0x00000001#32 := by decide +kernel

/-- R200: infinities in both orders and signed zeros, by IEEE 754. -/
theorem test_special_sums :
    [fadd 0xFF800000#32 0x7F800000#32, fsub 0xFF800000#32 0xFF800000#32, fadd 0x3F800000#32 0xFF800000#32,
      fsub 0x3F800000#32 0xFF800000#32, fadd 0x80000000#32 0x00000000#32, fsub 0x80000000#32 0x00000000#32,
      fadd 0xBF800000#32 0x3F800000#32] =
    [0x7FC00000#32, 0x7FC00000#32, 0xFF800000#32, 0x7F800000#32, 0x00000000#32, 0x80000000#32, 0x00000000#32] := by
  decide +kernel

/-- R200: zero times infinity, infinity times a number, the sign of a product that rounds to zero, by IEEE 754. -/
theorem test_special_products :
    [fmul 0x00000000#32 0xFF800000#32, fmul 0xFF800000#32 0x80000000#32, fmul 0xC0000000#32 0xFF800000#32,
      fmul 0x80000001#32 0x00000001#32] = [0x7FC00000#32, 0x7FC00000#32, 0x7F800000#32, 0x80000000#32] := by
  decide +kernel

/-- E24: two stages in order. -/
theorem test_chain_order :
    (chainRun (fun j => decide (j = .lc 0 ∨ j = .pk))
      (((Stages.all identityCoef).set (.lc 0) (gain 0x3F000000#32)).set .pk ⟨0x3F800000#32, 0x3F800000#32, 0, 0, 0⟩)
      stageOrder ((Stages.all rest).set .pk ⟨0x3F800000#32, 0⟩) 0x40800000#32).1 = 0x40400000#32 := by decide +kernel

/-! ### Witnesses: the hypotheses of every statement that has some are met by a concrete state -/

theorem inv_fresh : Inv fresh := by
  constructor <;> first | decide +kernel | (intro ch; cases ch <;> decide +kernel)

theorem inv_oneBlock : Inv oneBlock := by
  constructor <;> first | decide +kernel | (intro ch; cases ch <;> decide +kernel)

theorem inv_fullRings : Inv fullRings := by
  constructor <;> first | decide +kernel | (intro ch; cases ch <;> decide +kernel)

theorem inv_twoOfThree : Inv twoOfThree := by
  constructor <;> first | decide +kernel | (intro ch; cases ch <;> decide +kernel)

/-- Every kind of event that StepRunsThePresentedOperation names. -/
theorem witness_step_runs :
    (presented fresh [.host (some 0) oldCaptures]).pending = .host (some 0) oldCaptures :: [] ∧
    (presented fresh [.host none oldCaptures]).pending = .host none oldCaptures :: [] ∧
    (presented fresh [.audio 0 oldCaptures]).pending = .audio 0 oldCaptures :: [] ∧
    (presented fresh [.reset]).pending = .reset :: [] ∧ fresh.pending = [] := ⟨rfl, rfl, rfl, rfl, rfl⟩

theorem witness_encode : (Instr.wrRsv 0x3FFF#14 1#32).wellFormed = true ∧ (Instr.frame 1 2).wellFormed = true := by decide

/-- A word for each conditional clause of ReservedBitsAreIgnored. -/
theorem witness_reserved_bits :
    audioKind 0x1F00000004FFFFFFFD#72 = 1#4 ∧ audioKind 0x2F473B8000FFFFFFFF#72 = 2#4 ∧
    hostW 0x7FFF0000FFFFFFFF#64 = 0#1 ∧ isIgnoredWrite (decodeHost 0x80000000FFFFFFFF#64) = true ∧
    isIgnoredWrite (decodeHost 0x8000FFFCFFFFFFFF#64) = true := by decide

theorem witness_ignored_write :
    isIgnoredWrite (.wrRoId 1#32) = true ∧ isIgnoredWrite (.wrRoRingWin1 0xFFF#12 1#32) = true ∧
    isIgnoredWrite (.wrRsv 0x3FFF#14 1#32) = true := by decide

/-- A plain read, the flag read, a pop of each channel. -/
theorem witness_reads :
    (∃ t, isRead .rdCaps = true ∧ isSideEffectRead .rdCaps = false ∧ exec .rdCaps oneBlock = .next t) ∧
    (∃ t, isRead .rdChgTac = true ∧ exec .rdChgTac oneBlock = .next t) ∧
    (∃ t, isRead .rdRingPop0 = true ∧ Instr.rdRingPop0 = popOp .left ∧ exec .rdRingPop0 oneBlock = .next t) ∧
    ∃ t, isRead .rdRingPop1 = true ∧ Instr.rdRingPop1 = popOp .right ∧ exec .rdRingPop1 oneBlock = .next t :=
  ⟨⟨_, rfl, rfl, rfl⟩, ⟨_, rfl, rfl⟩, ⟨_, rfl, rfl, rfl⟩, ⟨_, rfl, rfl, rfl⟩⟩

/-- The ring reads: an empty ring, a ring with one block, a full one. -/
theorem witness_ring_views :
    (wsync fresh .left = some 0 ∧ (0 : Fin 60) = (fresh.h.ring.get .left).rbin) ∧
    (wsync oneBlock .left = some 1 ∧ (1 : Fin 60) ≠ (oneBlock.h.ring.get .left).rbin) ∧
    (wsync fullRings .right = some 30 ∧ (30 : Fin 60) ≠ (fullRings.h.ring.get .right).rbin) := by decide

/-- RING_WIN at the last word of the head block and at the first index beyond it. -/
theorem witness_window_bounds :
    (3#12).toNat < (slotTag oneBlock.mem (slotKey .left (oneBlock.h.ring.get .left).rbin)).toNat ∧
    (slotTag oneBlock.mem (slotKey .left (oneBlock.h.ring.get .left).rbin)).toNat ≤ (4#12).toNat := by decide

/-- A synchroniser that holds no code, on both sides and both channels. -/
theorem witness_uncoded :
    (∀ ch, wsync uncoded ch = none) ∧ (∀ ch, completes uncoded ch = true ∧ rsync uncoded ch = none) := by
  constructor <;> intro ch <;> cases ch <;> decide

/-- The right channel alone without a code. -/
theorem witness_right_uncoded :
    completes rightUncoded .left = true ∧ rsync rightUncoded .left = some 0 ∧
    completes rightUncoded .right = true ∧ rsync rightUncoded .right = none := by decide

/-- The fault then names the right channel (log entry 8). -/
theorem test_right_uncoded_fault :
    (match exec (.frame 0 0) rightUncoded with | .fault f => decide (f = .readPointerNotCode .right) | _ => false) = true := by
  decide +kernel

/-- An H operation and an A operation that complete in the same state. -/
theorem witness_background :
    (∃ t, (Instr.wrPkQ 3#32).isHost = true ∧ exec (.wrPkQ 3#32) oneBlock = .next t) ∧
    ∃ t, (Instr.prepare 4#32 3#2).isHost = false ∧ exec (.prepare 4#32 3#2) oneBlock = .next t :=
  ⟨⟨_, rfl, rfl⟩, ⟨_, rfl, rfl⟩⟩

/-- N_SYNC + 1 idle H edges, all captured old, after a push that the H domain has not seen. -/
theorem witness_write_pointer_crosses :
    let caps := [oldCaptures, oldCaptures, oldCaptures]
    let s := presented { oneBlock with
      h := fresh.h, k := { fresh.k with wgray := ⟨⟨0x03#6, true⟩, ⟨0x03#6, true⟩⟩ } } (caps.map (Edge.host none))
    (s.h.ring.get .left).ws.length = s.cfg.nSync ∧ caps.length = s.cfg.nSync + 1 ∧
    s.pending = caps.map (Edge.host none) ++ [] := by decide

/-- A run of five edges after a push not yet seen: H edges that read and write, with a NOP and a BLOCK_START between. -/
def crossing : State :=
  presented { oneBlock with h := fresh.h, k := { fresh.k with wgray := ⟨⟨0x03#6, true⟩, ⟨0x03#6, true⟩⟩ } }
    [.host (some 0x0000020000000000) oldCaptures, .audio 0 oldCaptures, .host (some 0x8000011400000001) oldCaptures,
      .audio 0x20473B800000000000 oldCaptures, .host none oldCaptures]

theorem witness_write_pointer_crosses_with_words :
    (crossing.h.ring.get .left).ws.length = crossing.cfg.nSync ∧ (∃ t, Host.Core.run Sys2Proof.core 5 crossing = .next t) ∧
    Edge.reset ∉ crossing.pending.take 5 ∧
    crossing.cfg.nSync + 1 ≤ ((crossing.pending.take 5).filter isHostEdge).length ∧
    ∀ (m : Nat) (u : State), m ≤ 5 → Host.Core.run Sys2Proof.core m crossing = .next u →
      (u.a.lane.get .left).wgray = (crossing.a.lane.get .left).wgray := by
  refine ⟨by decide, completes_of (o := Host.Core.run Sys2Proof.core 5 crossing) (by decide +kernel), by decide, by decide,
    fun m u hm h => ?_⟩
  have key : ∀ k : Fin 6, holds (Host.Core.run Sys2Proof.core k.val crossing)
      (fun t => decide ((t.a.lane.get .left).wgray = (crossing.a.lane.get .left).wgray)) = true := by decide +kernel
  have hk := key ⟨m, by omega⟩
  simp only [h] at hk
  exact of_decide_eq_true hk

theorem witness_nop : isNop .nop = true ∧ isNop .rsvKind4 = true ∧ isNop .rsvKindF = true := by decide

/-- PREPARE: parameters in range, each mask bit both ways, the lengths where the clauses meet. -/
theorem witness_prepare :
    fresh.cfg.wf = true ∧ (1#2).getLsbD Chan.left.index = true ∧ (1#2).getLsbD Chan.right.index = false ∧
    ¬(1 ≤ (0#32).toNat ∧ (0#32).toNat ≤ fresh.cfg.blkMax) ∧ (1 ≤ (1#32).toNat ∧ (1#32).toNat ≤ fresh.cfg.blkMax) ∧
    (1 ≤ (1024#32).toNat ∧ (1024#32).toNat ≤ fresh.cfg.blkMax) ∧
    ¬(1 ≤ (1025#32).toNat ∧ (1025#32).toNat ≤ fresh.cfg.blkMax) := by decide

/-- BLOCK_START in a bank that is bypassed (E14) and in one that is not. -/
theorem witness_slope_policy :
    (∃ t, exec (.blockStart 0x473B8000#32) (living fresh { paramDefault with lcByp := true, lcSlope := 2#2 }) = .next t) ∧
    ∃ t, exec (.blockStart 0x473B8000#32) (living fresh { paramDefault with lcSlope := 3#2 }) = .next t :=
  ⟨⟨_, rfl⟩, ⟨_, rfl⟩⟩

/-- One active stage. -/
theorem witness_one_active_stage : ∀ i, act peakOnly.a i = true ↔ i = .pk := by
  intro i
  cases i with
  | pk => decide
  | lc k => revert k; decide
  | hc k => revert k; decide

/-- FRAME completes: no block due, a block due and room, a block due and no room. -/
theorem witness_push_readable : PushReadable fresh ∧ PushReadable twoOfThree ∧ PushReadable fullRings := by
  refine ⟨?_, ?_, ?_⟩ <;> intro ch <;> cases ch <;> decide

/-- FRAME's accumulator clauses: unprepared, a block due, a block not due. -/
theorem witness_accumulate :
    (fresh.a.lane.get .left).prep = false ∧
    ((twoOfThree.a.lane.get .left).prep = true ∧
      (twoOfThree.a.lane.get .left).cur.toNat + 1 = (twoOfThree.a.lane.get .left).bsz.toNat) ∧
    ((oneBlock.a.lane.get .left).prep = true ∧
      (oneBlock.a.lane.get .left).cur.toNat + 1 ≠ (oneBlock.a.lane.get .left).bsz.toNat) := by decide

theorem pushes_twoOfThree : ∀ ch, Pushes twoOfThree ch := by
  intro ch
  cases ch <;> exact ⟨by decide, 0, by decide, by decide⟩

theorem drops_fullRings : completes fullRings .left = true ∧ ¬ Pushes fullRings .left := by
  refine ⟨by decide, fun h => ?_⟩
  obtain ⟨-, r, hr, hd⟩ := h
  have h0 : rsync fullRings .left = some 0 := by decide
  rw [h0] at hr
  cases hr
  exact hd (by decide)

/-- FramePushesOrDropsCompletedBlocks: words inside and beyond the pushed block, and a slot not pushed to. -/
theorem witness_push_clauses :
    Pushes twoOfThree .left ∧ 2 < (twoOfThree.a.lane.get .left).bsz.toNat ∧ (twoOfThree.a.lane.get .left).bsz.toNat ≤ 3 ∧
    ∀ ch, Pushes twoOfThree ch → 1 ≠ slotKey ch (twoOfThree.a.lane.get ch).wbin := by
  refine ⟨pushes_twoOfThree .left, by decide, by decide, fun ch _ => ?_⟩
  cases ch <;> decide

/-- A bypassed stage and an AUDIO operation that completes. -/
theorem witness_bypassed :
    ∃ t, (Instr.frame 1#32 2#32).isHost = false ∧ act peakOnly.a (.lc 0) = false ∧
      exec (.frame 1#32 2#32) peakOnly = .next t :=
  let ⟨t, h⟩ := completes_of (o := exec (.frame 1#32 2#32) peakOnly) (by decide +kernel)
  ⟨t, rfl, by decide, h⟩

theorem witness_all_bypassed : PushReadable fresh ∧ ∀ j, act fresh.a j = false := by
  refine ⟨witness_push_readable.1, fun j => ?_⟩
  cases j with
  | pk => decide
  | lc k => revert k; decide
  | hc k => revert k; decide

/-- Two states that agree on the left channel only, and one whose channels agree. -/
theorem witness_channels :
    (∃ t t', SameConfiguration fresh.a oneBlock.a ∧ (fresh.a.lane.get .left).st = (oneBlock.a.lane.get .left).st ∧
      inputOf 1#32 2#32 .left = inputOf 1#32 3#32 .left ∧ exec (.frame 1#32 2#32) fresh = .next t ∧
      exec (.frame 1#32 3#32) oneBlock = .next t') ∧
    ∃ t, (peakOnly.a.lane.get .left).st = (peakOnly.a.lane.get .right).st ∧ exec (.frame 1#32 1#32) peakOnly = .next t :=
  let ⟨t, h⟩ := completes_of (o := exec (.frame 1#32 2#32) fresh) (by decide +kernel)
  let ⟨t', h'⟩ := completes_of (o := exec (.frame 1#32 3#32) oneBlock) (by decide +kernel)
  let ⟨u, k⟩ := completes_of (o := exec (.frame 1#32 1#32) peakOnly) (by decide +kernel)
  ⟨⟨t, t', ⟨rfl, rfl, rfl, rfl, rfl, rfl, rfl, rfl⟩, rfl, rfl, h, h'⟩, ⟨u, rfl, k⟩⟩

theorem witness_not_block_start :
    ∃ t, (∀ fs, Instr.frame 1#32 2#32 ≠ .blockStart fs) ∧ exec (.frame 1#32 2#32) twoOfThree = .next t :=
  let ⟨t, h⟩ := completes_of (o := exec (.frame 1#32 2#32) twoOfThree) (by decide +kernel)
  ⟨t, (by intro _ h; cases h), h⟩

theorem witness_not_frame :
    ∃ t, (∀ x0 x1, Instr.blockStart 1#32 ≠ .frame x0 x1) ∧ exec (.blockStart 1#32) twoOfThree = .next t :=
  ⟨_, (by intro _ _ h; cases h), rfl⟩

/-- Each way a sticky bit is set. -/
theorem witness_sticky :
    holds (exec (.blockStart 0#32) fresh) (fun t => decide (t.a.cfgErr ≠ fresh.a.cfgErr)) = true ∧
    holds (exec (.prepare 0#32 1#2) fresh) (fun t => decide (t.a.accErr ≠ fresh.a.accErr)) = true ∧
    holds (exec (.frame 0#32 0#32) fresh) (fun t => decide (t.a.accErr ≠ fresh.a.accErr)) = true := by decide +kernel

/-- A NaN in the first and in the second word of an active stage. -/
theorem witness_nan_state :
    (∃ t, act (poisoned ⟨0x7FC00001#32, 0#32⟩).a .pk = true ∧ fIsNaN 0x7FC00001#32 = true ∧
      exec (.frame 1#32 2#32) (poisoned ⟨0x7FC00001#32, 0#32⟩) = .next t) ∧
    ∃ t, act (poisoned ⟨0#32, 0xFF800001#32⟩).a .pk = true ∧ fIsNaN 0xFF800001#32 = true ∧
      exec (.frame 1#32 2#32) (poisoned ⟨0#32, 0xFF800001#32⟩) = .next t :=
  let ⟨t, h⟩ := completes_of (o := exec (.frame 1#32 2#32) (poisoned ⟨0x7FC00001#32, 0#32⟩)) (by decide +kernel)
  let ⟨u, k⟩ := completes_of (o := exec (.frame 1#32 2#32) (poisoned ⟨0#32, 0xFF800001#32⟩)) (by decide +kernel)
  ⟨⟨t, by decide, by decide, h⟩, ⟨u, by decide, by decide, k⟩⟩

/-- Operands of the binary32 statements: finite, zero, NaN, an infinity (neither finite nor a NaN). -/
theorem witness_float_operands :
    fIsNaN 0xFF800000#32 = false ∧ fFinite 0xFF800000#32 = false ∧ fFinite 0x7F7FFFFF#32 = true ∧ fFinite 0x00000001#32 = true ∧ fFinite 0x80000000#32 = true ∧
    fIsNaN 0x7F800001#32 = true ∧ fIsNaN 0xFFFFFFFF#32 = true := by decide +kernel

theorem witness_zero_value : f32Value 0x80000000#32 = 0 ∧ f32Value 0x80000000#32 * f32Value 0x3F800000#32 = 0 := by
  have he : ((0x80000000#32).extractLsb' 23 8).toNat = 0 := by decide
  have hf : ((0x80000000#32).extractLsb' 0 23).toNat = 0 := by decide
  have h : f32Value 0x80000000#32 = 0 := by simp only [f32Value, he, hf]; simp
  exact ⟨h, by rw [h, zero_mul]⟩

/-- Opposite operands, equal operands, a nonzero factor. -/
theorem witness_exact_zero_sums :
    f32Value 0x3F800000#32 + f32Value 0xBF800000#32 = 0 ∧ f32Value 0x3F800000#32 - f32Value 0x3F800000#32 = 0 ∧
    f32Value 0x3F800000#32 ≠ 0 := by
  have he : ((0x3F800000#32).extractLsb' 23 8).toNat = 127 := by decide
  have hf : ((0x3F800000#32).extractLsb' 0 23).toNat = 0 := by decide
  have ge : ((0xBF800000#32).extractLsb' 23 8).toNat = 127 := by decide
  have gf : ((0xBF800000#32).extractLsb' 0 23).toNat = 0 := by decide
  have hs : (0x3F800000#32).getLsbD 31 = false := by decide
  have gs : (0xBF800000#32).getLsbD 31 = true := by decide
  simp only [f32Value, he, hf, ge, gf, hs, gs]
  norm_num

theorem witness_params : Config.Params.reference.wf = true ∧ (Config.Params.mk 2 1 .pre).wf = true ∧
    (Config.Params.mk 40 4096 .pre).wf = true := by decide

/-- A step from a state with blocks in its rings, under the invariant. -/
theorem witness_step_invariant :
    Inv oneBlock ∧ ∃ t, step (oneBlock.withFetchWord 64 0x0000020800000000) = .next t := ⟨inv_oneBlock, _, rfl⟩

/-- The views of both sides, in states that meet the invariant: neither full nor empty, full, empty. -/
theorem witness_views :
    (wsync oneBlock .left = some 1 ∧ rsync oneBlock .left = some 0 ∧ isFull (oneBlock.a.lane.get .left).wbin 0 = false ∧
      isEmpty 1 (rbinOf oneBlock .left) = false) ∧
    (wsync fullRings .left = some 30 ∧ isFull (fullRings.a.lane.get .left).wbin 0 = true) ∧
    (wsync fresh .right = some 0 ∧ isEmpty 0 (rbinOf fresh .right) = true) := by decide

/-- A visible slot, and a FRAME that pushes nothing into it. -/
theorem witness_visible_slot :
    Inv oneBlock ∧ wsync oneBlock .left = some 1 ∧
    ptrDist 0 (rbinOf oneBlock .left) < ptrDist 1 (rbinOf oneBlock .left) ∧
    ∃ t, exec (.frame 1#32 2#32) oneBlock = .next t :=
  ⟨inv_oneBlock, by decide, by decide, completes_of (by decide +kernel)⟩

/-- The cases of RingIsAQueueOfBlocks: a push, a dropped push, a pop that takes a block and one that does not, another
operation. -/
theorem witness_queue :
    (Inv twoOfThree ∧ Pushes twoOfThree .left ∧ ∃ t, exec (.frame 1#32 2#32) twoOfThree = .next t) ∧
    (Inv fullRings ∧ ¬ Pushes fullRings .left ∧ ∃ t, exec (.frame 1#32 2#32) fullRings = .next t) ∧
    (Inv oneBlock ∧ holds (exec (popOp .left) oneBlock) (fun t => decide (t.hostOut = some 1#32)) = true) ∧
    (Inv fresh ∧ holds (exec (popOp .right) fresh) (fun t => decide (t.hostOut ≠ some 1#32)) = true) ∧
    (Inv oneBlock ∧ ∃ t, (∀ x0 x1, Instr.rdId ≠ .frame x0 x1) ∧ Instr.rdId ≠ popOp .left ∧ exec .rdId oneBlock = .next t) :=
  ⟨⟨inv_twoOfThree, pushes_twoOfThree .left, completes_of (by decide +kernel)⟩,
    ⟨inv_fullRings, drops_fullRings.2, completes_of (by decide +kernel)⟩,
    ⟨inv_oneBlock, by decide +kernel⟩, ⟨inv_fresh, by decide +kernel⟩,
    ⟨inv_oneBlock, _, (by intro _ _ h; cases h), (by intro h; cases h), rfl⟩⟩

/-- `pull` on an empty ring and on a ring with a block; ConsumerReadsOnlyWrittenWords on the latter. -/
theorem witness_pull :
    (Inv fresh ∧ wsync fresh .left = some 0 ∧ 0 = rbinOf fresh .left) ∧
    (Inv oneBlock ∧ wsync oneBlock .right = some 1 ∧ 1 ≠ rbinOf oneBlock .right) :=
  ⟨⟨inv_fresh, by decide, by decide⟩, ⟨inv_oneBlock, by decide, by decide⟩⟩

/-- Edges between the steps of a pull of the left ring: a FRAME, a pop of the other ring, a parameter write. -/
def busyGaps (n : Nat) : Gap :=
  if n = 0 then ([], oldCaptures)
  else ([.audio 0x303F8000003F800000 oldCaptures, .host (some 0x0000022800000000) oldCaptures,
    .host (some 0x8000011400000001) oldCaptures], oldCaptures)

theorem witness_pull_among :
    (busyGaps 0).1 = [] ∧ (∀ n, ∀ e ∈ (busyGaps n).1, harmlessTo .left e = true) ∧
    (Inv fresh ∧ wsync fresh .left = some 0 ∧ 0 = rbinOf fresh .left) ∧
    (Inv oneBlock ∧ wsync oneBlock .left = some 1 ∧ 1 ≠ rbinOf oneBlock .left) := by
  refine ⟨rfl, fun n e he => ?_, ⟨inv_fresh, by decide, by decide⟩, ⟨inv_oneBlock, by decide, by decide⟩⟩
  have hs : ∀ e ∈ [Edge.audio 0x303F8000003F800000 oldCaptures, .host (some 0x0000022800000000) oldCaptures,
      .host (some 0x8000011400000001) oldCaptures], harmlessTo .left e = true := by decide
  unfold busyGaps at he
  split at he
  · cases he
  · exact hs e he

/-- Program 1 steps 8 to 15 with other steps in between (R270): the block of four samples, and 1 from the pop. -/
theorem test_pull_among :
    (match pullAmong .left busyGaps oneBlock with
    | .next (_, r) => decide (r = some (4#32, [0x3F800000#32, 0x40000000#32, 0x40400000#32, 0x40800000#32], [1#32]))
    | .fault _ => false
    | .refused _ => false) = true := by decide +kernel

/-- A mailbox about to be accepted: Program 2 before step 8. -/
def offered : State :=
  { fresh with
    h := { fresh.h with shadow := { paramDefault with pkQ := 9#32 }, mb := { paramDefault with pkQ := 9#32 }, mbTog := true }
    a := { fresh.a with togS := [true, true] } }

theorem inv_offered : Inv offered := by
  constructor <;> first | decide +kernel | (intro ch; cases ch <;> decide +kernel)

theorem witness_settled :
    (Inv offered ∧ offered.a.togS.getLastD false ≠ offered.a.aTog) ∧
    (Inv fresh ∧ (fresh.h.dirty || (fresh.h.mbTog != fresh.h.ackS.getLastD false)) = false) :=
  ⟨⟨inv_offered, by decide⟩, ⟨inv_fresh, by decide⟩⟩

theorem witness_reset_while_running :
    (presented oneBlock [.reset, .host none oldCaptures]).pending = .reset :: [.host none oldCaptures] := rfl

end Sys2Proof.Tests
end

section
/-! SUPPORT. What an operation leaves of the A domain and of the slot memory, said once per register group (10_state R47
to R50, 43_clock_steps R318). -/

namespace Sys2Proof.Machine

open Sys2Proof

/-! ### HOSTBUS operations and the A side -/

/-- Every HOSTBUS operation ends in a commit of the H domain. -/
theorem HostEffect.commit {i : Instr} {s t : State} (h : HostEffect i s t) : ∃ h' pw out, t = hCommit s h' pw out := by
  cases h with
  | plain out h => exact ⟨_, _, _, h⟩
  | param p h => exact ⟨_, _, _, h⟩
  | clear _ h => exact ⟨_, _, _, h⟩
  | pop _ _ _ _ _ h => exact ⟨_, _, _, h⟩

theorem HostEffect.a_eq {i : Instr} {s t : State} (h : HostEffect i s t) : t.a = s.a := by
  obtain ⟨h', pw, out, rfl⟩ := h.commit
  rfl

theorem HostEffect.mem_eq {i : Instr} {s t : State} (h : HostEffect i s t) : t.mem = s.mem := by
  obtain ⟨h', pw, out, rfl⟩ := h.commit
  rfl

/-! ### PREPARE and BLOCK_START, field by field -/

@[simp] theorem prepareLane_st (ok selected : Bool) (n : Word) (l : Lane) : (prepareLane ok selected n l).st = l.st := by
  unfold prepareLane
  split
  · rfl
  · split <;> rfl

@[simp] theorem loadBlock_lane (a : ADomain) (p : ParamSet) (fs : F32) : (loadBlock a p fs).lane = a.lane := rfl
@[simp] theorem loadBlock_accErr (a : ADomain) (p : ParamSet) (fs : F32) : (loadBlock a p fs).accErr = a.accErr := rfl
@[simp] theorem loadBlock_cfgErr (a : ADomain) (p : ParamSet) (fs : F32) :
    (loadBlock a p fs).cfgErr = (a.cfgErr || !validConfig p fs) := rfl

section
variable {n : Word} {m : BitVec 2} {s t : State} (h : execPrepare n m s = .next t)
include h

theorem execPrepare_mem : t.mem = s.mem := by cases h; rfl

theorem execPrepare_st (ch : Chan) : (t.a.lane.get ch).st = (s.a.lane.get ch).st := by
  cases h
  cases ch <;> exact prepareLane_st ..

theorem execPrepare_cfgErr : t.a.cfgErr = s.a.cfgErr := by cases h; rfl

theorem execPrepare_accErr :
    t.a.accErr = (s.a.accErr || (!validLength s.cfg n && (maskBit m .left || maskBit m .right))) := by cases h; rfl

end

/-! ### FRAME and the sticky bits -/

section
variable {x0 x1 : F32} {s t : State} (h : execFrame x0 x1 s = .next t)
include h

theorem execFrame_cfgErr : t.a.cfgErr = s.a.cfgErr := by
  obtain ⟨y0, l0, m0, y1, l1, m1, -, -, rfl⟩ := execFrame_next h
  rfl

theorem execFrame_accErr : t.a.accErr = (s.a.accErr || !s.a.lane.left.prep || !s.a.lane.right.prep) := by
  obtain ⟨y0, l0, m0, y1, l1, m1, -, -, rfl⟩ := execFrame_next h
  rfl

end

/-! ### The sticky bits after any operation -/

/-- An or-ed sticky bit keeps its value, or is set for the or-ed cause. -/
theorem sticky_or (old cause : Bool) : (old || cause) = old ∨ ((old || cause) = true ∧ cause = true) := by
  cases old <;> cases cause <;> simp

/-- `A.cfg_err` stays, or a BLOCK_START outside the contract set it (R212). -/
theorem exec_cfgErr {i : Instr} {s t : State} (h : exec i s = .next t) :
    t.a.cfgErr = s.a.cfgErr ∨ (t.a.cfgErr = true ∧ ∃ fs, i = .blockStart fs ∧ validConfig s.a.live fs = false) := by
  cases hi : i.isHost with
  | true => exact .inl (by rw [(exec_host_effect hi h).a_eq])
  | false =>
    cases exec_audio_effect hi h with
    | nothing h => exact .inl (by rw [h]; rfl)
    | prepare n m _ h => exact .inl (execPrepare_cfgErr h)
    | frame x0 x1 _ h => exact .inl (execFrame_cfgErr h)
    | block fs hi h =>
      subst h
      exact (sticky_or s.a.cfgErr (!validConfig s.a.live fs)).imp_right
        (fun ⟨hset, hcause⟩ => ⟨hset, fs, hi, by simpa using hcause⟩)

/-- `A.acc_err` stays, or a PREPARE with an invalid length or a FRAME on an unprepared channel set it (R208, R210). -/
theorem exec_accErr {i : Instr} {s t : State} (h : exec i s = .next t) :
    t.a.accErr = s.a.accErr ∨ (t.a.accErr = true ∧
      ((∃ n m, i = .prepare n m ∧ validLength s.cfg n = false) ∨
        ∃ x0 x1, i = .frame x0 x1 ∧ ∃ ch, (s.a.lane.get ch).prep = false)) := by
  cases hi : i.isHost with
  | true => exact .inl (by rw [(exec_host_effect hi h).a_eq])
  | false =>
    cases exec_audio_effect hi h with
    | nothing h => exact .inl (by rw [h]; rfl)
    | block fs _ h => exact .inl (by rw [h]; rfl)
    | prepare n m hi h =>
      rw [execPrepare_accErr h]
      refine (sticky_or s.a.accErr _).imp_right (fun ⟨hset, hcause⟩ => ⟨hset, .inl ⟨n, m, hi, ?_⟩⟩)
      simp only [Bool.and_eq_true, Bool.not_eq_true'] at hcause
      exact hcause.1
    | frame x0 x1 hi h =>
      rw [execFrame_accErr h, Bool.or_assoc]
      refine (sticky_or s.a.accErr _).imp_right (fun ⟨hset, hcause⟩ => ⟨hset, .inr ⟨x0, x1, hi, ?_⟩⟩)
      simp only [Bool.or_eq_true, Bool.not_eq_true'] at hcause
      rcases hcause with hleft | hright
      · exact ⟨.left, hleft⟩
      · exact ⟨.right, hright⟩

end Sys2Proof.Machine

namespace Sys2Proof

open Machine

/-- Settles O42: a HOSTBUS operation leaves the A side alone, and of the AUDIO operations PREPARE and BLOCK_START keep
the stage states and commit the old slot memory. -/
theorem onlyFrameWritesDelayLinesAndSlots : Obligations.OnlyFrameWritesDelayLinesAndSlots := by
  intro i s t hframe h
  cases hi : i.isHost with
  | true =>
    have he := exec_host_effect hi h
    exact ⟨he.mem_eq, fun ch => by rw [he.a_eq]⟩
  | false =>
    cases exec_audio_effect hi h with
    | nothing h => exact ⟨by rw [h]; rfl, fun ch => by simp [h, aIdle]⟩
    | prepare n m _ h => exact ⟨execPrepare_mem h, execPrepare_st h⟩
    | block fs _ h => exact ⟨by rw [h]; rfl, fun ch => by simp [h]⟩
    | frame x0 x1 hi _ => exact absurd hi (hframe x0 x1)

/-- Settles O43: each sticky bit stays or is set for one of its causes (`exec_cfgErr`, `exec_accErr`). -/
theorem stickyBitsAreOnlySet : Obligations.StickyBitsAreOnlySet := by
  intro i s t h
  refine ⟨fun hold => ?_, fun hold => ?_, fun hne => ?_, fun hne => ?_⟩
  · exact (exec_cfgErr h).elim (fun heq => heq.trans hold) And.left
  · exact (exec_accErr h).elim (fun heq => heq.trans hold) And.left
  · exact ((exec_cfgErr h).resolve_left hne).2
  · exact ((exec_accErr h).resolve_left hne).2

end Sys2Proof
end

section
/-! SUPPORT. What the invariant says of the pointer views and of the slot memory (42_ring R271, R273, 10_state R51). -/

namespace Sys2Proof.Machine

open Sys2Proof

/-! ### Pointers -/

/-- R260: the code of a pointer decodes to it. -/
@[simp] theorem g60inv_g60 : ∀ p : Fin 60, g60inv (g60 p) = some p := by decide

theorem ptrDist_lt (a b : Fin 60) : ptrDist a b < 60 := Nat.mod_lt _ (by decide)

@[simp] theorem ptrDist_eq_zero {a b : Fin 60} : ptrDist a b = 0 ↔ a = b := by
  simp only [ptrDist, Fin.ext_iff]
  omega

/-- Pointers at the same distance from `base` are the same. -/
theorem ptrDist_left_inj {a b base : Fin 60} : ptrDist a base = ptrDist b base ↔ a = b := by
  simp only [ptrDist, Fin.ext_iff]
  omega

@[simp] theorem advance_zero (p : Fin 60) : advance p 0 = p := by
  simp [advance, Nat.mod_eq_of_lt p.isLt]

@[simp] theorem isEmpty_iff {w r : Fin 60} : isEmpty w r = true ↔ w = r := by
  simp [isEmpty, level]

@[simp] theorem aheadOf_g60 (base p : Fin 60) : aheadOf base (g60 p) = ptrDist p base := by
  simp [aheadOf]

/-- A value less than 60 ahead of a pointer is a code, and of the pointer that far ahead. -/
theorem aheadOf_lt_iff {base : Fin 60} {g : BitVec 6} :
    aheadOf base g < 60 ↔ ∃ p, g60inv g = some p := by
  unfold aheadOf
  cases hg : g60inv g with
  | none => simp
  | some p => simp [ptrDist_lt]

theorem aheadOf_of_inv {base p : Fin 60} {g : BitVec 6} (h : g60inv g = some p) : aheadOf base g = ptrDist p base := by
  simp [aheadOf, h]

/-! ### The pointer views under the invariant -/

/-- The consumer's code, the code it sees of the producer's, and the producer's own stand in this order in the trail. -/
theorem views_sublist_pointerTrail {s : State} {ch : Chan} {g : BitVec 6}
    (h : (s.h.ring.get ch).ws.getLast? = some g) :
    [(s.h.ring.get ch).rgray, g, (s.a.lane.get ch).wgray].Sublist (pointerTrail s ch) := by
  obtain ⟨ys, hws⟩ := List.getLast?_eq_some_iff.mp h
  have hg : [g].Sublist ((s.h.ring.get ch).ws.reverse ++ staleValue (s.k.wgray.get ch)) := by simp [hws]
  have hr : [(s.h.ring.get ch).rgray].Sublist
      ((s.a.lane.get ch).rs.reverse ++ staleValue (s.k.rgray.get ch) ++ [(s.h.ring.get ch).rgray]) := by simp
  simpa [pointerTrail] using (hr.append hg).append (List.Sublist.refl [(s.a.lane.get ch).wgray])

theorem trailOrdered_iff {s : State} {ch : Chan} : trailOrdered s ch = true ↔
    ∃ base, rsync s ch = some base ∧ ((pointerTrail s ch).map (aheadOf base)).Pairwise (· ≤ ·) ∧
      ∀ g ∈ pointerTrail s ch, aheadOf base g ≤ 30 := by
  unfold trailOrdered
  cases rsync s ch <;> simp

theorem pointersCoded_iff {s : State} {ch : Chan} : pointersCoded s ch = true ↔
    (s.h.ring.get ch).rgray = g60 (s.h.ring.get ch).rbin ∧ (s.a.lane.get ch).wgray = g60 (s.a.lane.get ch).wbin := by
  simp [pointersCoded]

namespace Inv

variable {s : State} (hs : Inv s) (ch : Chan)
include hs

theorem nSync_ge : 2 ≤ s.cfg.nSync := by
  have hwf := hs.params
  simp only [Config.Params.wf, Bool.and_eq_true, decide_eq_true_eq] at hwf
  exact hwf.1.1

theorem ws_length : (s.h.ring.get ch).ws.length = s.cfg.nSync := by
  have hc := hs.chains
  simp only [chainsSized, Bool.and_eq_true, List.all_eq_true, decide_eq_true_eq] at hc
  cases ch <;> exact hc.2 _ (by simp)

/-- R271 I0 to I3: both views are readable, and counted from the producer's view of the read pointer, the read pointer,
the consumer's view of the write pointer and the write pointer follow in this order, at most 30 ahead. -/
theorem pointer_views : ∃ w r, wsync s ch = some w ∧ rsync s ch = some r ∧
    ptrDist (rbinOf s ch) r ≤ ptrDist w r ∧ ptrDist w r ≤ ptrDist (s.a.lane.get ch).wbin r ∧
    ptrDist (s.a.lane.get ch).wbin r ≤ 30 := by
  obtain ⟨r, hr, hpair, hall⟩ := trailOrdered_iff.mp (hs.ordered ch)
  obtain ⟨hrgray, hwgray⟩ := pointersCoded_iff.mp (hs.coded ch)
  obtain ⟨g, hg⟩ : ∃ g, (s.h.ring.get ch).ws.getLast? = some g := by
    rw [← Option.isSome_iff_exists, List.getLast?_isSome, ← List.length_pos_iff, hs.ws_length ch]
    exact Nat.lt_of_lt_of_le (by decide) hs.nSync_ge
  have hsub := views_sublist_pointerTrail hg
  have hclose : ∀ c ∈ [(s.h.ring.get ch).rgray, g, (s.a.lane.get ch).wgray], aheadOf r c ≤ 30 :=
    fun c hc => hall c (hsub.subset hc)
  obtain ⟨w, hw⟩ := aheadOf_lt_iff.mp (Nat.lt_of_le_of_lt (hclose g (by simp)) (by decide))
  have horder := hpair.sublist (hsub.map (aheadOf r))
  rw [hrgray, hwgray] at horder hclose
  simp only [List.map_cons, List.map_nil, aheadOf_g60, aheadOf_of_inv hw, List.pairwise_cons, List.mem_cons,
    forall_eq_or_imp] at horder hclose
  exact ⟨w, r, by simp [wsync, lastPointer, hg, hw], hr, horder.1.1, horder.2.1.1, hclose.2.2.1⟩

/-- R273: a consumer that does not see the ring empty has a block. -/
theorem occupancy_pos {w : Fin 60} (hw : wsync s ch = some w) (hne : w ≠ rbinOf s ch) : 0 < occupancy s ch := by
  obtain ⟨w', r, hw', -, hrw, hww, -⟩ := hs.pointer_views ch
  obtain rfl : w' = w := Option.some.inj (hw'.symm.trans hw)
  refine Nat.pos_of_ne_zero (fun hz => hne ?_)
  have hwr : (s.a.lane.get ch).wbin = rbinOf s ch := ptrDist_eq_zero.mp hz
  rw [hwr] at hww
  exact ptrDist_left_inj.mp (Nat.le_antisymm hww hrw)

/-- Every slot that holds a block has been written (R51). -/
theorem find_of_lt_occupancy {i : Nat} (h : i < occupancy s ch) :
    ∃ v, s.mem.find (slotKey ch (advance (rbinOf s ch) i)) = some v := by
  have hw := hs.written ch
  simp only [occupiedWritten, List.all_eq_true, List.mem_range] at hw
  exact Option.isSome_iff_exists.mp (hw i h)

end Inv

/-! ### Written slots -/

theorem Memory.mem_of_find {m : Memory} {key : Nat} {v : Slot} (h : m.find key = some v) : (key, v) ∈ m := by
  obtain ⟨l₁, l₂, rfl, -⟩ := List.lookup_eq_some_iff.mp h
  simp

theorem slotWf_iff {p : Config.Params} {v : Slot} : slotWf p v = true ↔
    1 ≤ v.len.toNat ∧ v.len.toNat ≤ v.data.length ∧ v.data.length ≤ p.blkMax := by
  simp [slotWf, and_assoc]

theorem Inv.slotWf_of_find {s : State} {key : Nat} {v : Slot} (hs : Inv s) (h : s.mem.find key = some v) :
    slotWf s.cfg v = true :=
  List.all_eq_true.mp hs.slots _ (Memory.mem_of_find h)

theorem slotTag_of_find {m : Memory} {key : Nat} {v : Slot} (h : m.find key = some v) : slotTag m key = v.len := by
  simp [slotTag, h]

theorem slotWord_of_find {m : Memory} {key i : Nat} {v : Slot} {x : F32} (h : m.find key = some v)
    (hx : v.data[i]? = some x) : slotWord m key i = x := by
  simp [slotWord, h, hx]

/-! ### Ring reads of a readable ring -/

section
variable {s : State} {ch : Chan} {w : Fin 60} (hw : wsync s ch = some w)
include hw

/-- R266. -/
theorem exec_hlenOp_of_wsync : exec (hlenOp ch) s = .next (hCommit s s.h false (some (ringHlenWord s ch w))) := by
  cases ch <;> simp [exec, hlenOp, execRdRingHlen0, execRdRingHlen1, ringHlen, hw]

/-- R267. -/
theorem exec_winOp_of_wsync (i : BitVec 12) :
    exec (winOp ch i) s = .next (hCommit s s.h false (some (ringWinWord s ch i w))) := by
  cases ch <;> simp [exec, winOp, execRdRingWin0, execRdRingWin1, ringWin, hw]

end

section
variable {s : State} {ch : Chan} {w : Fin 60} {v : Slot} (hne : w ≠ rbinOf s ch)
  (hv : s.mem.find (headKey s ch) = some v)
include hne hv

theorem ringHlenWord_of_find : ringHlenWord s ch w = v.len.zeroExtend 32 := by
  simp [ringHlenWord, hne, slotTag_of_find hv]

theorem ringWinWord_of_find {i : BitVec 12} {x : F32} (hi : i.toNat < v.len.toNat) (hx : v.data[i.toNat]? = some x) :
    ringWinWord s ch i w = x := by
  simp [ringWinWord, hne, slotTag_of_find hv, hi, slotWord_of_find hv hx]

end

end Sys2Proof.Machine

namespace Sys2Proof

open Machine

/-- Settles O56: the head is an occupied slot, so it is listed, and its tag and words are what RING_HLEN and RING_WIN
return. -/
theorem consumerReadsOnlyWrittenWords : Obligations.ConsumerReadsOnlyWrittenWords := by
  intro ch s w hs hw hne
  obtain ⟨v, hv⟩ := hs.find_of_lt_occupancy ch (hs.occupancy_pos ch hw hne)
  rw [advance_zero] at hv
  obtain ⟨hlen, hdata, hmax⟩ := slotWf_iff.mp (hs.slotWf_of_find hv)
  refine ⟨v, hv, hlen, hdata.trans hmax, ⟨_, exec_hlenOp_of_wsync hw, ?_⟩, fun i hi => ?_⟩
  · rw [hCommit_hostOut, ringHlenWord_of_find hne hv]
  · have hx : v.data[i.toNat]? = some v.data[i.toNat] := List.getElem?_eq_getElem (Nat.lt_of_lt_of_le hi hdata)
    exact ⟨_, _, hx, exec_winOp_of_wsync hw i, by rw [hCommit_hostOut, ringWinWord_of_find hne hv hi hx]⟩

end Sys2Proof
end

section
/-! SUPPORT. The reset state and the invariant (10_state R34, R56). -/

namespace Sys2Proof.Machine

open Sys2Proof

theorem codeZero_eq : codeZero = g60 0 := by decide

/-- A trail on which every copy is the code of the producer's view is ordered. -/
theorem trailOrdered_of_const {s : State} {ch : Chan} {base : Fin 60} (hr : rsync s ch = some base)
    (hall : ∀ g ∈ pointerTrail s ch, g = g60 base) : trailOrdered s ch = true := by
  have hzero : ∀ g ∈ pointerTrail s ch, aheadOf base g = 0 := fun g hg => by simp [hall g hg]
  refine trailOrdered_iff.mpr ⟨base, hr, ?_, fun g hg => by simp [hzero g hg]⟩
  rw [List.map_congr_left hzero, List.map_const', List.pairwise_replicate]
  exact .inr (Nat.le_refl 0)

theorem changesOnce_of_const {l : List Bool} {b : Bool} (h : ∀ x ∈ l, x = b) : changesOnce l = true := by
  cases l with
  | nil => rfl
  | cons x xs =>
    have hd : (x :: xs).dropWhile (fun y => y == x) = [] :=
      List.dropWhile_eq_nil_iff.mpr (fun y hy => by simp [h y hy, h x])
    simp [changesOnce, hd]

section
variable (p : Config.Params)

@[simp] theorem lane_resetWith (ch : Chan) : (State.resetWith p).a.lane.get ch = Lane.reset p := by cases ch <;> rfl
@[simp] theorem ring_resetWith (ch : Chan) : (State.resetWith p).h.ring.get ch = ReadSide.reset p := by cases ch <;> rfl

theorem pointersCoded_resetWith (ch : Chan) : pointersCoded (State.resetWith p) ch = true := by
  rw [pointersCoded_iff, lane_resetWith, ring_resetWith]
  exact ⟨codeZero_eq, codeZero_eq⟩

theorem pointerTrail_resetWith (ch : Chan) : ∀ g ∈ pointerTrail (State.resetWith p) ch, g = g60 0 := by
  have hw : staleValue ((State.resetWith p).k.wgray.get ch) = [] := by cases ch <;> rfl
  have hr : staleValue ((State.resetWith p).k.rgray.get ch) = [] := by cases ch <;> rfl
  intro g hg
  simp only [pointerTrail, lane_resetWith, ring_resetWith, hw, hr, Lane.reset, ReadSide.reset, List.mem_append,
    List.mem_reverse, List.mem_replicate, List.mem_singleton, List.not_mem_nil, or_false] at hg
  rw [← codeZero_eq]
  tauto

theorem occupancy_resetWith (ch : Chan) : occupancy (State.resetWith p) ch = 0 := by
  simp [occupancy, Lane.reset, ReadSide.reset]

theorem toggleTrail_resetWith : ∀ b ∈ toggleTrail (State.resetWith p), b = false := by
  simp [toggleTrail, State.resetWith, HDomain.reset, ADomain.reset, Bookkeeping.reset, staleValue]

/-- The producer's view of the read pointer after reset; there is a flip-flop to read. -/
theorem rsync_resetWith (hp : p.wf = true) (ch : Chan) : rsync (State.resetWith p) ch = some 0 := by
  have hn : p.nSync ≠ 0 := by
    simp only [Config.Params.wf, Bool.and_eq_true, decide_eq_true_eq] at hp
    omega
  have hlast : lastPointer (List.replicate p.nSync codeZero) = some 0 := by
    simpa [lastPointer, List.getLast?_replicate, hn] using (by decide : g60inv codeZero = some 0)
  rw [rsync, lane_resetWith]
  exact hlast

end

end Sys2Proof.Machine

namespace Sys2Proof

open Machine

/-- Settles O1, register group by register group in the order of R56. -/
theorem resetLeavesEverySpecifiedValue : Obligations.ResetLeavesEverySpecifiedValue := by
  intro p s d
  have hlane : ∀ ch, s.a.lane.get ch = Lane.reset p := lane_resetWith p
  have hring : ∀ ch, s.h.ring.get ch = ReadSide.reset p := ring_resetWith p
  refine ⟨rfl, rfl, rfl, rfl, rfl, rfl, rfl, rfl, rfl, rfl, rfl, rfl, rfl, rfl, rfl, fun ch => ?rings, fun j => ?coefs,
    fun ch j => ?states, fun k => ?enables, rfl, rfl, rfl, fun ch => ?crossings, rfl, rfl, rfl, rfl⟩
  case rings =>
    rw [hlane, hring]
    exact ⟨rfl, rfl, rfl, rfl, rfl, rfl, rfl, rfl, rfl⟩
  case coefs => exact Stages.get_all ..
  case states =>
    rw [hlane]
    exact Stages.get_all ..
  case enables =>
    match k with
    | 0 | 1 | 2 | 3 => exact ⟨rfl, rfl⟩
  case crossings => cases ch <;> exact ⟨rfl, rfl⟩

/-- Settles O48: every copy of a pointer is the code of 0, every copy of the toggle is false, no slot is written. -/
theorem resetMeetsTheInvariant : Obligations.ResetMeetsTheInvariant := by
  intro p hp
  constructor
  case params => exact hp
  case chains => simp [chainsSized, State.resetWith, HDomain.reset, ADomain.reset, Lane.reset, ReadSide.reset]
  case coded => exact pointersCoded_resetWith p
  case ordered =>
    exact fun ch => trailOrdered_of_const (rsync_resetWith p hp ch) (pointerTrail_resetWith p ch)
  case written => exact fun ch => by simp [occupiedWritten, occupancy_resetWith]
  case memory => exact reset_memory_wf p
  case slots => rfl
  case accumulators => exact fun ch => by simp [accumulatorWf, Lane.reset]
  case mailbox =>
    have htog : changesOnce (toggleTrail (State.resetWith p)) = true := changesOnce_of_const (toggleTrail_resetWith p)
    have hclean : (State.resetWith p).h.mb = (State.resetWith p).h.shadow := rfl
    have hlive : (State.resetWith p).a.live = (State.resetWith p).h.mb := rfl
    simp [mailboxOk, htog, hclean, hlive]
  case cfgStatus => simp [statusOk, State.resetWith, HDomain.reset, Bookkeeping.reset]
  case accStatus => simp [statusOk, State.resetWith, HDomain.reset, Bookkeeping.reset]

end Sys2Proof
end

section
/-! SUPPORT. What a HOSTBUS read can do (20_memory R88, R97): return a word and do nothing else an idle H step does not
do, or clear the changed flag, or pop. -/

namespace Sys2Proof.Machine

open Sys2Proof Sys2Proof.Claims

/-! ### The reads -/

theorem popOp_injective {c d : Chan} (h : popOp c = popOp d) : c = d := by
  revert h
  cases c <;> cases d <;> simp [popOp]

@[simp] theorem isSideEffectRead_popOp (ch : Chan) : isSideEffectRead (popOp ch) = true := by cases ch <;> rfl

theorem popOp_ne_rdChgTac (ch : Chan) : popOp ch ≠ .rdChgTac := by cases ch <;> nofun

theorem isHost_of_isRead {i : Instr} (hi : isRead i = true) : i.isHost = true := by
  revert hi
  cases i <;> simp [isRead, Instr.isHost]

/-- A read that answers next returned a word (30_encoding R121). -/
theorem exec_read_returns {i : Instr} {s t : State} (hi : isRead i = true) (h : exec i s = .next t) :
    ∃ v, t.hostOut = some v := by
  cases i
  case rdRingStat0 | rdRingStat1 => obtain ⟨w, -, rfl⟩ := ringStat_next h; exact ⟨_, rfl⟩
  case rdRingHlen0 | rdRingHlen1 => obtain ⟨w, -, rfl⟩ := ringHlen_next h; exact ⟨_, rfl⟩
  case rdRingWin0 | rdRingWin1 => obtain ⟨w, -, rfl⟩ := ringWin_next h; exact ⟨_, rfl⟩
  case rdRingPop0 | rdRingPop1 => obtain ⟨w, -, ⟨-, rfl⟩ | ⟨-, rfl⟩⟩ := ringPop_next h <;> exact ⟨_, rfl⟩
  case rdId | rdCaps | rdStatus | rdPkFreq | rdPkGain | rdPkQ | rdLcFreq | rdHcFreq | rdSlope | rdBypass | rdChgPeek
      | rdChgTac | rdRsv => cases h; exact ⟨_, rfl⟩
  all_goals cases hi

/-- Everything a HOSTBUS read can do. -/
inductive ReadEffect (i : Instr) (s t : State) : Prop where
  | plain (v : Word) (hi : i ≠ .rdChgTac) (h : t = idleReturning s v)
  | clear (v : Word) (hi : i = .rdChgTac) (h : t = hCommit s { s.h with changed := false } false (some v))
  | pop (ch : Chan) (v : Word) (hi : i = popOp ch) (h : t = hCommit s (popped s.h ch) false (some v))

theorem exec_read_effect {i : Instr} {s t : State} (hi : isRead i = true) (h : exec i s = .next t) :
    ReadEffect i s t := by
  by_cases htac : i = .rdChgTac
  · subst htac
    cases h
    exact .clear _ rfl rfl
  · obtain ⟨v, hv⟩ := exec_read_returns hi h
    cases exec_host_effect (isHost_of_isRead hi) h with
    | plain out h =>
      subst h
      obtain rfl : out = some v := hv
      exact .plain v htac rfl
    | param p h =>
      subst h
      cases hv
    | clear hi _ => exact absurd hi htac
    | pop ch w hi _ _ h => exact .pop ch _ hi h

/-! ### The three shapes beside an idle H step -/

/-- An idle H step that returns `v`, but for channel `ch`'s read pointer, its code and the code's bookkeeping. -/
def idleWithPointer (s : State) (v : Word) (ch : Chan) (rb : Fin 60) (rg : BitVec 6) (kx : Crossing (BitVec 6)) :
    State :=
  { idleReturning s v with
    h := { (hIdle s).h with ring := (hIdle s).h.ring.set ch ⟨rb, rg, ((hIdle s).h.ring.get ch).ws⟩ }
    k := { (hIdle s).k with rgray := (hIdle s).k.rgray.set ch kx } }

theorem idleReturning_eq_idleWithPointer (s : State) (v : Word) (ch : Chan) :
    idleReturning s v =
      idleWithPointer s v ch (rbinOf s ch) (s.h.ring.get ch).rgray ((hIdle s).k.rgray.get ch) := by
  cases ch <;> rfl

theorem hCommit_popped (s : State) (v : Word) (ch : Chan) :
    hCommit s (popped s.h ch) false (some v) =
      idleWithPointer s v ch (inc (rbinOf s ch)) (g60 (inc (rbinOf s ch)))
        ((s.k.rgray.get ch).track (s.h.ring.get ch).rgray (g60 (inc (rbinOf s ch)))) := by
  cases ch <;> rfl

theorem hCommit_cleared (s : State) (v : Word) :
    hCommit s { s.h with changed := false } false (some v) =
      { idleReturning s v with h := { (hIdle s).h with changed := false } } := rfl

end Sys2Proof.Machine

namespace Sys2Proof

open Machine Claims

/-- Settles O15: a read is plain, clears the flag, or pops (`exec_read_effect`); a RING_POP that finds its ring empty is
plain and keeps its pointer. -/
theorem onlyTacAndPopReadsHaveSideEffects : Obligations.OnlyTacAndPopReadsHaveSideEffects := by
  intro i s t hi h
  cases exec_read_effect hi h with
  | plain v hne ht =>
    exact ⟨v, by rw [ht]; rfl, fun _ => ht, fun htac => absurd htac hne,
      fun ch _ => ⟨_, _, _, ht.trans (idleReturning_eq_idleWithPointer s v ch)⟩⟩
  | clear v htac ht =>
    subst htac
    exact ⟨v, by rw [ht]; rfl, nofun, fun _ => ht.trans (hCommit_cleared s v),
      fun ch hpop => absurd hpop.symm (popOp_ne_rdChgTac ch)⟩
  | pop ch v hpop ht =>
    subst hpop
    refine ⟨v, by rw [ht]; rfl, fun hplain => ?_, fun htac => absurd htac (popOp_ne_rdChgTac ch), fun d hd => ?_⟩
    · simp at hplain
    · obtain rfl := popOp_injective hd
      exact ⟨_, _, _, ht.trans (hCommit_popped s v ch)⟩

end Sys2Proof
end

section
/-! SUPPORT. The decoder and the register map (30_encoding R120 to R128, 20_memory R81, R82): which bits of a word each
field reads, which register each address selects, and what the decoder makes of the words the encoder builds. -/

namespace Sys2Proof

/-! ### Fields under a mask -/

/-- A mask that is all ones over a field leaves the field. -/
theorem extractLsb'_and_of_allOnes {n start len : Nat} {w m : BitVec n}
    (hm : m.extractLsb' start len = BitVec.allOnes len) :
    (w &&& m).extractLsb' start len = w.extractLsb' start len := by
  rw [BitVec.extractLsb'_and, hm, BitVec.and_allOnes]

/-- R124: of a HOSTBUS word only W, the word address and D count. -/
theorem decodeHost_congr {v w : BitVec 64} (hw : hostW v = hostW w) (ha : hostWordAddr v = hostWordAddr w)
    (hd : hostData v = hostData w) : decodeHost v = decodeHost w := by
  simp only [decodeHost, hw, ha, hd]

/-- R126: of an AUDIO word only KIND, X0 and X1 count. -/
theorem decodeAudio_congr {v w : BitVec 72} (hk : audioKind v = audioKind w) (h0 : audioX0 v = audioX0 w)
    (h1 : audioX1 v = audioX1 w) : decodeAudio v = decodeAudio w := by
  simp only [decodeAudio, hk, h0, h1]

/-- The operation of a mapped address. -/
theorem decodeHost_of_some {w : BitVec 64} {r : HostReg} (h : hostRegAt (hostWordAddr w) = some r) :
    decodeHost w = if hostW w = 1#1 then r.writeOp (hostData w) else r.readOp := by
  simp only [decodeHost, h]

/-- The operation of a reserved address. -/
theorem decodeHost_of_none {w : BitVec 64} (h : hostRegAt (hostWordAddr w) = none) :
    decodeHost w = if hostW w = 1#1 then .wrRsv (hostWordAddr w) (hostData w) else .rdRsv (hostWordAddr w) := by
  simp only [decodeHost, h]

/-- A read has no data. -/
theorem decodeHost_congr_of_read {v w : BitVec 64} (hv : hostW v = 0#1) (hw : hostW w = 0#1)
    (ha : hostWordAddr v = hostWordAddr w) : decodeHost v = decodeHost w := by
  simp [decodeHost, hv, hw, ha]

theorem decodeAudio_of_kind_one {w : BitVec 72} (h : audioKind w = 1#4) :
    decodeAudio w = .prepare (audioX0 w) ((audioX1 w).extractLsb' 0 2) := by
  simp [decodeAudio, h]

theorem decodeAudio_of_kind_two {w : BitVec 72} (h : audioKind w = 2#4) : decodeAudio w = .blockStart (audioX0 w) := by
  simp [decodeAudio, h]

/-! ### The register map -/

theorem toNat_append_two_zeros (a : BitVec 14) : (a ++ 0#2).toNat = 4 * a.toNat := by
  rw [BitVec.toNat_append]
  simp [Nat.shiftLeft_eq, Nat.mul_comm]

/-- A word address is its bits 13:12 before its bits 11:0. -/
theorem wordAddr_eq_append {a : BitVec 14} {top : BitVec 2} (h : a.extractLsb' 12 2 = top) :
    top ++ a.extractLsb' 0 12 = a := by
  subst h
  exact BitVec.extractLsb'_append_extractLsb'

theorem hostRegAt_window_left (i : BitVec 12) : hostRegAt (1#2 ++ i) = some (.ringWin .left i) := by
  have htop : (1#2 ++ i).extractLsb' 12 2 = 1#2 := BitVec.extractLsb'_append_eq_left
  have hi : (1#2 ++ i).extractLsb' 0 12 = i := BitVec.extractLsb'_append_eq_right
  simp [hostRegAt, htop, hi]

theorem hostRegAt_window_right (i : BitVec 12) : hostRegAt (2#2 ++ i) = some (.ringWin .right i) := by
  have htop : (2#2 ++ i).extractLsb' 12 2 = 2#2 := BitVec.extractLsb'_append_eq_left
  have hi : (2#2 ++ i).extractLsb' 0 12 = i := BitVec.extractLsb'_append_eq_right
  simp [hostRegAt, htop, hi]

/-- Outside the windows the map is the table of R81. -/
theorem hostRegAt_of_not_window {a : BitVec 14} (h1 : a.extractLsb' 12 2 ≠ 1#2) (h2 : a.extractLsb' 12 2 ≠ 2#2) :
    hostRegAt a = hostMap.lookup (a ++ 0#2) := by
  simp [hostRegAt, h1, h2]

/-- R81: every register is at its address. -/
theorem hostRegAt_addr (r : HostReg) : hostRegAt (r.addr.extractLsb' 2 14) = some r := by
  cases r
  case ringWin ch i =>
    cases ch
    · simpa [HostReg.addr] using hostRegAt_window_left i
    · simpa [HostReg.addr] using hostRegAt_window_right i
  case ringStat ch | ringHlen ch | ringPop ch => cases ch <;> rfl
  all_goals rfl

theorem hostMap_addr : ∀ e ∈ hostMap, e.2.addr = e.1 := by decide

/-- R81: an address that selects a register is that register's. -/
theorem addr_of_hostRegAt {a : BitVec 14} {r : HostReg} (h : hostRegAt a = some r) : r.addr = a ++ 0#2 := by
  by_cases h1 : a.extractLsb' 12 2 = 1#2
  · rw [← wordAddr_eq_append h1, hostRegAt_window_left] at h
    cases h
    rw [HostReg.addr, wordAddr_eq_append h1]
  · by_cases h2 : a.extractLsb' 12 2 = 2#2
    · rw [← wordAddr_eq_append h2, hostRegAt_window_right] at h
      cases h
      rw [HostReg.addr, wordAddr_eq_append h2]
    · rw [hostRegAt_of_not_window h1 h2] at h
      obtain ⟨l₁, l₂, hsplit, -⟩ := List.lookup_eq_some_iff.mp h
      exact hostMap_addr (a ++ 0#2, r) (by simp [hsplit])

/-- R81, both ways. -/
theorem hostRegAt_eq_some_iff {a : BitVec 14} {r : HostReg} : hostRegAt a = some r ↔ r.addr = a ++ 0#2 := by
  refine ⟨addr_of_hostRegAt, fun h => ?_⟩
  have ha : r.addr.extractLsb' 2 14 = a := by rw [h, wordAddr_append]
  rw [← ha, hostRegAt_addr]

theorem topBits_eq_iff {a : BitVec 14} {top : BitVec 2} : a.extractLsb' 12 2 = top ↔ a.toNat / 4096 = top.toNat := by
  have hlt := a.isLt
  have hval : (a.extractLsb' 12 2).toNat = a.toNat / 4096 := by
    rw [BitVec.extractLsb'_toNat, Nat.shiftRight_eq_div_pow, Nat.mod_eq_of_lt (by omega)]
  rw [← BitVec.toNat_inj, hval]

theorem lookup_hostMap_eq_none_iff {a : BitVec 14} :
    hostMap.lookup (a ++ 0#2) = none ↔ ∀ e ∈ hostMap, 4 * a.toNat ≠ e.1.toNat := by
  simp [List.lookup_eq_none_iff, ← BitVec.toNat_inj, toNat_append_two_zeros]

/-- The reserved addresses of R82 are those outside the windows and the table of R81. -/
theorem reservedAddr_iff {a : BitVec 14} : reservedAddr a = true ↔
    a.toNat / 4096 ≠ 1 ∧ a.toNat / 4096 ≠ 2 ∧ ∀ e ∈ hostMap, 4 * a.toNat ≠ e.1.toNat := by
  have hlt := a.isLt
  simp only [reservedAddr, hostMap, Bool.or_eq_true, decide_eq_true_eq, List.forall_mem_cons, List.not_mem_nil,
    false_implies, implies_true, and_true, BitVec.toNat_ofNat, Nat.reducePow, Nat.reduceMod]
  omega

/-- R82: no register is selected exactly at the reserved addresses. -/
theorem hostRegAt_eq_none_iff {a : BitVec 14} : hostRegAt a = none ↔ reservedAddr a = true := by
  have hw1 : a.extractLsb' 12 2 = 1#2 ↔ a.toNat / 4096 = 1 := topBits_eq_iff
  have hw2 : a.extractLsb' 12 2 = 2#2 ↔ a.toNat / 4096 = 2 := topBits_eq_iff
  rw [reservedAddr_iff, ← lookup_hostMap_eq_none_iff, ne_eq, ne_eq, ← hw1, ← hw2]
  by_cases h1 : a.extractLsb' 12 2 = 1#2
  · simp [hostRegAt, h1]
  · by_cases h2 : a.extractLsb' 12 2 = 2#2
    · simp [hostRegAt, h2]
    · simp [hostRegAt_of_not_window h1 h2, h1, h2]

/-! ### Decoding what the encoder builds -/

theorem decode_readWord (r : HostReg) : decode (readWord r) = r.readOp := by
  simp [readWord, hostWord_eq, decode, decodeHost, hostRegAt_addr]

theorem decode_writeWord (r : HostReg) (d : Word) : decode (writeWord r d) = r.writeOp d := by
  simp [writeWord, hostWord_eq, decode, decodeHost, hostRegAt_addr]

theorem decode_reservedRead {a : BitVec 14} (h : reservedAddr a = true) : decode (encode (.rdRsv a)) = .rdRsv a := by
  simp [encode, hostWord_eq, decode, decodeHost, hostRegAt_eq_none_iff.mpr h]

theorem decode_reservedWrite {a : BitVec 14} (d : Word) (h : reservedAddr a = true) :
    decode (encode (.wrRsv a d)) = .wrRsv a d := by
  simp [encode, hostWord_eq, decode, decodeHost, hostRegAt_eq_none_iff.mpr h]

/-! ### Every word is an operation -/

namespace HostReg

variable (r : HostReg)

theorem wellFormed_isHost_readOp : r.readOp.wellFormed = true ∧ r.readOp.isHost = true := by
  cases r
  case ringStat ch | ringHlen ch | ringPop ch | ringWin ch _ => cases ch <;> exact ⟨rfl, rfl⟩
  all_goals exact ⟨rfl, rfl⟩

theorem wellFormed_isHost_writeOp (d : Word) : (r.writeOp d).wellFormed = true ∧ (r.writeOp d).isHost = true := by
  cases r
  case ringStat ch | ringHlen ch | ringPop ch | ringWin ch _ => cases ch <;> exact ⟨rfl, rfl⟩
  all_goals exact ⟨rfl, rfl⟩

end HostReg

/-- R125. -/
theorem wellFormed_isHost_decodeHost (w : BitVec 64) :
    (decodeHost w).wellFormed = true ∧ (decodeHost w).isHost = true := by
  cases hr : hostRegAt (hostWordAddr w) with
  | some r =>
    rw [decodeHost_of_some hr]
    split
    · exact r.wellFormed_isHost_writeOp _
    · exact r.wellFormed_isHost_readOp
  | none =>
    have ha := hostRegAt_eq_none_iff.mp hr
    rw [decodeHost_of_none hr]
    split <;> exact ⟨ha, rfl⟩

/-- R125 to R127. -/
theorem wellFormed_isAudio_decodeAudio (w : BitVec 72) :
    (decodeAudio w).wellFormed = true ∧ (decodeAudio w).isHost = false := by
  unfold decodeAudio
  split <;> exact ⟨rfl, rfl⟩

end Sys2Proof

namespace Sys2Proof.Machine

open Sys2Proof Sys2Proof.Claims

/-! ### Ignored data bits -/

theorem isIgnoredWrite_writeOp (r : HostReg) (d e : Word) :
    isIgnoredWrite (r.writeOp d) = isIgnoredWrite (r.writeOp e) := by
  cases r
  case ringStat ch | ringHlen ch | ringPop ch | ringWin ch _ => cases ch <;> rfl
  all_goals rfl

/-- Whether a word is an ignored write does not depend on its data. -/
theorem isIgnoredWrite_decodeHost_congr {v w : BitVec 64} (hw : hostW v = hostW w)
    (ha : hostWordAddr v = hostWordAddr w) : isIgnoredWrite (decodeHost v) = isIgnoredWrite (decodeHost w) := by
  cases hr : hostRegAt (hostWordAddr w) with
  | some r =>
    rw [decodeHost_of_some hr, decodeHost_of_some (ha ▸ hr), hw]
    split
    · exact isIgnoredWrite_writeOp ..
    · rfl
  | none =>
    rw [decodeHost_of_none hr, decodeHost_of_none (ha ▸ hr), hw]
    split <;> rfl

/-- R164, R183: an ignored write does nothing, whatever its data. -/
theorem exec_ignoredWrite {i : Instr} (hi : isIgnoredWrite i = true) (s : State) : exec i s = hostIgnore s := by
  cases i
  case wrRoId | wrRoCaps | wrRoStatus | wrRoChgPeek | wrRoChgTac | wrRoRingStat0 | wrRoRingHlen0 | wrRoRingPop0
      | wrRoRingStat1 | wrRoRingHlen1 | wrRoRingPop1 | wrRoRingWin0 | wrRoRingWin1 | wrRsv => rfl
  all_goals cases hi

theorem withSlope_mask (p : ParamSet) (d : Word) : p.withSlope (d &&& 0x00000303#32) = p.withSlope d := by
  have hlc : slopeLc (d &&& 0x00000303#32) = slopeLc d := extractLsb'_and_of_allOnes (by decide)
  have hhc : slopeHc (d &&& 0x00000303#32) = slopeHc d := extractLsb'_and_of_allOnes (by decide)
  simp only [ParamSet.withSlope, hlc, hhc]

theorem withBypass_mask (p : ParamSet) (d : Word) : p.withBypass (d &&& 0x00000007#32) = p.withBypass d := by
  simp [ParamSet.withBypass]

end Sys2Proof.Machine

namespace Sys2Proof

open Machine Claims

/-- Settles O4: a HOSTBUS operation is the read or the write of a register, or a reserved one; an AUDIO word gives its
fields back. -/
theorem decodeInvertsEncode : Obligations.DecodeInvertsEncode := by
  intro i hi
  cases i
  case rdRsv a => exact decode_reservedRead hi
  case wrRsv a d => exact decode_reservedWrite d hi
  case prepare n m =>
    have hm : (m.setWidth 32).extractLsb' 0 2 = m := by simp [← BitVec.setWidth_eq_extractLsb']
    simp [encode, audioWord_eq, decode, decodeAudio, hm]
  case nop | blockStart | frame | rsvKind4 | rsvKind5 | rsvKind6 | rsvKind7 | rsvKind8 | rsvKind9 | rsvKindA | rsvKindB
      | rsvKindC | rsvKindD | rsvKindE | rsvKindF => simp [encode, audioWord_eq, decode, decodeAudio]
  case rdId | rdCaps | rdStatus | rdPkFreq | rdPkGain | rdPkQ | rdLcFreq | rdHcFreq | rdSlope | rdBypass | rdChgPeek
      | rdChgTac | rdRingStat0 | rdRingHlen0 | rdRingPop0 | rdRingStat1 | rdRingHlen1 | rdRingPop1 | rdRingWin0
      | rdRingWin1 => exact decode_readWord _
  all_goals exact decode_writeWord _ _

/-- Settles O6: the map is read off the table and the two windows, and R82 lists what they leave (`reservedAddr_iff`);
the operations of a mapped address and of a reserved one are well formed and of the port's domain. -/
theorem everyWordIsExactlyOneOperation : Obligations.EveryWordIsExactlyOneOperation :=
  ⟨fun _ _ => hostRegAt_eq_some_iff, fun _ => hostRegAt_eq_none_iff, wellFormed_isHost_decodeHost,
    wellFormed_isAudio_decodeAudio⟩

/-- Settles O5: the masks are all ones over the fields the decoder reads, and the other bits reach no register. -/
theorem reservedBitsAreIgnored : Obligations.ReservedBitsAreIgnored := by
  refine ⟨fun w => ?host, fun w => ?audio, fun w hk => ?prepare, fun w hk => ?blockStart, fun w hw => ?read,
    fun d s => ?slope, fun d s => ?bypass, fun w s hi => ?ignored⟩
  case host =>
    apply decodeHost_congr <;> exact (extractLsb'_and_of_allOnes (by decide)).symm
  case audio =>
    apply decodeAudio_congr <;> exact (extractLsb'_and_of_allOnes (by decide)).symm
  case prepare =>
    have hm : audioKind (w &&& 0xF0FFFFFFFF00000003#72) = audioKind w := extractLsb'_and_of_allOnes (by decide)
    have h0 : audioX0 (w &&& 0xF0FFFFFFFF00000003#72) = audioX0 w := extractLsb'_and_of_allOnes (by decide)
    have h1 : audioX1 (w &&& 0xF0FFFFFFFF00000003#72) = audioX1 w &&& 3#32 := BitVec.extractLsb'_and
    rw [decodeAudio_of_kind_one hk, decodeAudio_of_kind_one (hm.trans hk), h0, h1,
      extractLsb'_and_of_allOnes (by decide)]
  case blockStart =>
    have hm : audioKind (w &&& 0xF0FFFFFFFF00000000#72) = audioKind w := extractLsb'_and_of_allOnes (by decide)
    have h0 : audioX0 (w &&& 0xF0FFFFFFFF00000000#72) = audioX0 w := extractLsb'_and_of_allOnes (by decide)
    rw [decodeAudio_of_kind_two hk, decodeAudio_of_kind_two (hm.trans hk), h0]
  case read =>
    have hm : hostW (w &&& 0x8000FFFC00000000#64) = hostW w := extractLsb'_and_of_allOnes (by decide)
    exact decodeHost_congr_of_read hw (hm.trans hw) (extractLsb'_and_of_allOnes (by decide)).symm
  case slope => simp only [exec, execWrSlope, withSlope_mask]
  case bypass => simp only [exec, execWrBypass, withBypass_mask]
  case ignored =>
    have hi' : isIgnoredWrite (decodeHost (w &&& 0x8000FFFC00000000#64)) = true :=
      (isIgnoredWrite_decodeHost_congr (extractLsb'_and_of_allOnes (by decide))
        (extractLsb'_and_of_allOnes (by decide))).trans hi
    rw [exec_ignoredWrite hi, exec_ignoredWrite hi']

/-- Settles O3, by evaluation of the decoder. -/
theorem specWordsDecodeAsListed : Obligations.SpecWordsDecodeAsListed := by
  unfold Obligations.SpecWordsDecodeAsListed
  decide

end Sys2Proof
end

section
/-! SUPPORT. The pull sequence (30_encoding R131, 42_ring R270): what a consumer that sees a block keeps seeing while it
reads, what its reads return, and the queue before and after the pop. -/

namespace Sys2Proof.Machine

open Sys2Proof

/-! ### Synchronisers -/

theorem mem_shiftIn {α : Type} {v x : α} {c : List α} (h : x ∈ shiftIn v c) : x = v ∨ x ∈ c :=
  List.mem_cons.mp (List.dropLast_subset _ h)

theorem shiftIn_ne_nil {α : Type} {v : α} {c : List α} (h : c ≠ []) : shiftIn v c ≠ [] := by
  cases c with
  | nil => exact absurd rfl h
  | cons x xs => simp [shiftIn]

/-- R311: a capture is the source's value, or the previous one of a fresh source. -/
theorem sample_mem {α : Type} (x : Crossing α) (old : Bool) (src : α) : sample x old src ∈ staleValue x ++ [src] := by
  unfold sample staleValue
  cases x.fresh <;> cases old <;> simp

@[simp] theorem staleValue_sampled {α : Type} (x : Crossing α) : staleValue x.sampled = [] := rfl

@[simp] theorem rbinOf_hCommit (s : State) (h' : HDomain) (pw : Bool) (out : Option Word) (ch : Chan) :
    rbinOf (hCommit s h' pw out) ch = (h'.ring.get ch).rbin := by
  simp [rbinOf]

/-! ### A consumer that sees a block -/

/-- Every copy of channel `ch`'s write pointer that the consumer sees now or can come to see without a push is the code
of a pointer other than the read pointer: no H step that leaves the read pointer makes the ring look empty. -/
def SeesBlock (s : State) (ch : Chan) : Prop :=
  (s.h.ring.get ch).ws ≠ [] ∧
    ∀ g ∈ (s.h.ring.get ch).ws ++ staleValue (s.k.wgray.get ch) ++ [(s.a.lane.get ch).wgray],
      ∃ p, g60inv g = some p ∧ p ≠ rbinOf s ch

/-- Under the invariant the copies of the write pointer newer than the consumer's view are codes of pointers no further
behind, counted from the producer's view of the read pointer. -/
theorem Inv.newer_copy {s : State} {ch : Chan} {w r : Fin 60} {c : BitVec 6} (hs : Inv s) (hw : wsync s ch = some w)
    (hr : rsync s ch = some r)
    (hc : c ∈ (s.h.ring.get ch).ws ++ staleValue (s.k.wgray.get ch) ++ [(s.a.lane.get ch).wgray]) :
    ∃ p, g60inv c = some p ∧ ptrDist w r ≤ ptrDist p r := by
  obtain ⟨g, hg, hgw⟩ := Option.bind_eq_some_iff.mp hw
  obtain ⟨ys, hws⟩ := List.getLast?_eq_some_iff.mp hg
  obtain ⟨r', hr', hpair, hall⟩ := trailOrdered_iff.mp (hs.ordered ch)
  obtain rfl : r' = r := Option.some.inj (hr'.symm.trans hr)
  have htrail : pointerTrail s ch =
      ((s.a.lane.get ch).rs.reverse ++ staleValue (s.k.rgray.get ch) ++ [(s.h.ring.get ch).rgray]) ++
        (g :: (ys.reverse ++ staleValue (s.k.wgray.get ch) ++ [(s.a.lane.get ch).wgray])) := by
    simp [pointerTrail, hws]
  have hmem : c = g ∨ c ∈ ys.reverse ++ staleValue (s.k.wgray.get ch) ++ [(s.a.lane.get ch).wgray] := by
    simp only [hws, List.mem_append, List.mem_singleton, List.mem_reverse] at hc ⊢
    tauto
  rw [htrail] at hpair hall
  have hgc : aheadOf r' g ≤ aheadOf r' c := by
    rcases hmem with rfl | hmem
    · exact Nat.le_refl _
    · rw [List.map_append, List.pairwise_append, List.map_cons, List.pairwise_cons] at hpair
      obtain ⟨-, ⟨hnewer, -⟩, -⟩ := hpair
      exact hnewer _ (List.mem_map_of_mem hmem)
  have hc30 : aheadOf r' c ≤ 30 := hall c (List.mem_append_right _ (List.mem_cons.mpr hmem))
  obtain ⟨p, hp⟩ := aheadOf_lt_iff.mp (Nat.lt_of_le_of_lt hc30 (by decide))
  rw [aheadOf_of_inv hgw, aheadOf_of_inv hp] at hgc
  exact ⟨p, hp, hgc⟩

theorem Inv.seesBlock {s : State} {ch : Chan} {w : Fin 60} (hs : Inv s) (hw : wsync s ch = some w)
    (hne : w ≠ rbinOf s ch) : SeesBlock s ch := by
  refine ⟨fun hnil => by simp [wsync, lastPointer, hnil] at hw, fun c hc => ?_⟩
  obtain ⟨w', r, hw', hr, hrw, -⟩ := hs.pointer_views ch
  obtain rfl : w' = w := Option.some.inj (hw'.symm.trans hw)
  obtain ⟨p, hp, hwp⟩ := hs.newer_copy hw hr hc
  refine ⟨p, hp, ?_⟩
  rintro rfl
  exact hne (ptrDist_left_inj.mp (Nat.le_antisymm hwp hrw))

namespace SeesBlock

variable {s : State} {ch : Chan} (hs : SeesBlock s ch)
include hs

theorem exists_wsync : ∃ w, wsync s ch = some w ∧ w ≠ rbinOf s ch := by
  obtain ⟨hne, hall⟩ := hs
  have hlast := List.getLast?_eq_some_getLast hne
  obtain ⟨w, hw, hwr⟩ := hall _ (by simp : (s.h.ring.get ch).ws.getLast hne ∈ _)
  exact ⟨w, by simp [wsync, lastPointer, hlast, hw], hwr⟩

/-- An H step that leaves the read pointer shifts the copies on. -/
theorem commit {h' : HDomain} (hr : (h'.ring.get ch).rbin = rbinOf s ch) (pw : Bool) (out : Option Word) :
    SeesBlock (hCommit s h' pw out) ch := by
  obtain ⟨hne, hall⟩ := hs
  have hstale : staleValue ((hCommit s h' pw out).k.wgray.get ch) = [] := by cases ch <;> rfl
  refine ⟨by simpa [wsNext] using shiftIn_ne_nil hne, fun g hg => ?_⟩
  rw [rbinOf_hCommit, hr]
  refine hall g ?_
  rw [hstale, hCommit_h, hCommit_a, hBackground_ws, List.append_nil, List.mem_append] at hg
  rw [List.append_assoc, List.mem_append]
  rcases hg with hg | hg
  · rcases mem_shiftIn hg with rfl | hg
    · exact .inr (sample_mem ..)
    · exact .inl hg
  · exact .inr (List.mem_append_right _ hg)

end SeesBlock

/-! ### Ring reads of a readable ring -/

/-- EMPTY is bit 8 of the RING_STAT word (R265). -/
theorem getLsbD_ringStatWord (w r : Fin 60) : (ringStatWord w r).getLsbD 8 = isEmpty w r := by
  have hlt : level w r < 2 ^ 8 := Nat.lt_trans (ptrDist_lt w r) (by decide)
  cases he : isEmpty w r with
  | true =>
    have hz : level w r = 0 := by simpa [isEmpty] using he
    simp [ringStatWord, he, hz]
  | false =>
    simp only [ringStatWord, he, Bool.false_eq_true, if_false, Nat.zero_add, BitVec.getLsbD_ofNat,
      Nat.testBit_lt_two_pow hlt, Bool.and_false]

section
variable {s : State} {ch : Chan} {w : Fin 60} (hw : wsync s ch = some w)
include hw

/-- R265. -/
theorem exec_statOp_of_wsync :
    exec (statOp ch) s = .next (hCommit s s.h false (some (ringStatWord w (rbinOf s ch)))) := by
  cases ch <;> simp [exec, statOp, execRdRingStat0, execRdRingStat1, ringStat, hw]

/-- R268, on a ring that is not empty. -/
theorem exec_popOp_of_wsync (hne : w ≠ rbinOf s ch) :
    exec (popOp ch) s = .next (hCommit s (popped s.h ch) false (some 1#32)) := by
  cases ch <;> simp [exec, popOp, execRdRingPop0, execRdRingPop1, ringPop, hw, hne]

end

section
variable {s : State} {ch : Chan} {w : Fin 60} (hne : w ≠ rbinOf s ch)
include hne

theorem ringHlenWord_of_ne : ringHlenWord s ch w = (slotTag s.mem (headKey s ch)).zeroExtend 32 := by
  simp [ringHlenWord, hne]

theorem ringWinWord_of_lt {i : BitVec 12} (hi : i.toNat < (slotTag s.mem (headKey s ch)).toNat) :
    ringWinWord s ch i w = slotWord s.mem (headKey s ch) i.toNat := by
  simp [ringWinWord, hne, hi]

end

/-! ### Sequences of reads -/

/-- A read that returns `v`, then the rest. -/
theorem readAll_cons {i : Instr} {is : List Instr} {s t u : State} {v : Word} {vs : List Word}
    (hi : exec i s = .next t) (hv : t.hostOut = some v) (his : readAll is t = .next (u, vs)) :
    readAll (i :: is) s = .next (u, v :: vs) := by
  simp [readAll, hi, his, hv]

theorem readAll_singleton {i : Instr} {s t : State} {v : Word} (hi : exec i s = .next t) (hv : t.hostOut = some v) :
    readAll [i] s = .next (t, [v]) := readAll_cons hi hv rfl

/-- `t` comes from `s` by H steps that leave channel `ch`'s ring as it is, and its consumer sees a block. -/
structure HeadKept (ch : Chan) (s t : State) : Prop where
  mem : t.mem = s.mem
  a : t.a = s.a
  rbin : rbinOf t ch = rbinOf s ch
  sees : SeesBlock t ch

theorem SeesBlock.headKept {s : State} {ch : Chan} (hs : SeesBlock s ch) : HeadKept ch s s := ⟨rfl, rfl, rfl, hs⟩

theorem HeadKept.read {s t : State} {ch : Chan} (h : HeadKept ch s t) (out : Option Word) :
    HeadKept ch s (hCommit t t.h false out) :=
  ⟨h.mem, h.a, (rbinOf_hCommit ..).trans h.rbin, h.sees.commit rfl false out⟩

theorem HeadKept.headKey {s t : State} {ch : Chan} (h : HeadKept ch s t) : headKey t ch = headKey s ch := by
  rw [Machine.headKey, h.rbin, Machine.headKey]

section
variable {ch : Chan} {s t : State} (h : HeadKept ch s t)
include h

theorem readAll_statOp : ∃ u v, readAll [statOp ch] t = .next (u, [v]) ∧ v.getLsbD 8 = false ∧ HeadKept ch s u := by
  obtain ⟨w, hw, hne⟩ := h.sees.exists_wsync
  refine ⟨_, _, readAll_singleton (exec_statOp_of_wsync hw) rfl, ?_, h.read _⟩
  rw [getLsbD_ringStatWord, ← Bool.not_eq_true, isEmpty_iff]
  exact hne

theorem readAll_hlenOp : ∃ u, readAll [hlenOp ch] t = .next (u, [(slotTag s.mem (headKey s ch)).zeroExtend 32]) ∧
    HeadKept ch s u := by
  obtain ⟨w, hw, hne⟩ := h.sees.exists_wsync
  refine ⟨_, readAll_singleton (exec_hlenOp_of_wsync hw) ?_, h.read _⟩
  rw [hCommit_hostOut, ringHlenWord_of_ne hne, h.mem, h.headKey]

/-- R267: window reads below the head's length return its words. -/
theorem readAll_winOps (is : List Nat) (his : ∀ i ∈ is, i < 4096 ∧ i < (slotTag s.mem (headKey s ch)).toNat) :
    ∃ u, readAll (is.map (fun i => winOp ch (BitVec.ofNat 12 i))) t =
      .next (u, is.map (slotWord s.mem (headKey s ch))) ∧ HeadKept ch s u := by
  induction is generalizing t with
  | nil => exact ⟨t, rfl, h⟩
  | cons i is ih =>
    obtain ⟨hi, hrest⟩ := List.forall_mem_cons.mp his
    obtain ⟨w, hw, hne⟩ := h.sees.exists_wsync
    obtain ⟨u, hu, hkept⟩ := ih (h.read _) hrest
    refine ⟨u, readAll_cons (exec_winOp_of_wsync hw _) ?_ hu, hkept⟩
    have hval : (BitVec.ofNat 12 i).toNat = i := Nat.mod_eq_of_lt hi.1
    have hlt : (BitVec.ofNat 12 i).toNat < (slotTag t.mem (headKey t ch)).toNat := by
      rw [hval, h.mem, h.headKey]
      exact hi.2
    rw [hCommit_hostOut, ringWinWord_of_lt hne hlt, hval, h.mem, h.headKey]

theorem readAll_popOp : readAll [popOp ch] t = .next (hCommit t (popped t.h ch) false (some 1#32), [1#32]) := by
  obtain ⟨w, hw, hne⟩ := h.sees.exists_wsync
  exact readAll_singleton (exec_popOp_of_wsync hw hne) rfl

end

/-! ### The pull sequence -/

/-- `pull` on a ring that the consumer sees empty stops after RING_STAT. -/
theorem pull_of_empty {ch : Chan} {s : State} (hw : wsync s ch = some (rbinOf s ch)) :
    pull ch s = .next (hCommit s s.h false (some (ringStatWord (rbinOf s ch) (rbinOf s ch))), none) := by
  have hempty : isEmpty (rbinOf s ch) (rbinOf s ch) = true := isEmpty_iff.mpr rfl
  simp [pull, readAll_singleton (exec_statOp_of_wsync hw) rfl, getLsbD_ringStatWord, hempty]

/-- `pull` on a ring in which the consumer sees a block reads the head, then pops it. -/
theorem pull_of_seesBlock {ch : Chan} {s : State} (hs : SeesBlock s ch)
    (hlen : (slotTag s.mem (headKey s ch)).toNat ≤ 4096) :
    ∃ t, HeadKept ch s t ∧ pull ch s = .next (hCommit t (popped t.h ch) false (some 1#32),
      some ((blockAt s ch (rbinOf s ch)).1.zeroExtend 32, (blockAt s ch (rbinOf s ch)).2, [1#32])) := by
  obtain ⟨s1, v, hstat, hv, h1⟩ := readAll_statOp hs.headKept
  obtain ⟨s2, hhlen, h2⟩ := readAll_hlenOp h1
  obtain ⟨s3, hwin, h3⟩ := readAll_winOps h2 (List.range (slotTag s.mem (headKey s ch)).toNat) fun i hi =>
    ⟨Nat.lt_of_lt_of_le (List.mem_range.mp hi) hlen, List.mem_range.mp hi⟩
  have htoNat : ((slotTag s.mem (headKey s ch)).zeroExtend 32).toNat = (slotTag s.mem (headKey s ch)).toNat :=
    BitVec.toNat_setWidth_of_le (by decide)
  refine ⟨s3, h3, ?_⟩
  simp only [pull, hstat, hhlen, winReads, List.headD_cons, hv, htoNat, hwin, readAll_popOp h3]
  rfl

/-! ### The queue -/

theorem ptrDist_inc_right {w r : Fin 60} (h : 0 < ptrDist w r) : ptrDist w r = ptrDist w (inc r) + 1 := by
  simp only [ptrDist, inc] at h ⊢
  omega

theorem advance_inc (p : Fin 60) (n : Nat) : advance (inc p) n = advance p (n + 1) := by
  simp only [advance, inc, Fin.mk.injEq]
  omega

section
variable {s t : State} {ch : Chan} (hmem : t.mem = s.mem) (ha : t.a = s.a)
include hmem ha

theorem queued_congr (hr : rbinOf t ch = rbinOf s ch) : queued t ch = queued s ch := by
  have hocc : occupancy t ch = occupancy s ch := by
    rw [occupancy, ha]
    exact congrArg _ hr
  simp only [queued, hocc, hr, blockAt, hmem]

/-- A read pointer that advances takes the oldest block off the queue. -/
theorem queued_of_inc (hr : rbinOf t ch = inc (rbinOf s ch)) (hpos : 0 < occupancy s ch) :
    queued s ch = blockAt s ch (rbinOf s ch) :: queued t ch := by
  have hocc : occupancy s ch = occupancy t ch + 1 := by
    refine (ptrDist_inc_right hpos).trans ?_
    rw [occupancy, ha]
    exact congrArg (ptrDist _ · + 1) hr.symm
  simp only [queued, hocc, List.range_succ_eq_map, List.map_cons, advance_zero, List.map_map, Function.comp_def,
    Nat.succ_eq_add_one, ← advance_inc, ← hr, blockAt, hmem]

end

theorem Inv.head_length_le {s : State} {ch : Chan} (hs : Inv s) (hpos : 0 < occupancy s ch) :
    (slotTag s.mem (headKey s ch)).toNat ≤ 4096 := by
  obtain ⟨v, hv⟩ := hs.find_of_lt_occupancy ch hpos
  rw [advance_zero] at hv
  obtain ⟨-, hdata, hmax⟩ := slotWf_iff.mp (hs.slotWf_of_find hv)
  have hwf := hs.params
  simp only [Config.Params.wf, Bool.and_eq_true, decide_eq_true_eq] at hwf
  rw [headKey, slotTag_of_find hv]
  omega

end Sys2Proof.Machine

namespace Sys2Proof

open Machine

/-- Settles O55: the reads keep the head and a view that is not empty (`HeadKept`), so `pull` returns the head block and
pops it, and the queue loses its first block. -/
theorem pullReturnsTheOldestBlock : Obligations.PullReturnsTheOldestBlock := by
  intro ch s w hs hw
  constructor
  · rintro rfl
    exact ⟨_, pull_of_empty hw, queued_congr rfl rfl (rbinOf_hCommit ..)⟩
  · intro hne
    have hpos := hs.occupancy_pos ch hw hne
    obtain ⟨t, hkept, hpull⟩ := pull_of_seesBlock (hs.seesBlock hw hne) (hs.head_length_le hpos)
    refine ⟨_, _, _, hpull, ?_⟩
    have hr : rbinOf (hCommit t (popped t.h ch) false (some 1#32)) ch = inc (rbinOf s ch) := by
      rw [rbinOf_hCommit, popped_rbin]
      exact congrArg inc hkept.rbin
    have hqueue := queued_of_inc (t := hCommit t (popped t.h ch) false (some 1#32)) hkept.mem hkept.a hr hpos
    rw [hqueue, BitVec.setWidth_setWidth_of_le _ (by decide), BitVec.setWidth_eq]

end Sys2Proof
end

section
/-! SUPPORT. The host registers outside the rings (40_host_registers R161 to R183): the three shapes of their operations
beside an idle H step, and the fields of the words their reads assemble. -/

namespace Sys2Proof.Machine

open Sys2Proof Sys2Proof.Claims

/-! ### The operations beside an idle H step -/

theorem hostRead_eq (v : Word) (s : State) : hostRead v s = .next (idleReturning s v) := rfl

theorem hostIgnore_eq (s : State) : hostIgnore s = .next (hIdle s) := rfl

/-- R165: a parameter write leaves `H.dirty` at 1 even when the background has just offered the old store. -/
theorem hBackground_paramWrite (s : State) (p : ParamSet) :
    hBackground s { s.h with shadow := p, changed := true } true =
      { hBackground s s.h false with shadow := p, changed := true, dirty := true } := by
  simp [hBackground]

theorem paramWrite_eq (p : ParamSet) (s : State) : paramWrite p s = .next (idleWriting s p) := by
  rw [paramWrite, hCommit, hBackground_paramWrite]
  rfl

/-! ### The words of the reads -/

theorem extractLsb'_ofNat_eq {w n : Nat} (start len : Nat) {x : Nat} (hn : n < 2 ^ w)
    (hx : n / 2 ^ start % 2 ^ len = x % 2 ^ len) : (BitVec.ofNat w n).extractLsb' start len = BitVec.ofNat len x := by
  apply BitVec.eq_of_toNat_eq
  rw [BitVec.extractLsb'_toNat, BitVec.toNat_ofNat, BitVec.toNat_ofNat, Nat.mod_eq_of_lt hn,
    Nat.shiftRight_eq_div_pow, hx]

/-- R162: the fields of CAPS from bit 31 down, the unused bits 23:21 and 15:13 between them. -/
theorem capsWord_fields (p : Config.Params) :
    (capsWord p).extractLsb' 28 4 = BitVec.ofNat 4 (min p.nSync 15) ∧
    (capsWord p).extractLsb' 24 4 = 4#4 ∧ (capsWord p).extractLsb' 21 3 = 0#3 ∧
    (capsWord p).extractLsb' 16 5 = 30#5 ∧ (capsWord p).extractLsb' 13 3 = 0#3 ∧
    (capsWord p).extractLsb' 0 13 = BitVec.ofNat 13 p.blkMax := by
  simp only [capsWord, Config.nStg, Config.capacity]
  have hlt : min p.nSync 15 * 2 ^ 28 + 4 * 2 ^ 24 + 30 * 2 ^ 16 + p.blkMax % 2 ^ 13 < 2 ^ 32 := by omega
  refine ⟨extractLsb'_ofNat_eq 28 4 hlt ?_, extractLsb'_ofNat_eq 24 4 hlt ?_, extractLsb'_ofNat_eq 21 3 hlt ?_,
    extractLsb'_ofNat_eq 16 5 hlt ?_, extractLsb'_ofNat_eq 13 3 hlt ?_, extractLsb'_ofNat_eq 0 13 hlt ?_⟩ <;> omega

/-- R163, R319. -/
theorem statusWord_bits (s : State) :
    (statusWord s).getLsbD 8 = paramPending s ∧ (statusWord s).getLsbD 1 = lastBit s.h.accerrS ∧
    (statusWord s).getLsbD 0 = lastBit s.h.cfgerrS ∧ statusWord s &&& 0xFFFFFEFC#32 = 0#32 := by
  unfold statusWord
  cases paramPending s <;> cases lastBit s.h.accerrS <;> cases lastBit s.h.cfgerrS <;> decide

/-- R177. -/
theorem slopeWord_fields (p : ParamSet) :
    (slopeWord p).extractLsb' 8 2 = p.hcSlope ∧ (slopeWord p).extractLsb' 0 2 = p.lcSlope ∧
    slopeWord p &&& 0xFFFFFCFC#32 = 0#32 := by
  unfold slopeWord
  generalize p.hcSlope = hc
  generalize p.lcSlope = lc
  revert hc lc
  decide

/-- R179. -/
theorem bypassWord_bits (p : ParamSet) :
    (bypassWord p).getLsbD 2 = p.hcByp ∧ (bypassWord p).getLsbD 1 = p.pkByp ∧ (bypassWord p).getLsbD 0 = p.lcByp ∧
    bypassWord p &&& 0xFFFFFFF8#32 = 0#32 := by
  unfold bypassWord
  cases p.hcByp <;> cases p.pkByp <;> cases p.lcByp <;> decide

end Sys2Proof.Machine

namespace Sys2Proof

open Machine Claims

/-- Settles O7: both are plain reads of a constant. -/
theorem idAndReservedReadsReturnConstants : Obligations.IdAndReservedReadsReturnConstants :=
  fun s => ⟨hostRead_eq idWord s, fun _ => hostRead_eq 0#32 s⟩

/-- Settles O8: a plain read of the CAPS word (`capsWord_fields`). -/
theorem capsReportsTheParameters : Obligations.CapsReportsTheParameters :=
  fun s => ⟨capsWord s.cfg, hostRead_eq _ s, capsWord_fields s.cfg⟩

/-- Settles O9: a plain read of the STATUS word (`statusWord_bits`). -/
theorem statusReportsPendingAndErrors : Obligations.StatusReportsPendingAndErrors :=
  fun s => ⟨statusWord s, hostRead_eq _ s, statusWord_bits s⟩

/-- Settles O10: plain reads of fields of the store, and of the two assembled words (`slopeWord_fields`,
`bypassWord_bits`). -/
theorem parameterReadsReturnTheStore : Obligations.ParameterReadsReturnTheStore :=
  fun s => ⟨hostRead_eq _ s, hostRead_eq _ s, hostRead_eq _ s, hostRead_eq _ s, hostRead_eq _ s,
    ⟨slopeWord s.h.shadow, hostRead_eq _ s, slopeWord_fields s.h.shadow⟩,
    ⟨bypassWord s.h.shadow, hostRead_eq _ s, bypassWord_bits s.h.shadow⟩⟩

/-- Settles O11: each is a `paramWrite` of the store with its own fields replaced (`paramWrite_eq`). -/
theorem parameterWritesUpdateTheStore : Obligations.ParameterWritesUpdateTheStore :=
  fun d s => ⟨paramWrite_eq _ s, paramWrite_eq _ s, paramWrite_eq _ s, paramWrite_eq _ s, paramWrite_eq _ s,
    paramWrite_eq (s.h.shadow.withSlope d) s, paramWrite_eq (s.h.shadow.withBypass d) s⟩

/-- Settles O13: CHG_PEEK is a plain read of the flag, and CHG_TAC differs from one by the cleared flag alone
(`hCommit_cleared`). -/
theorem changedFlagIsPeekedAndCleared : Obligations.ChangedFlagIsPeekedAndCleared :=
  fun s => ⟨hostRead_eq (flagWord s.h.changed) s,
    congrArg Host.Outcome.next (hCommit_cleared s (flagWord s.h.changed))⟩

/-- Settles O14, by `exec_ignoredWrite`. -/
theorem readOnlyAndReservedWritesDoNothing : Obligations.ReadOnlyAndReservedWritesDoNothing :=
  fun _ s hi => (exec_ignoredWrite hi s).trans (hostIgnore_eq s)

end Sys2Proof
end

section
/-! SUPPORT. What every AUDIO step keeps outside the A domain, and what NOP, PREPARE and BLOCK_START leave in the
A registers (41_audio_engine R206 to R208, R212, R222). -/

namespace Sys2Proof.Machine

open Sys2Proof Claims

/-! ### Every AUDIO step -/

theorem onlyAChanges_aCommit (s : State) (a' : ADomain) (m : Memory) (out : Option (F32 × F32)) :
    OnlyAChanges s (aCommit s a' m out) := ⟨rfl, rfl, rfl, rfl, rfl, rfl⟩

theorem sameConfiguration_refl (a : ADomain) : SameConfiguration a a := ⟨rfl, rfl, rfl, rfl, rfl, rfl, rfl, rfl⟩

theorem execPrepare_sameConfiguration {n : Word} {m : BitVec 2} {s t : State} (h : execPrepare n m s = .next t) :
    SameConfiguration t.a s.a := by
  cases h
  exact sameConfiguration_refl s.a

theorem execFrame_sameConfiguration {x0 x1 : F32} {s t : State} (h : execFrame x0 x1 s = .next t) :
    SameConfiguration t.a s.a := by
  obtain ⟨y0, l0, m0, y1, l1, m1, -, -, rfl⟩ := execFrame_next h
  exact sameConfiguration_refl s.a

/-! ### NOP -/

theorem exec_nop_eq {i : Instr} (hi : isNop i = true) (s : State) : exec i s = .next (aIdle s) := by
  cases i
  case nop | rsvKind4 | rsvKind5 | rsvKind6 | rsvKind7 | rsvKind8 | rsvKind9 | rsvKindA | rsvKindB | rsvKindC | rsvKindD
      | rsvKindE | rsvKindF => rfl
  all_goals simp [isNop] at hi

/-! ### PREPARE -/

theorem validLength_iff {p : Config.Params} {n : Word} :
    validLength p n = true ↔ 1 ≤ n.toNat ∧ n.toNat ≤ p.blkMax := by simp [validLength]

/-- A length in range fits the 13 bits of `A.bsz`, since BLK_MAX is at most 4096 (00_scope R7). -/
theorem toNat_lt_of_validLength {p : Config.Params} (hp : p.wf = true) {n : Word} (hn : validLength p n = true) :
    n.toNat < 2 ^ 13 := by
  have hmax : p.blkMax ≤ 4096 := by
    simp only [Config.Params.wf, Bool.and_eq_true, decide_eq_true_eq] at hp
    exact hp.2
  have hle := (validLength_iff.mp hn).2
  omega

@[simp] theorem prepareLane_unselected (ok : Bool) (n : Word) (l : Lane) : prepareLane ok false n l = l := rfl

@[simp] theorem prepareLane_valid (n : Word) (l : Lane) :
    prepareLane true true n l = { l with prep := true, bsz := BitVec.ofNat 13 n.toNat, cur := 0#13 } := rfl

@[simp] theorem prepareLane_invalid (n : Word) (l : Lane) :
    prepareLane false true n l = { l with prep := false, bsz := 0#13, cur := 0#13 } := rfl

theorem execPrepare_lane {n : Word} {m : BitVec 2} {s t : State} (h : execPrepare n m s = .next t) (ch : Chan) :
    t.a.lane.get ch =
      { prepareLane (validLength s.cfg n) (maskBit m ch) n (s.a.lane.get ch) with rs := rsNext s ch } := by
  cases h
  cases ch <;> rfl

theorem maskBit_or_iff (m : BitVec 2) : (maskBit m .left || maskBit m .right) = true ↔ m ≠ 0#2 := by
  revert m
  decide

/-! ### BLOCK_START -/

@[simp] theorem slopeEnables_get (n : BitVec 2) (k : Fin 4) : (slopeEnables n).get k = decide (k.val ≤ n.toNat) :=
  Bank.get_ofFn _ k

@[simp] theorem reloadBank_get (n : BitVec 2) (new : Fin 4 → Coef) (old : Bank Coef) (k : Fin 4) :
    (reloadBank n new old).get k = if k.val ≤ n.toNat then new k else old.get k :=
  Bank.get_ofFn _ k

/-- An ordinal enables one stage more than its number (R213). -/
theorem length_filter_le_ordinal (n : BitVec 2) :
    ((List.finRange 4).filter (fun k => decide (k.val ≤ n.toNat))).length = n.toNat + 1 := by
  revert n
  decide

end Sys2Proof.Machine

namespace Sys2Proof

open Machine Claims

/-- Settles O28: each of them is an idle A step (`exec_nop_eq`). -/
theorem nopAndReservedKindsWriteNothing : Obligations.NopAndReservedKindsWriteNothing := by
  intro i s hi
  exact ⟨aIdle s, exec_nop_eq hi s, onlyAChanges_aCommit .., rfl, rfl, sameConfiguration_refl s.a, rfl, rfl,
    fun ch => by simp [aIdle]⟩

/-- Settles O29: of each channel only what `prepareLane` gives is written, by the mask bit and the validity. -/
theorem prepareSelectsTheBlockLength : Obligations.PrepareSelectsTheBlockLength := by
  intro n m s hcfg
  obtain ⟨t, ht⟩ : ∃ t, execPrepare n m s = .next t := ⟨_, rfl⟩
  have hframe : OnlyAChanges s t ∧ t.audioOut = none := by
    cases ht
    exact ⟨onlyAChanges_aCommit .., rfl⟩
  refine ⟨t, ht, hframe.1, execPrepare_mem ht, hframe.2, execPrepare_sameConfiguration ht, execPrepare_cfgErr ht,
    fun ch => ⟨_, rfl, fun hm => ?_, fun hm => ?_⟩, ?_⟩
  · have hsel : maskBit m ch = false := hm
    simp [execPrepare_lane ht, hsel]
  · have hsel : maskBit m ch = true := hm
    rw [execPrepare_lane ht, hsel, ← validLength_iff]
    cases hv : validLength s.cfg n with
    | true => simpa using toNat_lt_of_validLength hcfg hv
    | false => simp
  · rw [execPrepare_accErr ht, ← validLength_iff, ← maskBit_or_iff, Bool.or_eq_true, Bool.and_eq_true,
      Bool.not_eq_true', Bool.not_eq_true, and_comm]

/-- Settles O30: what `loadBlock` writes from the pre-step live set, register by register. -/
theorem blockStartReloadsTheConfiguration : Obligations.BlockStartReloadsTheConfiguration := by
  intro fs s
  exact ⟨aCommit s (loadBlock s.a s.a.live fs) s.mem none, rfl, onlyAChanges_aCommit .., rfl, rfl, rfl, rfl,
    fun k => ⟨slopeEnables_get _ k, slopeEnables_get _ k, reloadBank_get _ _ _ k, reloadBank_get _ _ _ k⟩,
    rfl, rfl, rfl, rfl, loadBlock_cfgErr .., rfl, fun ch => by simp⟩

/-- Settles O31: the enables are the ordinals' (`slopeEnables_get`) and the bypass flags the live set's. -/
theorem slopePolicyActivatesLowestStages : Obligations.SlopePolicyActivatesLowestStages := by
  intro fs s t h
  cases h
  have hlc (k : Fin 4) : (slopeEnables s.a.live.lcSlope).get k = decide (k.val ≤ s.a.live.lcSlope.toNat) :=
    slopeEnables_get _ k
  have hhc (k : Fin 4) : (slopeEnables s.a.live.hcSlope).get k = decide (k.val ≤ s.a.live.hcSlope.toNat) :=
    slopeEnables_get _ k
  refine ⟨fun k => ⟨hlc k, hhc k⟩, ?_, ?_, fun k => ⟨?_, ?_⟩, rfl⟩
  · exact (congrArg (fun p => (List.filter p _).length) (funext hlc)).trans (length_filter_le_ordinal _)
  · exact (congrArg (fun p => (List.filter p _).length) (funext hhc)).trans (length_filter_le_ordinal _)
  · exact congrArg (· && !s.a.live.lcByp) (hlc k)
  · exact congrArg (· && !s.a.live.hcByp) (hhc k)

/-- Settles O41: a HOSTBUS operation leaves the A side alone, and of the AUDIO operations only BLOCK_START writes a
register of the configuration. -/
theorem onlyBlockStartChangesTheConfiguration : Obligations.OnlyBlockStartChangesTheConfiguration := by
  intro i s t hblock h
  cases hi : i.isHost with
  | true =>
    rw [(exec_host_effect hi h).a_eq]
    exact sameConfiguration_refl s.a
  | false =>
    cases exec_audio_effect hi h with
    | nothing h => subst h; exact sameConfiguration_refl s.a
    | prepare n m _ h => exact execPrepare_sameConfiguration h
    | block fs hi _ => exact absurd hi (hblock fs)
    | frame x0 x1 _ h => exact execFrame_sameConfiguration h

end Sys2Proof
end

section
/-! SUPPORT. The chain of nine stages (41_audio_engine R201 to R205): it is a fold over the stages, an inactive stage is
skipped, and its result rests on the configuration and on the channel's own stage states alone. -/

namespace Sys2Proof.Machine

open Sys2Proof Claims

/-! ### The list of the stages -/

theorem map_stageAt : (List.finRange 9).map stageAt = stageOrder := by decide

theorem nodup_stageOrder : stageOrder.Nodup := by decide

theorem mem_stageOrder (j : Stage) : j ∈ stageOrder := by
  cases j with
  | pk => decide
  | lc k => revert k; decide
  | hc k => revert k; decide

/-! ### A run over a list of stages -/

/-- One stage of the chain (R203): what it makes of the running output and the channel's stage states. -/
def stageStep (active : Stage → Bool) (coef : Stages Coef) (v : F32 × Stages StageState) (j : Stage) :
    F32 × Stages StageState :=
  if active j = true then
    ((biquad (coef.get j) (v.2.get j) v.1).1, v.2.set j (biquad (coef.get j) (v.2.get j) v.1).2)
  else v

section
variable {active : Stage → Bool} {coef : Stages Coef} {j : Stage} {js : List Stage} {st : Stages StageState} {v : F32}

theorem chainRun_cons_of_active (h : active j = true) :
    chainRun active coef (j :: js) st v =
      chainRun active coef js (st.set j (biquad (coef.get j) (st.get j) v).2) (biquad (coef.get j) (st.get j) v).1 :=
  if_pos h

theorem chainRun_cons_of_inactive (h : active j = false) :
    chainRun active coef (j :: js) st v = chainRun active coef js st v :=
  if_neg (by simp [h])

theorem chainRun_eq_foldl : chainRun active coef js st v = js.foldl (stageStep active coef) (v, st) := by
  induction js generalizing st v with
  | nil => rfl
  | cons j js ih =>
    rw [List.foldl_cons]
    cases hj : active j with
    | true => rw [chainRun_cons_of_active hj, ih, stageStep, if_pos hj]
    | false => rw [chainRun_cons_of_inactive hj, ih, stageStep, if_neg (by simp [hj])]

/-- A bypassed stage keeps its state (R202). -/
theorem chainRun_get_of_inactive (h : active j = false) : (chainRun active coef js st v).2.get j = st.get j := by
  induction js generalizing st v with
  | nil => rfl
  | cons i is ih =>
    cases hi : active i with
    | false => rw [chainRun_cons_of_inactive hi, ih]
    | true =>
      have hne : j ≠ i := fun e => by simp [← e, h] at hi
      rw [chainRun_cons_of_active hi, ih, Stages.get_set, if_neg hne]

theorem chainRun_of_all_inactive (h : ∀ i ∈ js, active i = false) : chainRun active coef js st v = (v, st) := by
  induction js with
  | nil => rfl
  | cons i is ih =>
    rw [List.forall_mem_cons] at h
    rw [chainRun_cons_of_inactive h.1, ih h.2]

/-- With one stage active, a run that meets it once is its biquad step. -/
theorem chainRun_of_single_active (hact : ∀ i, active i = true ↔ i = j) (hj : j ∈ js) (hnd : js.Nodup) :
    chainRun active coef js st v =
      ((biquad (coef.get j) (st.get j) v).1, st.set j (biquad (coef.get j) (st.get j) v).2) := by
  induction js with
  | nil => simp at hj
  | cons i is ih =>
    obtain ⟨hi, hnd⟩ := List.nodup_cons.mp hnd
    by_cases hij : i = j
    · subst hij
      have hrest : ∀ k ∈ is, active k = false := fun k hk =>
        Bool.eq_false_iff.mpr (fun hactive => hi ((hact k).mp hactive ▸ hk))
      rw [chainRun_cons_of_active ((hact i).mpr rfl), chainRun_of_all_inactive hrest]
    · have hinactive : active i = false := Bool.eq_false_iff.mpr (fun hactive => hij ((hact i).mp hactive))
      rw [chainRun_cons_of_inactive hinactive, ih ((List.mem_cons.mp hj).resolve_left (Ne.symm hij)) hnd]

end

/-! ### The chain of a channel -/

theorem act_congr {a b : ADomain} (h : SameConfiguration a b) : act a = act b := by
  obtain ⟨-, -, -, hlc, hhc, hbypLc, hbypPk, hbypHc⟩ := h
  funext j
  cases j <;> simp [act, hlc, hhc, hbypLc, hbypPk, hbypHc]

/-- Two channels with the same configuration and the same stage states have the same chain (R204). -/
theorem chain_congr {a b : ADomain} {c d : Chan} (h : SameConfiguration a b)
    (hst : (a.lane.get c).st = (b.lane.get d).st) (x : F32) : chain a c x = chain b d x := by
  have hcoef : a.coef = b.coef := h.2.2.1
  rw [chain, chain, act_congr h, hcoef, hst]

theorem chain_get_of_inactive {a : ADomain} {j : Stage} (h : act a j = false) (ch : Chan) (x : F32) :
    (chain a ch x).2.get j = (a.lane.get ch).st.get j := chainRun_get_of_inactive h

theorem chain_of_all_inactive {a : ADomain} (h : ∀ j, act a j = false) (ch : Chan) (x : F32) :
    chain a ch x = (x, (a.lane.get ch).st) := chainRun_of_all_inactive (fun j _ => h j)

theorem chain_of_single_active {a : ADomain} {j : Stage} (h : ∀ i, act a i = true ↔ i = j) (ch : Chan) (x : F32) :
    chain a ch x = ((biquad (a.coef.get j) ((a.lane.get ch).st.get j) x).1,
      (a.lane.get ch).st.set j (biquad (a.coef.get j) ((a.lane.get ch).st.get j) x).2) :=
  chainRun_of_single_active h (mem_stageOrder j) nodup_stageOrder

end Sys2Proof.Machine

namespace Sys2Proof

open Machine Claims

/-- Settles O33: the run over `stageOrder` is a fold (`chainRun_eq_foldl`), and `stageAt` numbers that list. -/
theorem chainLoopsOverTheNineStages : Obligations.ChainLoopsOverTheNineStages := by
  intro a ch x
  calc chain a ch x
      = stageOrder.foldl (stageStep (act a) a.coef) (x, (a.lane.get ch).st) := chainRun_eq_foldl
    _ = ((List.finRange 9).map stageAt).foldl (stageStep (act a) a.coef) (x, (a.lane.get ch).st) := by
        rw [map_stageAt]
    _ = _ := List.foldl_map

/-- Settles O34: the inactive stages are skipped (`chain_of_single_active`). -/
theorem activeStageIsTransposedDirectFormTwo : Obligations.ActiveStageIsTransposedDirectFormTwo := by
  intro a ch x j hj
  rw [chain_of_single_active hj]
  refine ⟨rfl, ?_, fun i hi => ?_⟩
  · rw [Stages.get_set, if_pos rfl]
    rfl
  · rw [Stages.get_set, if_neg hi]

end Sys2Proof
end

section
/-! SUPPORT. FRAME (41_audio_engine R204, R209 to R211): when it completes, and what it leaves in a channel's registers,
channel by channel, in terms of the chain and the accumulator. -/

namespace Sys2Proof.Machine

open Sys2Proof Claims

/-! ### The accumulator -/

/-- A push writes the two copies of the write pointer and no other register of the channel (R263). -/
theorem push_lane {ch : Chan} {l l' : Lane} {m m' : Memory} {n : BitVec 13} {blk : List F32}
    (h : push ch l m n blk = .ok (l', m')) : ∃ wb wg, l' = { l with wbin := wb, wgray := wg } := by
  obtain ⟨r, -, ⟨-, rfl, -⟩ | ⟨-, rfl, -⟩⟩ := push_ok h
  · exact ⟨l'.wbin, l'.wgray, rfl⟩
  · exact ⟨_, _, rfl⟩

theorem push_completes {ch : Chan} {l : Lane} (h : (lastPointer l.rs).isSome = true) (m : Memory) (n : BitVec 13)
    (blk : List F32) : ∃ lm, push ch l m n blk = .ok lm := by
  obtain ⟨r, hr⟩ := Option.isSome_iff_exists.mp h
  simp only [push, hr]
  cases isFull l.wbin r <;> exact ⟨_, rfl⟩

/-- Only a channel that completes its block needs a readable read pointer (R210, U10). -/
theorem accumulate_completes {ch : Chan} {l : Lane}
    (h : l.prep = true → l.cur.toNat + 1 = l.bsz.toNat → (lastPointer l.rs).isSome = true) (m : Memory) (t : F32) :
    ∃ lm, accumulate ch l m t = .ok lm := by
  unfold accumulate
  simp only
  split
  · exact ⟨_, rfl⟩
  · rename_i hp
    split
    · rename_i hc
      refine push_completes ?_ ..
      exact h (by simpa using hp) hc
    · exact ⟨_, rfl⟩

section
variable {ch : Chan} {l l' : Lane} {m m' : Memory} {t : F32} (h : accumulate ch l m t = .ok (l', m'))
include h

theorem accumulate_unprepared (hp : l.prep = false) : l' = l := by
  obtain ⟨-, hl, -⟩ | ⟨hp', -⟩ | ⟨hp', -⟩ := accumulate_ok h
  · exact hl
  · simp [hp] at hp'
  · simp [hp] at hp'

theorem accumulate_notDue (hp : l.prep = true) (hc : l.cur.toNat + 1 ≠ l.bsz.toNat) :
    l' = { l with abuf := abufWrite ch l.abuf l.cur.toNat t, cur := l.cur + 1#13 } := by
  obtain ⟨hp', -⟩ | ⟨-, -, -, hl⟩ | ⟨-, hc', -⟩ := accumulate_ok h
  · simp [hp] at hp'
  · exact hl
  · exact absurd hc' hc

theorem accumulate_due (hp : l.prep = true) (hc : l.cur.toNat + 1 = l.bsz.toNat) :
    ∃ wb wg, l' = { l with abuf := abufWrite ch l.abuf l.cur.toNat t, cur := 0#13, wbin := wb, wgray := wg } := by
  obtain ⟨hp', -⟩ | ⟨-, hc', -⟩ | ⟨-, -, hpush⟩ := accumulate_ok h
  · simp [hp] at hp'
  · exact absurd hc hc'
  · exact push_lane hpush

theorem accumulate_abuf (hp : l.prep = true) : l'.abuf = abufWrite ch l.abuf l.cur.toNat t := by
  by_cases hc : l.cur.toNat + 1 = l.bsz.toNat
  · obtain ⟨wb, wg, rfl⟩ := accumulate_due h hp hc
    rfl
  · rw [accumulate_notDue h hp hc]

/-- The accumulator writes neither the stage states nor the block length (R210). -/
theorem accumulate_keeps : l'.st = l.st ∧ l'.prep = l.prep ∧ l'.bsz = l.bsz := by
  cases hp : l.prep with
  | false =>
    rw [accumulate_unprepared h hp]
    exact ⟨rfl, hp, rfl⟩
  | true =>
    by_cases hc : l.cur.toNat + 1 = l.bsz.toNat
    · obtain ⟨wb, wg, rfl⟩ := accumulate_due h hp hc
      exact ⟨rfl, hp, rfl⟩
    · rw [accumulate_notDue h hp hc]
      exact ⟨rfl, hp, rfl⟩

end

theorem tapOf_eq (t : Config.Tap) (x y : F32) : tapOf t x y = if t = .post then y else x := by cases t <;> rfl

/-! ### The two channels of a FRAME -/

theorem completes_iff {s : State} {ch : Chan} : completes s ch = true ↔
    (s.a.lane.get ch).prep = true ∧ (s.a.lane.get ch).cur.toNat + 1 = (s.a.lane.get ch).bsz.toNat := by
  simp [completes]

theorem laneFrame_completes {s : State} {ch : Chan} (h : completes s ch = true → (rsync s ch).isSome = true) (x : F32)
    (m : Memory) : ∃ y l m', laneFrame s ch x m = .ok (y, l, m') := by
  obtain ⟨lm, hlm⟩ := accumulate_completes (ch := ch) (l := { s.a.lane.get ch with st := (chain s.a ch x).2 })
    (fun hp hc => h (completes_iff.mpr ⟨hp, hc⟩)) m
    (tapOf s.cfg.accTap x (chain s.a ch x).1)
  exact ⟨(chain s.a ch x).1, lm.1, lm.2, by simp only [laneFrame, hlm]⟩

theorem execFrame_completes (x0 x1 : F32) {s : State} (h : PushReadable s) : ∃ t, exec (.frame x0 x1) s = .next t := by
  obtain ⟨y0, l0, m0, h0⟩ := laneFrame_completes (h .left) x0 s.mem
  obtain ⟨y1, l1, m1, h1⟩ := laneFrame_completes (h .right) x1 m0
  simp only [exec, execFrame, h0, h1]
  exact ⟨_, rfl⟩

section
variable {x0 x1 : F32} {s t : State} (h : exec (.frame x0 x1) s = .next t)
include h

theorem execFrame_onlyAChanges : OnlyAChanges s t := by
  obtain ⟨y0, l0, m0, y1, l1, m1, -, -, rfl⟩ := execFrame_next h
  exact onlyAChanges_aCommit ..

theorem execFrame_audioOut : t.audioOut = some ((chain s.a .left x0).1, (chain s.a .right x1).1) := by
  obtain ⟨y0, l0, m0, y1, l1, m1, h0, h1, rfl⟩ := execFrame_next h
  rw [aCommit_audioOut, (laneFrame_ok h0).1, (laneFrame_ok h1).1]

/-- A channel's registers after a FRAME: the chain's stage states, then the accumulator, then the background's
synchroniser. -/
theorem execFrame_lane (ch : Chan) :
    ∃ l m m', accumulate ch { s.a.lane.get ch with st := (chain s.a ch (inputOf x0 x1 ch)).2 } m
        (tappedSample s ch x0 x1) = .ok (l, m') ∧ t.a.lane.get ch = { l with rs := rsNext s ch } := by
  obtain ⟨y0, l0, m0, y1, l1, m1, h0, h1, rfl⟩ := execFrame_next h
  obtain ⟨rfl, hleft⟩ := laneFrame_ok h0
  obtain ⟨rfl, hright⟩ := laneFrame_ok h1
  cases ch with
  | left => exact ⟨l0, s.mem, m0, hleft, rfl⟩
  | right => exact ⟨l1, m0, m1, hright, rfl⟩

theorem execFrame_lane_keeps (ch : Chan) : (t.a.lane.get ch).st = (chain s.a ch (inputOf x0 x1 ch)).2 ∧
    (t.a.lane.get ch).prep = (s.a.lane.get ch).prep ∧ (t.a.lane.get ch).bsz = (s.a.lane.get ch).bsz := by
  obtain ⟨l, m, m', hacc, hlane⟩ := execFrame_lane h ch
  rw [hlane]
  exact accumulate_keeps hacc

theorem execFrame_st (ch : Chan) : (t.a.lane.get ch).st = (chain s.a ch (inputOf x0 x1 ch)).2 :=
  (execFrame_lane_keeps h ch).1

/-- The word returned for one channel is that channel's chain output. -/
theorem execFrame_audioOut_channel (ch : Chan) :
    t.audioOut.map (fun y => inputOf y.1 y.2 ch) = some (chain s.a ch (inputOf x0 x1 ch)).1 := by
  rw [execFrame_audioOut h]
  cases ch <;> rfl

end

end Sys2Proof.Machine

namespace Sys2Proof

open Machine Claims

/-- Settles O35: the lemmas on a completed FRAME, one per register group. -/
theorem frameReturnsTheChainOutputs : Obligations.FrameReturnsTheChainOutputs := by
  intro x0 x1 s hs
  obtain ⟨t, ht⟩ := execFrame_completes x0 x1 hs
  exact ⟨t, ht, execFrame_onlyAChanges ht, execFrame_audioOut ht, execFrame_sameConfiguration ht, execFrame_cfgErr ht,
    execFrame_accErr ht, execFrame_lane_keeps ht⟩

/-- Settles O36: a channel's registers come from `accumulate`, whose three ways are unprepared, block due and block not
due. -/
theorem frameCollectsOneSamplePerChannel : Obligations.FrameCollectsOneSamplePerChannel := by
  intro x0 x1 s hs
  obtain ⟨t, ht⟩ := execFrame_completes x0 x1 hs
  refine ⟨t, ht, fun ch => ?_⟩
  obtain ⟨l', m, m', hacc, hlane⟩ := execFrame_lane ht ch
  rw [hlane]
  refine ⟨fun hp => ?_, fun hp => ⟨?_, fun i hi => ?_, fun hc => ?_, fun hc => ?_⟩⟩
  · rw [accumulate_unprepared hacc hp]
    exact ⟨rfl, rfl, rfl, rfl⟩
  · rw [← tapOf_eq, accumulate_abuf hacc hp, abufRead_abufWrite_same, tappedSample]
  · rw [accumulate_abuf hacc hp, abufRead_abufWrite_other _ _ _ hi]
  · obtain ⟨wb, wg, rfl⟩ := accumulate_due hacc hp hc
    rfl
  · rw [accumulate_notDue hacc hp hc]
    exact ⟨rfl, rfl, rfl⟩

/-- Settles O38: only FRAME writes stage states (`onlyFrameWritesDelayLinesAndSlots`), and its chain skips an inactive
stage. -/
theorem bypassedStageStateIsFrozen : Obligations.BypassedStageStateIsFrozen := by
  intro i s t j ch _ hj h
  by_cases hframe : ∃ x0 x1, i = .frame x0 x1
  · obtain ⟨x0, x1, rfl⟩ := hframe
    rw [execFrame_st h, chain_get_of_inactive hj]
  · have hother : ∀ x0 x1, i ≠ .frame x0 x1 := fun x0 x1 hi => hframe ⟨x0, x1, hi⟩
    rw [(onlyFrameWritesDelayLinesAndSlots i s t hother h).2 ch]

/-- Settles O39: a chain of inactive stages is the identity (`chain_of_all_inactive`); the exception is one evaluation of
the biquad step. -/
theorem allBypassedIsTheExactIdentity : Obligations.AllBypassedIsTheExactIdentity := by
  refine ⟨fun x0 x1 s hs hact => ?_, by decide⟩
  obtain ⟨t, ht⟩ := execFrame_completes x0 x1 hs
  refine ⟨t, ht, ?_, fun ch => ?_⟩
  · rw [execFrame_audioOut ht, chain_of_all_inactive hact, chain_of_all_inactive hact]
  · rw [execFrame_st ht, chain_of_all_inactive hact]

/-- Settles O40: output and stage states are the chain's, and equal configurations, stage states and inputs have equal
chains (`chain_congr`), whichever the channels. -/
theorem channelsDoNotInterfere : Obligations.ChannelsDoNotInterfere := by
  refine ⟨fun ch x0 x1 z0 z1 s s' t t' hcfg hst hin h h' => ?_, fun x s t hst h => ?_⟩
  · have hchain : chain s.a ch (inputOf x0 x1 ch) = chain s'.a ch (inputOf z0 z1 ch) :=
      hin ▸ chain_congr hcfg hst (inputOf x0 x1 ch)
    rw [execFrame_audioOut_channel h, execFrame_audioOut_channel h', execFrame_st h, execFrame_st h', hchain]
    exact ⟨rfl, rfl⟩
  · have hchain : chain s.a .left x = chain s.a .right x := chain_congr (sameConfiguration_refl s.a) hst x
    refine ⟨⟨(chain s.a .right x).1, by rw [execFrame_audioOut h, hchain]⟩, ?_⟩
    rw [execFrame_st h, execFrame_st h]
    exact congrArg Prod.snd hchain

end Sys2Proof
end

section
/-! SUPPORT. The fields of a binary32 pattern and its value (20_memory R84): the magnitude as a strictly rising function
of bits 30:0, what a negation changes, and the value as a whole multiple of 2^-149. -/

namespace Sys2Proof.Machine

open Sys2Proof

/-! ### Sign and magnitude bits -/

/-- Bits 30:0, the pattern without its sign. -/
def fBits (x : F32) : Nat := (x.extractLsb' 0 31).toNat

theorem fBits_eq_mod (x : F32) : fBits x = x.toNat % 2 ^ 31 := by simp [fBits]

theorem fNeg_eq_decide (x : F32) : fNeg x = decide (2 ^ 31 ≤ x.toNat) := by
  have hx : x.toNat < 2 ^ 32 := x.isLt
  rw [fNeg, BitVec.getLsbD, Nat.testBit_eq_decide_div_mod_eq, decide_eq_decide]
  omega

theorem fExp_eq_div (x : F32) : fExp x = fBits x / 2 ^ 23 := by
  simp only [fExp, fBits_eq_mod, BitVec.extractLsb'_toNat, Nat.shiftRight_eq_div_pow]
  omega

theorem fFrac_eq_mod (x : F32) : fFrac x = fBits x % 2 ^ 23 := by
  simp only [fFrac, fBits_eq_mod, BitVec.extractLsb'_toNat, Nat.shiftRight_zero]
  omega

theorem fBits_lt (x : F32) : fBits x < 2 ^ 31 := (x.extractLsb' 0 31).isLt

/-- Sign and magnitude bits are the whole pattern. -/
theorem eq_of_fNeg_of_fBits {x y : F32} (hs : fNeg x = fNeg y) (hb : fBits x = fBits y) : x = y := by
  have hx : x.toNat < 2 ^ 32 := x.isLt
  have hy : y.toNat < 2 ^ 32 := y.isLt
  rw [fNeg_eq_decide, fNeg_eq_decide, decide_eq_decide] at hs
  rw [fBits_eq_mod, fBits_eq_mod] at hb
  apply BitVec.eq_of_toNat_eq
  omega

theorem fFinite_iff {x : F32} : fFinite x = true ↔ fBits x < 0x7F800000 := by
  have hx := fBits_lt x
  simp only [fFinite, fExp_eq_div, decide_eq_true_eq]
  omega

theorem getLsbD_zero_eq_false_iff {x : F32} : x.getLsbD 0 = false ↔ fBits x % 2 = 0 := by
  rw [fBits_eq_mod, BitVec.getLsbD, Nat.testBit_zero, decide_eq_false_iff_not]
  omega

section
variable (neg : Bool) {m : Nat} (hm : m < 2 ^ 31)
include hm

theorem toNat_fWithSign : (fWithSign neg m).toNat = (if neg then 0x80000000 else 0) + m := by
  rw [fWithSign, BitVec.toNat_ofNat]
  split <;> omega

theorem fNeg_fWithSign : fNeg (fWithSign neg m) = neg := by
  rw [fNeg_eq_decide, toNat_fWithSign neg hm]
  cases neg with
  | false => simpa using hm
  | true => simp

theorem fBits_fWithSign : fBits (fWithSign neg m) = m := by
  rw [fBits_eq_mod, toNat_fWithSign neg hm]
  split <;> omega

end

/-! ### Negation -/

@[simp] theorem fNeg_fNegate (x : F32) : fNeg (fNegate x) = !fNeg x := by
  simp [fNeg, fNegate]

@[simp] theorem fBits_fNegate (x : F32) : fBits (fNegate x) = fBits x := by
  have hmask : (0x80000000#32).extractLsb' 0 31 = 0#31 := by decide
  rw [fBits, fNegate, BitVec.extractLsb'_xor, hmask, BitVec.xor_zero, fBits]

@[simp] theorem fExp_fNegate (x : F32) : fExp (fNegate x) = fExp x := by simp only [fExp_eq_div, fBits_fNegate]
@[simp] theorem fFrac_fNegate (x : F32) : fFrac (fNegate x) = fFrac x := by simp only [fFrac_eq_mod, fBits_fNegate]
@[simp] theorem fIsNaN_fNegate (x : F32) : fIsNaN (fNegate x) = fIsNaN x := by simp [fIsNaN]
@[simp] theorem fIsInf_fNegate (x : F32) : fIsInf (fNegate x) = fIsInf x := by simp [fIsInf]
@[simp] theorem fFinite_fNegate (x : F32) : fFinite (fNegate x) = fFinite x := by simp [fFinite]
@[simp] theorem fMag_fNegate (x : F32) : fMag (fNegate x) = fMag x := by simp [fMag]

@[simp] theorem fNegate_fNegate (x : F32) : fNegate (fNegate x) = x := by
  simp [fNegate]

@[simp] theorem fUnits_fNegate (x : F32) : fUnits (fNegate x) = -fUnits x := by
  cases h : fNeg x <;> simp [fUnits, h]

theorem fNegate_fWithSign (neg : Bool) {m : Nat} (hm : m < 2 ^ 31) :
    fNegate (fWithSign neg m) = fWithSign (!neg) m :=
  eq_of_fNeg_of_fBits (by simp [fNeg_fWithSign _ hm]) (by simp [fBits_fWithSign _ hm])

/-! ### The magnitudes in order -/

/-- The magnitude, in units of 2^-149, of the pattern with bits 30:0 equal to `m`, with no bound on the exponent. -/
def gridMag (m : Nat) : Nat := if m < 2 ^ 23 then m else (2 ^ 23 + m % 2 ^ 23) * 2 ^ (m / 2 ^ 23 - 1)

theorem fMag_eq_gridMag (x : F32) : fMag x = gridMag (fBits x) := by
  rw [fMag, gridMag, fExp_eq_div, fFrac_eq_mod]
  by_cases h : fBits x < 2 ^ 23
  · rw [if_pos (by omega), if_pos h, Nat.mod_eq_of_lt h]
  · rw [if_neg (by omega), if_neg h]

/-- A subnormal, or the first normal binade with its end: a magnitude of one unit a step. -/
theorem gridMag_of_le {t : Nat} (h : t ≤ 2 ^ 24) : gridMag t = t := by
  unfold gridMag
  split
  · rfl
  · obtain hlt | rfl : t < 2 ^ 24 ∨ t = 2 ^ 24 := by omega
    · have hexp : t / 2 ^ 23 - 1 = 0 := by omega
      rw [hexp, pow_zero]
      omega
    · norm_num

/-- A significand `t` and an exponent; the carry `t = 2^24` goes into the exponent field by itself. -/
theorem gridMag_normal (k : Nat) {t : Nat} (hlo : 2 ^ 23 ≤ t) (hhi : t ≤ 2 ^ 24) :
    gridMag (k * 2 ^ 23 + t) = t * 2 ^ k := by
  rw [gridMag, if_neg (by omega)]
  obtain hlt | rfl : t < 2 ^ 24 ∨ t = 2 ^ 24 := by omega
  · have hexp : (k * 2 ^ 23 + t) / 2 ^ 23 - 1 = k := by omega
    have hfrac : 2 ^ 23 + (k * 2 ^ 23 + t) % 2 ^ 23 = t := by omega
    rw [hexp, hfrac]
  · have hexp : (k * 2 ^ 23 + 2 ^ 24) / 2 ^ 23 - 1 = k + 1 := by omega
    have hfrac : 2 ^ 23 + (k * 2 ^ 23 + 2 ^ 24) % 2 ^ 23 = 2 ^ 23 := by omega
    rw [hexp, hfrac]
    ring

/-- Every pattern from 2^23 on is such a significand and exponent. -/
theorem exists_significand {m : Nat} (h : 2 ^ 23 ≤ m) : ∃ k t, 2 ^ 23 ≤ t ∧ t < 2 ^ 24 ∧ m = k * 2 ^ 23 + t :=
  ⟨m / 2 ^ 23 - 1, 2 ^ 23 + m % 2 ^ 23, by omega, by omega, by omega⟩

theorem gridMag_strictMono : StrictMono gridMag := by
  refine strictMono_nat_of_lt_succ (fun m => ?_)
  by_cases h : m < 2 ^ 23
  · rw [gridMag_of_le (by omega), gridMag_of_le (by omega)]
    omega
  · obtain ⟨k, t, hlo, hhi, rfl⟩ := exists_significand (not_lt.mp h)
    rw [add_assoc, gridMag_normal k hlo hhi.le, gridMag_normal k (by omega) hhi]
    exact Nat.mul_lt_mul_of_pos_right (Nat.lt_succ_self t) (by positivity)

/-! ### The value -/

theorem f32Value_eq (x : F32) : f32Value x = fUnits x / 2 ^ 149 := by
  have hmag : (if fExp x = 0 then (fFrac x : ℚ) / 2 ^ 149 else (1 + (fFrac x : ℚ) / 2 ^ 23) * 2 ^ fExp x / 2 ^ 127) =
      (fMag x : ℚ) / 2 ^ 149 := by
    unfold fMag
    split
    · rfl
    · rename_i h
      obtain ⟨e, he⟩ := Nat.exists_eq_add_one_of_ne_zero h
      rw [he, Nat.add_sub_cancel]
      push_cast
      ring
  calc f32Value x
      = if fNeg x then -((fMag x : ℚ) / 2 ^ 149) else (fMag x : ℚ) / 2 ^ 149 := by rw [← hmag]; rfl
    _ = fUnits x / 2 ^ 149 := by
        unfold fUnits
        split <;> push_cast <;> ring

theorem f32Value_fNegate (x : F32) : f32Value (fNegate x) = -f32Value x := by
  rw [f32Value_eq, f32Value_eq, fUnits_fNegate, Int.cast_neg, neg_div]

theorem two_pow_149_pos : (0 : ℚ) < 2 ^ 149 := by positivity

theorem f32Value_le_iff {a b : F32} : f32Value a ≤ f32Value b ↔ fUnits a ≤ fUnits b := by
  rw [f32Value_eq, f32Value_eq, div_le_div_iff_of_pos_right two_pow_149_pos, Int.cast_le]

theorem f32Value_pos_iff {a : F32} : 0 < f32Value a ↔ 0 < fUnits a := by
  rw [f32Value_eq, div_pos_iff_of_pos_right two_pow_149_pos, Int.cast_pos]

theorem two_mul_f32Value_lt_iff {a b : F32} : 2 * f32Value a < f32Value b ↔ 2 * fUnits a < fUnits b := by
  rw [f32Value_eq, f32Value_eq, ← mul_div_assoc, div_lt_div_iff_of_pos_right two_pow_149_pos]
  norm_cast

theorem f32Value_eq_zero_iff {x : F32} : f32Value x = 0 ↔ fMag x = 0 := by
  rw [f32Value_eq, div_eq_zero_iff, or_iff_left two_pow_149_pos.ne', Int.cast_eq_zero]
  unfold fUnits
  split <;> simp

/-! ### The input contract -/

theorem f32Value_twenty : f32Value 0x41A00000#32 = 20 := by
  have hs : (0x41A00000#32).getLsbD 31 = false := by decide
  have he : ((0x41A00000#32).extractLsb' 23 8).toNat = 131 := by decide
  have hf : ((0x41A00000#32).extractLsb' 0 23).toNat = 0x200000 := by decide
  simp only [f32Value, hs, he, hf]
  norm_num

theorem f32Value_twentyThousand : f32Value 0x469C4000#32 = 20000 := by
  have hs : (0x469C4000#32).getLsbD 31 = false := by decide
  have he : ((0x469C4000#32).extractLsb' 23 8).toNat = 141 := by decide
  have hf : ((0x469C4000#32).extractLsb' 0 23).toNat = 0x1C4000 := by decide
  simp only [f32Value, hs, he, hf]
  norm_num

theorem inband_iff {f fs : F32} : inband f fs = true ↔
    fFinite f = true ∧ 20 ≤ f32Value f ∧ f32Value f ≤ 20000 ∧ 2 * f32Value f < f32Value fs := by
  rw [← f32Value_twenty, ← f32Value_twentyThousand, f32Value_le_iff, f32Value_le_iff, two_mul_f32Value_lt_iff]
  simp only [inband, fLe, Bool.and_eq_true, decide_eq_true_eq, and_assoc]

end Sys2Proof.Machine

namespace Sys2Proof

open Machine

/-- Settles O32: a comparison of units of 2^-149 is one of values (`inband_iff`, `f32Value_pos_iff`). -/
theorem inputContractComparesRealValues : Obligations.InputContractComparesRealValues := by
  intro p fs
  simp only [validConfig, Bool.and_eq_true, decide_eq_true_eq, List.forall_mem_cons, List.not_mem_nil, inband_iff,
    f32Value_pos_iff]
  tauto

end Sys2Proof
end

section
/-! SUPPORT. Rounding (41_audio_engine R200): `roundShift` gives the nearest multiple of a power of two, `roundMag` the
nearest magnitude of the format, and so `fRound` the nearest binary32, ties to even. -/

namespace Sys2Proof.Machine

open Sys2Proof

/-! ### Rounding to a multiple of a power of two -/

/-- The error is at most half a step, and half a step only at an even multiple. -/
theorem roundShift_error (n d : Nat) :
    2 * |(roundShift n d : ℤ) * 2 ^ d - n| ≤ 2 ^ d ∧
      (2 * |(roundShift n d : ℤ) * 2 ^ d - n| = 2 ^ d → roundShift n d % 2 = 0) := by
  have hn : (n : ℤ) = (n / 2 ^ d : Nat) * 2 ^ d + (n % 2 ^ d : Nat) := by
    exact_mod_cast (Nat.div_add_mod' n (2 ^ d)).symm
  have hr : n % 2 ^ d < 2 ^ d := Nat.mod_lt _ (by positivity)
  unfold roundShift
  simp only
  split
  · rename_i hup
    have herr : ((n / 2 ^ d + 1 : Nat) : ℤ) * 2 ^ d - n = 2 ^ d - (n % 2 ^ d : Nat) := by
      rw [hn]
      push_cast
      ring
    rw [herr]
    zify at hr hup ⊢
    rw [abs_of_nonneg (by omega)]
    omega
  · rename_i hdown
    have herr : ((n / 2 ^ d : Nat) : ℤ) * 2 ^ d - n = -(n % 2 ^ d : Nat) := by
      rw [hn]
      ring
    rw [herr, abs_neg, Nat.abs_cast]
    zify at hr hdown ⊢
    omega

/-- No multiple is nearer, and one that is as near finds the chosen one even. -/
theorem roundShift_nearest (n d : Nat) (k : ℤ) :
    |(roundShift n d : ℤ) * 2 ^ d - n| < |k * 2 ^ d - n| ∨ k = roundShift n d ∨
      (|(roundShift n d : ℤ) * 2 ^ d - n| = |k * 2 ^ d - n| ∧ roundShift n d % 2 = 0) := by
  obtain ⟨herr, htie⟩ := roundShift_error n d
  by_cases hk : k = roundShift n d
  · exact .inr (.inl hk)
  · have hstep : (2 : ℤ) ^ d ≤ |k * 2 ^ d - roundShift n d * 2 ^ d| := by
      rw [← sub_mul, abs_mul, abs_of_pos (by positivity : (0 : ℤ) < 2 ^ d)]
      exact le_mul_of_one_le_left (by positivity) (Int.one_le_abs (sub_ne_zero.mpr hk))
    have htri : |k * 2 ^ d - roundShift n d * 2 ^ d| ≤ |k * 2 ^ d - n| + |(roundShift n d : ℤ) * 2 ^ d - n| := by
      rw [abs_sub_comm ((roundShift n d : ℤ) * 2 ^ d)]
      exact abs_sub_le _ _ _
    rcases lt_or_eq_of_le (by omega : |(roundShift n d : ℤ) * 2 ^ d - n| ≤ |k * 2 ^ d - n|) with hlt | heq
    · exact .inl hlt
    · exact .inr (.inr ⟨heq, htie (by omega)⟩)

/-! ### Rounding to a magnitude of the format -/

/-- How many low bits `roundMag` rounds away. -/
def roundDrop (q n : Nat) : Nat := max q (Nat.log2 n - 23)

theorem roundMag_eq (q n : Nat) :
    roundMag q n = (roundDrop q n - q) * 2 ^ 23 + roundShift n (roundDrop q n) := rfl

/-- Enough bits go for the quotient to fit the significand. -/
theorem div_roundDrop_lt (q n : Nat) : n / 2 ^ roundDrop q n < 2 ^ 24 := by
  apply Nat.div_lt_of_lt_mul
  calc n < 2 ^ (Nat.log2 n + 1) := Nat.lt_log2_self
    _ ≤ 2 ^ (roundDrop q n + 24) := Nat.pow_le_pow_right (by decide) (by unfold roundDrop; omega)
    _ = 2 ^ roundDrop q n * 2 ^ 24 := pow_add ..

/-- More than `q` bits go only from a number that fills the significand. -/
theorem le_of_lt_roundDrop {q n : Nat} (h : q < roundDrop q n) : 2 ^ 23 * 2 ^ roundDrop q n ≤ n := by
  have hlog : Nat.log2 n = 23 + roundDrop q n := by
    unfold roundDrop at h ⊢
    omega
  have hn : n ≠ 0 := by
    rintro rfl
    have hzero := Nat.log2_zero
    omega
  rw [← pow_add, ← hlog]
  exact Nat.log2_self_le hn

theorem roundShift_bounds (n d : Nat) : n / 2 ^ d ≤ roundShift n d ∧ roundShift n d ≤ n / 2 ^ d + 1 := by
  unfold roundShift
  simp only
  split <;> omega

/-- The pattern `roundMag` gives has the rounded number as its magnitude. -/
theorem gridMag_roundMag (q n : Nat) :
    gridMag (roundMag q n) * 2 ^ q = roundShift n (roundDrop q n) * 2 ^ roundDrop q n := by
  have hlt := div_roundDrop_lt q n
  obtain ⟨hlo, hhi⟩ := roundShift_bounds n (roundDrop q n)
  have hq : q ≤ roundDrop q n := le_max_left ..
  rw [roundMag_eq]
  rcases hq.eq_or_lt with heq | hlt'
  · rw [← heq] at hlt hhi ⊢
    rw [Nat.sub_self, Nat.zero_mul, Nat.zero_add, gridMag_of_le (by omega)]
  · have hfull : 2 ^ 23 ≤ n / 2 ^ roundDrop q n :=
      (Nat.le_div_iff_mul_le (by positivity)).mpr (le_of_lt_roundDrop hlt')
    rw [gridMag_normal _ (by omega) (by omega), mul_assoc, ← pow_add, Nat.sub_add_cancel hq]

theorem roundMag_mod_two (q n : Nat) : roundMag q n % 2 = roundShift n (roundDrop q n) % 2 := by
  rw [roundMag_eq]
  omega

/-- A magnitude is a multiple of a power of two or smaller than any significand with that exponent. -/
theorem gridMag_multiple_or_lt (c m : Nat) : (∃ k : Nat, gridMag m = k * 2 ^ c) ∨ gridMag m < 2 ^ 23 * 2 ^ c := by
  by_cases hm : m < 2 ^ 23
  · rw [gridMag_of_le (by omega)]
    exact .inr (lt_of_lt_of_le hm (Nat.le_mul_of_pos_right _ (by positivity)))
  · obtain ⟨e, t, hlo, hhi, rfl⟩ := exists_significand (not_lt.mp hm)
    rw [gridMag_normal e hlo hhi.le]
    rcases le_or_gt c e with hce | hec
    · exact .inl ⟨t * 2 ^ (e - c), by rw [mul_assoc, ← pow_add, Nat.sub_add_cancel hce]⟩
    · right
      calc t * 2 ^ e < 2 ^ 24 * 2 ^ e := Nat.mul_lt_mul_of_pos_right hhi (by positivity)
        _ = 2 ^ 23 * 2 ^ (e + 1) := by ring
        _ ≤ 2 ^ 23 * 2 ^ c := Nat.mul_le_mul_left _ (Nat.pow_le_pow_right (by decide) hec)

/-- How far the value of `z` units of 2^-149 is from `n`, in units of 2^-(149 + q). -/
def gridDist (q n : Nat) (z : ℤ) : ℤ := |z * 2 ^ q - n|

theorem gridDist_roundMag (q n : Nat) :
    gridDist q n (gridMag (roundMag q n)) = |(roundShift n (roundDrop q n) : ℤ) * 2 ^ roundDrop q n - n| := by
  have h := gridMag_roundMag q n
  rw [gridDist]
  zify at h
  rw [h]

/-- A value that the rounding step does not divide lies below the binade of `n`. -/
theorem multiple_or_below (q n m : Nat) {z : ℤ} (hz : z = gridMag m ∨ z = -gridMag m) :
    (∃ k : ℤ, z * 2 ^ q = k * 2 ^ roundDrop q n) ∨
      (z * 2 ^ q < 2 ^ 23 * 2 ^ roundDrop q n ∧ (2 : ℤ) ^ 23 * 2 ^ roundDrop q n ≤ n) := by
  have hq : q ≤ roundDrop q n := le_max_left ..
  have hpow : (2 : ℤ) ^ roundDrop q n = 2 ^ (roundDrop q n - q) * 2 ^ q := by
    rw [← pow_add, Nat.sub_add_cancel hq]
  rcases hq.eq_or_lt with heq | hlt
  · exact .inl ⟨z, by rw [← heq]⟩
  · rcases gridMag_multiple_or_lt (roundDrop q n - q) m with ⟨k, hk⟩ | hsmall
    · left
      rw [hpow]
      zify at hk
      rcases hz with rfl | rfl
      · exact ⟨k, by rw [hk]; ring⟩
      · exact ⟨-k, by rw [hk]; ring⟩
    · refine .inr ⟨?_, by exact_mod_cast le_of_lt_roundDrop hlt⟩
      have hzlt : z < 2 ^ 23 * 2 ^ (roundDrop q n - q) := by
        zify at hsmall
        omega
      rw [hpow, ← mul_assoc]
      exact mul_lt_mul_of_pos_right hzlt (by positivity)

/-- No value of the format, its exponent unbounded, is nearer to `n` than the one `roundMag` gives, and one that is as
near finds it even. -/
theorem roundMag_nearest (q n m : Nat) {z : ℤ} (hz : z = gridMag m ∨ z = -gridMag m) :
    gridDist q n (gridMag (roundMag q n)) < gridDist q n z ∨ z = gridMag (roundMag q n) ∨
      (gridDist q n (gridMag (roundMag q n)) = gridDist q n z ∧ roundMag q n % 2 = 0) := by
  rw [gridDist_roundMag, roundMag_mod_two]
  rcases multiple_or_below q n m hz with ⟨k, hk⟩ | ⟨hbelow, hn⟩
  · rw [gridDist, hk]
    refine (roundShift_nearest n (roundDrop q n) k).imp_right (Or.imp_left fun heq => ?_)
    have hval : z * 2 ^ q = gridMag (roundMag q n) * 2 ^ q := by
      rw [hk, heq]
      exact_mod_cast (gridMag_roundMag q n).symm
    exact mul_right_cancel₀ (by positivity) hval
  · left
    have hend : |(roundShift n (roundDrop q n) : ℤ) * 2 ^ roundDrop q n - n| ≤
        |2 ^ 23 * 2 ^ roundDrop q n - (n : ℤ)| := by
      rcases roundShift_nearest n (roundDrop q n) (2 ^ 23) with hlt | heq | ⟨heq, -⟩
      · exact hlt.le
      · rw [heq]
      · exact heq.le
    rw [abs_of_nonpos (by omega : 2 ^ 23 * 2 ^ roundDrop q n - (n : ℤ) ≤ 0)] at hend
    rw [gridDist, abs_of_neg (by omega : z * 2 ^ q - (n : ℤ) < 0)]
    omega

/-! ### Overflow -/

/-- The largest finite magnitude, in units of 2^-(149 + q). -/
theorem gridMag_largest (q : Nat) : (gridMag 0x7F7FFFFF : ℤ) * 2 ^ q = (2 ^ 25 - 2) * 2 ^ (252 + q) := by
  have h : gridMag 0x7F7FFFFF = (2 ^ 24 - 1) * 2 ^ 253 := gridMag_normal 253 (t := 2 ^ 24 - 1) (by decide) (by decide)
  rw [h, pow_add]
  push_cast
  ring

/-- The magnitude an unbounded exponent would put next, in the same units. -/
theorem gridMag_overflow (q : Nat) : (gridMag 0x7F800000 : ℤ) * 2 ^ q = 2 ^ 25 * 2 ^ (252 + q) := by
  have h : gridMag 0x7F800000 = 2 ^ 24 * 2 ^ 253 := gridMag_normal 253 (t := 2 ^ 24) (by decide) (by decide)
  rw [h, pow_add]
  push_cast
  ring

theorem gridMag_mul_le (q : Nat) {a b : Nat} (h : a ≤ b) : (gridMag a : ℤ) * 2 ^ q ≤ gridMag b * 2 ^ q :=
  mul_le_mul_of_nonneg_right (by exact_mod_cast gridMag_strictMono.monotone h) (by positivity)

theorem gridDist_roundMag_le (q n m : Nat) :
    gridDist q n (gridMag (roundMag q n)) ≤ gridDist q n (gridMag m) := by
  rcases roundMag_nearest q n m (.inl rfl) with hlt | heq | ⟨heq, -⟩
  · exact hlt.le
  · rw [heq]
  · exact heq.le

/-- Below the halfway point the largest finite magnitude is nearer than any beyond it. -/
theorem halfway_le_of_overflow {q n : Nat} (hM : 0x7F800000 ≤ roundMag q n) :
    (2 ^ 25 - 1) * (2 : ℤ) ^ (252 + q) ≤ n := by
  have hpos : (0 : ℤ) < 2 ^ (252 + q) := by positivity
  have hbig := gridMag_mul_le q hM
  have hnear := gridDist_roundMag_le q n 0x7F7FFFFF
  by_contra hn
  rw [gridMag_overflow] at hbig
  rw [gridDist, gridDist, gridMag_largest, abs_of_nonneg (by omega), le_abs] at hnear
  omega

/-- From the halfway point on the next magnitude is nearer than any finite one, or as near as the largest, which is
odd. -/
theorem overflow_of_halfway_le {q n : Nat} (hn : (2 ^ 25 - 1) * (2 : ℤ) ^ (252 + q) ≤ n) :
    0x7F800000 ≤ roundMag q n := by
  have hpos : (0 : ℤ) < 2 ^ (252 + q) := by positivity
  by_contra hM
  have hsmall := gridMag_mul_le q (Nat.le_of_lt_succ (not_le.mp hM))
  rw [gridMag_largest] at hsmall
  have hnext : gridDist q n (gridMag 0x7F800000) ≤ n - (2 ^ 25 - 2) * 2 ^ (252 + q) := by
    rw [gridDist, gridMag_overflow, abs_le]
    omega
  have hself : gridDist q n (gridMag (roundMag q n)) = n - gridMag (roundMag q n) * 2 ^ q := by
    rw [gridDist, abs_of_nonpos (by omega)]
    ring
  rcases roundMag_nearest q n 0x7F800000 (.inl rfl) with hlt | heq | ⟨heq, heven⟩
  · omega
  · have hM' := gridMag_strictMono.injective (Int.ofNat_inj.mp heq)
    omega
  · have hle : gridMag 0x7F7FFFFF ≤ gridMag (roundMag q n) := by
      zify
      refine le_of_mul_le_mul_right (a := (2 : ℤ) ^ q) ?_ (by positivity)
      rw [gridMag_largest]
      omega
    have hM' := gridMag_strictMono.le_iff_le.mp hle
    omega

/-- The result overflows from halfway between the largest finite magnitude and the next one on. -/
theorem overflow_iff (q n : Nat) : 0x7F800000 ≤ roundMag q n ↔ (2 ^ 25 - 1) * (2 : ℤ) ^ (252 + q) ≤ n :=
  ⟨halfway_le_of_overflow, overflow_of_halfway_le⟩

/-! ### Rounding to a pattern -/

/-- `fRound` without its case for 0, which is the zero of the sign either way. -/
theorem fRound_eq (neg : Bool) (q n : Nat) :
    fRound neg q n = if 0x7F800000 ≤ roundMag q n then fInf neg else fWithSign neg (roundMag q n) := by
  unfold fRound
  split
  · rename_i hn
    have hzero : roundMag q 0 = 0 := by simp [roundMag, roundShift]
    rw [hn, hzero, if_neg (by decide), fZero]
  · rfl

theorem fNegate_fRound (neg : Bool) (q n : Nat) : fNegate (fRound neg q n) = fRound (!neg) q n := by
  rw [fRound_eq, fRound_eq]
  split
  · exact fNegate_fWithSign neg (by decide)
  · exact fNegate_fWithSign neg (by omega)

/-- A value's distance from the exact result, by the distance of its units. -/
theorem abs_f32Value_sub (q n : Nat) (y : F32) :
    |f32Value y - n / 2 ^ (149 + q)| = gridDist q n (fUnits y) / 2 ^ (149 + q) := by
  have hpow : (2 : ℚ) ^ (149 + q) = 2 ^ 149 * 2 ^ q := pow_add ..
  have hsub : f32Value y - n / 2 ^ (149 + q) = ((fUnits y * 2 ^ q - n : ℤ) : ℚ) / 2 ^ (149 + q) := by
    rw [f32Value_eq, hpow]
    push_cast
    field_simp
  rw [hsub, abs_div, abs_of_pos (by positivity : (0 : ℚ) < 2 ^ (149 + q)), gridDist, Int.cast_abs]

theorem overflowBound_le_iff (q n : Nat) :
    (n : ℚ) / 2 ^ (149 + q) ≥ 2 ^ 128 - 2 ^ 103 ↔ (2 ^ 25 - 1) * (2 : ℤ) ^ (252 + q) ≤ n := by
  have hpow : ((2 : ℚ) ^ 128 - 2 ^ 103) * 2 ^ (149 + q) = (2 ^ 25 - 1) * 2 ^ (252 + q) := by
    rw [pow_add, pow_add]
    ring
  rw [ge_iff_le, le_div_iff₀ (by positivity), hpow]
  exact_mod_cast Iff.rfl

theorem fUnits_eq_gridMag (y : F32) : fUnits y = gridMag (fBits y) ∨ fUnits y = -gridMag (fBits y) := by
  rw [← fMag_eq_gridMag, fUnits]
  split
  · exact .inr rfl
  · exact .inl rfl

/-- Rounding a number that is not negative. -/
theorem roundsTo_fRound_pos (q n : Nat) : RoundsTo (n / 2 ^ (149 + q)) (fRound false q n) := by
  have hnonneg : (0 : ℚ) ≤ n / 2 ^ (149 + q) := by positivity
  rw [RoundsTo, fRound_eq]
  by_cases hover : 0x7F800000 ≤ roundMag q n
  · rw [if_pos hover, if_pos ((overflowBound_le_iff q n).mpr ((overflow_iff q n).mp hover))]
    decide
  · have hm : roundMag q n < 2 ^ 31 := by omega
    have hunits : fUnits (fWithSign false (roundMag q n)) = gridMag (roundMag q n) := by
      rw [fUnits, fNeg_fWithSign _ hm, if_neg (by decide), fMag_eq_gridMag, fBits_fWithSign _ hm]
    rw [if_neg hover, if_neg (fun h => hover ((overflow_iff q n).mpr ((overflowBound_le_iff q n).mp h))),
      if_neg (by linarith)]
    refine ⟨fFinite_iff.mpr (by rw [fBits_fWithSign _ hm]; omega), fun y _ => ?_⟩
    rw [abs_f32Value_sub, abs_f32Value_sub, hunits, getLsbD_zero_eq_false_iff, fBits_fWithSign _ hm,
      div_lt_div_iff_of_pos_right (by positivity), Int.cast_lt, div_left_inj' (by positivity), Int.cast_inj,
      f32Value_eq, f32Value_eq, div_left_inj' (by positivity), Int.cast_inj, hunits]
    exact roundMag_nearest q n (fBits y) (fUnits_eq_gridMag y)

/-- Rounding is the same on both sides of 0. -/
theorem RoundsTo.neg {v : ℚ} {r : F32} (h : RoundsTo v r) : RoundsTo (-v) (fNegate r) := by
  have hbound : (0 : ℚ) < 2 ^ 128 - 2 ^ 103 := by norm_num
  unfold RoundsTo at h ⊢
  by_cases hpos : v ≥ 2 ^ 128 - 2 ^ 103
  · rw [if_pos hpos] at h
    rw [if_neg (by linarith), if_pos (by linarith), h]
    decide
  · by_cases hneg : v ≤ -(2 ^ 128 - 2 ^ 103)
    · rw [if_neg hpos, if_pos hneg] at h
      rw [if_pos (by linarith), h]
      decide
    · rw [if_neg hpos, if_neg hneg] at h
      rw [if_neg (by linarith), if_neg (by linarith)]
      refine ⟨(fFinite_fNegate r).trans h.1, fun y hy => ?_⟩
      have hlsb : (fNegate r).getLsbD 0 = r.getLsbD 0 := by simp [fNegate]
      have habs (z : F32) : |f32Value z - -v| = |f32Value (fNegate z) - v| := by
        rw [f32Value_fNegate, ← abs_neg]
        ring_nf
      have hval : f32Value y = f32Value (fNegate r) ↔ f32Value (fNegate y) = f32Value r := by
        rw [f32Value_fNegate, f32Value_fNegate, neg_eq_iff_eq_neg]
      rw [habs, habs, fNegate_fNegate, hlsb, hval]
      exact h.2 (fNegate y) ((fFinite_fNegate y).trans hy)

/-- The integer of a sign: -1 when it is negative. -/
def signInt (neg : Bool) : ℤ := if neg then -1 else 1

theorem fUnits_eq_signInt (x : F32) : fUnits x = signInt (fNeg x) * fMag x := by
  cases h : fNeg x <;> simp [fUnits, signInt, h]

theorem signInt_mul (a b : Bool) : signInt a * signInt b = signInt (a != b) := by
  cases a <;> cases b <;> rfl

theorem signInt_mul_natAbs (s : ℤ) : signInt (decide (s < 0)) * s.natAbs = s := by
  unfold signInt
  split
  · rename_i h
    rw [decide_eq_true_eq] at h
    omega
  · rename_i h
    rw [decide_eq_true_eq] at h
    omega

/-- `fRound` rounds to nearest even (R200). -/
theorem roundsTo_fRound (neg : Bool) (q n : Nat) :
    RoundsTo ((signInt neg * n : ℤ) / 2 ^ (149 + q)) (fRound neg q n) := by
  cases neg with
  | false => simpa [signInt] using roundsTo_fRound_pos q n
  | true =>
    have h := (roundsTo_fRound_pos q n).neg
    rw [fNegate_fRound] at h
    simpa [signInt, neg_div] using h

/-! ### The three operations on finite operands -/

theorem fAddFinite_eq_fRound (a b : F32) :
    ∃ neg, fAddFinite a b = fRound neg 0 (fUnits a + fUnits b).natAbs ∧
      signInt neg * (fUnits a + fUnits b).natAbs = fUnits a + fUnits b := by
  unfold fAddFinite
  simp only
  split
  · rename_i h
    exact ⟨fNeg a && fNeg b, by rw [h]; rfl, by rw [h]; simp⟩
  · exact ⟨_, rfl, signInt_mul_natAbs _⟩

section
variable {a b : F32} (ha : fFinite a = true) (hb : fFinite b = true)

theorem not_isNaN_of_finite {x : F32} (hx : fFinite x = true) : fIsNaN x = false := by
  simp only [fFinite, decide_eq_true_eq] at hx
  simp [fIsNaN, hx]

theorem not_isInf_of_finite {x : F32} (hx : fFinite x = true) : fIsInf x = false := by
  simp only [fFinite, decide_eq_true_eq] at hx
  simp [fIsInf, hx]

include ha hb

theorem fadd_of_finite : fadd a b = fAddFinite a b := by
  simp [fadd, not_isNaN_of_finite, not_isInf_of_finite, ha, hb]

theorem fmul_of_finite : fmul a b = fRound (fNeg a != fNeg b) 149 (fMag a * fMag b) := by
  simp [fmul, not_isNaN_of_finite, not_isInf_of_finite, ha, hb]

theorem roundsTo_fadd : RoundsTo (f32Value a + f32Value b) (fadd a b) := by
  obtain ⟨neg, hround, hsum⟩ := fAddFinite_eq_fRound a b
  have hval : f32Value a + f32Value b = (signInt neg * (fUnits a + fUnits b).natAbs : ℤ) / 2 ^ (149 + 0) := by
    rw [hsum, f32Value_eq, f32Value_eq, ← add_div, Int.cast_add]
  rw [fadd_of_finite ha hb, hround, hval]
  exact roundsTo_fRound ..

theorem roundsTo_fsub : RoundsTo (f32Value a - f32Value b) (fsub a b) := by
  rw [sub_eq_add_neg, ← f32Value_fNegate, fsub]
  exact roundsTo_fadd ha ((fFinite_fNegate b).trans hb)

theorem roundsTo_fmul : RoundsTo (f32Value a * f32Value b) (fmul a b) := by
  have hval : f32Value a * f32Value b =
      (signInt (fNeg a != fNeg b) * (fMag a * fMag b : Nat) : ℤ) / 2 ^ (149 + 149) := by
    rw [f32Value_eq, f32Value_eq, div_mul_div_comm, ← pow_add, ← Int.cast_mul, fUnits_eq_signInt, fUnits_eq_signInt,
      ← signInt_mul, Nat.cast_mul, mul_mul_mul_comm]
  rw [fmul_of_finite ha hb, hval]
  exact roundsTo_fRound ..

end

end Sys2Proof.Machine

namespace Sys2Proof

open Machine

/-- Settles O46: a sum is a whole number of units, which `fRound` rounds (`roundsTo_fadd`); a difference is the sum with
the negated operand. -/
theorem additionRoundsToNearestEven : Obligations.AdditionRoundsToNearestEven :=
  fun _ _ ha hb => ⟨roundsTo_fadd ha hb, roundsTo_fsub ha hb⟩

/-- Settles O47: a product is a whole number of squared units, which `fRound` rounds (`roundsTo_fmul`). -/
theorem multiplicationRoundsToNearestEven : Obligations.MultiplicationRoundsToNearestEven :=
  fun _ _ ha hb => roundsTo_fmul ha hb

end Sys2Proof
end

section
/-! SUPPORT. The special cases of binary32 arithmetic (41_audio_engine R200): NaNs, infinities and signed zeros. -/

namespace Sys2Proof.Machine

open Sys2Proof Claims

/-! ### The special patterns -/

theorem fZero_eq_signedZero (neg : Bool) : fZero neg = signedZero neg := by cases neg <;> decide

theorem fInf_eq_infinity (neg : Bool) : fInf neg = infinity neg := by cases neg <;> decide

@[simp] theorem fNeg_infinity (neg : Bool) : fNeg (infinity neg) = neg := by cases neg <;> decide
@[simp] theorem fIsNaN_infinity (neg : Bool) : fIsNaN (infinity neg) = false := by cases neg <;> decide
@[simp] theorem fIsInf_infinity (neg : Bool) : fIsInf (infinity neg) = true := by cases neg <;> decide
@[simp] theorem fFinite_infinity (neg : Bool) : fFinite (infinity neg) = false := by cases neg <;> decide
@[simp] theorem fNegate_infinity (neg : Bool) : fNegate (infinity neg) = infinity (!neg) := by cases neg <;> decide

theorem not_isNaN_of_isInf {x : F32} (hx : fIsInf x = true) : fIsNaN x = false := by
  simp only [fIsInf, Bool.and_eq_true, decide_eq_true_eq] at hx
  simp [fIsNaN, hx.2]

/-! ### The result of a rounding -/

theorem fNeg_fRound (neg : Bool) (q n : Nat) : fNeg (fRound neg q n) = neg := by
  rw [fRound_eq]
  split
  · exact fNeg_fWithSign neg (by decide)
  · exact fNeg_fWithSign neg (by omega)

theorem fIsNaN_fRound (neg : Bool) (q n : Nat) : fIsNaN (fRound neg q n) = false := by
  rw [fRound_eq]
  split
  · rw [fInf_eq_infinity, fIsNaN_infinity]
  · rename_i h
    exact not_isNaN_of_finite (fFinite_iff.mpr (by rw [fBits_fWithSign _ (by omega)]; omega))

theorem fRound_zero (neg : Bool) (q : Nat) : fRound neg q 0 = signedZero neg := by
  rw [← fZero_eq_signedZero, fRound, if_pos rfl]

/-! ### NaN operands and NaN results -/

theorem fadd_of_isNaN {a b : F32} (h : fIsNaN a = true ∨ fIsNaN b = true) : fadd a b = canonicalNaN :=
  if_pos (by simpa using h)

theorem fsub_of_isNaN {a b : F32} (h : fIsNaN a = true ∨ fIsNaN b = true) : fsub a b = canonicalNaN :=
  fadd_of_isNaN (by simpa using h)

theorem fmul_of_isNaN {a b : F32} (h : fIsNaN a = true ∨ fIsNaN b = true) : fmul a b = canonicalNaN :=
  if_pos (by simpa using h)

/-- Everything `fadd` can return. -/
theorem fadd_cases (a b : F32) : fadd a b = canonicalNaN ∨ (fIsInf a = true ∧ fadd a b = a) ∨
    (fIsInf b = true ∧ fadd a b = b) ∨ fadd a b = fAddFinite a b := by
  unfold fadd
  split
  · exact .inl rfl
  · split
    · rename_i ha
      split
      · exact .inl rfl
      · exact .inr (.inl ⟨ha, rfl⟩)
    · split
      · rename_i hb
        exact .inr (.inr (.inl ⟨hb, rfl⟩))
      · exact .inr (.inr (.inr rfl))

/-- Everything `fmul` can return. -/
theorem fmul_cases (a b : F32) : fmul a b = canonicalNaN ∨ fmul a b = fInf (fNeg a != fNeg b) ∨
    fmul a b = fRound (fNeg a != fNeg b) 149 (fMag a * fMag b) := by
  unfold fmul
  simp only
  split
  · exact .inl rfl
  · split
    · split
      · exact .inl rfl
      · exact .inr (.inl rfl)
    · exact .inr (.inr rfl)

theorem fadd_isNaN {a b : F32} (h : fIsNaN (fadd a b) = true) : fadd a b = canonicalNaN := by
  rcases fadd_cases a b with hnan | ⟨ha, heq⟩ | ⟨hb, heq⟩ | heq
  · exact hnan
  · rw [heq, not_isNaN_of_isInf ha] at h
    cases h
  · rw [heq, not_isNaN_of_isInf hb] at h
    cases h
  · obtain ⟨neg, hround, -⟩ := fAddFinite_eq_fRound a b
    rw [heq, hround, fIsNaN_fRound] at h
    cases h

theorem fmul_isNaN {a b : F32} (h : fIsNaN (fmul a b) = true) : fmul a b = canonicalNaN := by
  rcases fmul_cases a b with hnan | heq | heq
  · exact hnan
  · rw [heq, fInf_eq_infinity, fIsNaN_infinity] at h
    cases h
  · rw [heq, fIsNaN_fRound] at h
    cases h

/-! ### Infinite operands -/

theorem fmul_comm (a b : F32) : fmul a b = fmul b a := by
  simp only [fmul, Bool.or_comm (fIsNaN a), Bool.or_comm (fIsInf a), Bool.or_comm (fFinite a && _),
    Nat.mul_comm (fMag a), bne_comm (a := fNeg a)]

section
variable (n : Bool) {b : F32}

theorem fadd_infinity_opposite : fadd (infinity n) (infinity (!n)) = canonicalNaN := by
  cases n <;> decide

theorem fadd_infinity_same : fadd (infinity n) (infinity n) = infinity n := by
  simp [fadd]

theorem fadd_infinity_left (hb : fFinite b = true) : fadd (infinity n) b = infinity n := by
  simp [fadd, not_isNaN_of_finite hb, not_isInf_of_finite hb]

theorem fadd_infinity_right (hb : fFinite b = true) : fadd b (infinity n) = infinity n := by
  simp [fadd, not_isNaN_of_finite hb, not_isInf_of_finite hb]

theorem fmul_infinity_of_zero (hb : fFinite b = true) (hzero : f32Value b = 0) :
    fmul (infinity n) b = canonicalNaN := by
  rw [f32Value_eq_zero_iff] at hzero
  simp [fmul, not_isNaN_of_finite hb, hb, hzero]

theorem fmul_infinity_of_ne_zero (hnan : fIsNaN b = false) (hne : fFinite b = true → f32Value b ≠ 0) :
    fmul (infinity n) b = infinity (n != fNeg b) := by
  have hmag : (fFinite b && decide (fMag b = 0)) = false := by
    rw [Bool.and_eq_false_imp, decide_eq_false_iff_not]
    exact fun hb => mt f32Value_eq_zero_iff.mpr (hne hb)
  simp [fmul, hnan, hmag, fInf_eq_infinity]

end

/-! ### Zero results and signs -/

section
variable {a b : F32} (ha : fFinite a = true) (hb : fFinite b = true)
include ha hb

theorem fadd_of_zero_sum (h : f32Value a + f32Value b = 0) : fadd a b = signedZero (fNeg a && fNeg b) := by
  rw [f32Value_eq, f32Value_eq, ← add_div, div_eq_zero_iff, or_iff_left two_pow_149_pos.ne'] at h
  rw [fadd_of_finite ha hb, ← fZero_eq_signedZero]
  exact if_pos (by exact_mod_cast h)

theorem fsub_of_zero_difference (h : f32Value a - f32Value b = 0) :
    fsub a b = signedZero (fNeg a && !fNeg b) := by
  rw [sub_eq_add_neg, ← f32Value_fNegate] at h
  rw [fsub, fadd_of_zero_sum ha ((fFinite_fNegate b).trans hb) h, fNeg_fNegate]

theorem fmul_of_zero_product (h : f32Value a * f32Value b = 0) : fmul a b = signedZero (fNeg a != fNeg b) := by
  rw [mul_eq_zero, f32Value_eq_zero_iff, f32Value_eq_zero_iff, ← Nat.mul_eq_zero] at h
  rw [fmul_of_finite ha hb, h, fRound_zero]

theorem fNeg_fmul : fNeg (fmul a b) = (fNeg a != fNeg b) := by
  rw [fmul_of_finite ha hb, fNeg_fRound]

end

theorem fsub_self {x : F32} (hx : fFinite x = true) : fsub x x = 0x00000000#32 := by
  rw [fsub_of_zero_difference hx hx (sub_self _), Bool.and_not_self]
  rfl

end Sys2Proof.Machine

namespace Sys2Proof

open Machine Claims

/-- Settles O45: the lemmas above, rule by rule; a product's second order is `fmul_comm`. -/
theorem floatSpecialCases : Obligations.FloatSpecialCases := by
  refine ⟨fun a b h => ⟨fadd_of_isNaN h, fsub_of_isNaN h, fmul_of_isNaN h⟩,
    fun a b => ⟨fadd_isNaN, fadd_isNaN, fmul_isNaN⟩,
    fun n => ⟨fadd_infinity_opposite n, ?_, fadd_infinity_same n, ?_⟩,
    fun n b hb => ⟨fadd_infinity_left n hb, fadd_infinity_right n hb, ?_, ?_⟩,
    fun n b hb hzero => ⟨fmul_infinity_of_zero n hb hzero, ?_⟩,
    fun n b hnan hne => ⟨fmul_infinity_of_ne_zero n hnan hne, ?_⟩,
    fun a b ha hb => ⟨fadd_of_zero_sum ha hb, fsub_of_zero_difference ha hb, fmul_of_zero_product ha hb,
      fNeg_fmul ha hb⟩,
    fun x hx => ⟨fsub_self hx, fsub_self hx⟩⟩
  · rw [fsub, fNegate_infinity]
    exact fadd_infinity_opposite n
  · rw [fsub, fNegate_infinity, Bool.not_not]
    exact fadd_infinity_same n
  · exact fadd_infinity_left n ((fFinite_fNegate b).trans hb)
  · rw [fsub, fNegate_infinity]
    exact fadd_infinity_right (!n) hb
  · rw [fmul_comm]
    exact fmul_infinity_of_zero n hb hzero
  · rw [fmul_comm]
    exact fmul_infinity_of_ne_zero n hnan hne

end Sys2Proof
end

section
/-! SUPPORT. Ring pointers and their code (42_ring R260, R261): distances and advances counted modulo 60, slots modulo
30. -/

namespace Sys2Proof.Machine

open Sys2Proof

/-! ### Distances -/

/-- Counted from `r`, the way from `b` to a later `a` is the difference of their distances. -/
theorem ptrDist_eq_sub {a b r : Fin 60} (h : ptrDist b r ≤ ptrDist a r) :
    ptrDist a b = ptrDist a r - ptrDist b r := by
  simp only [ptrDist] at h ⊢
  omega

theorem ptrDist_inc_left {w r : Fin 60} (h : ptrDist w r < 59) : ptrDist (inc w) r = ptrDist w r + 1 := by
  simp only [ptrDist, inc] at h ⊢
  omega

@[simp] theorem advance_ptrDist (a b : Fin 60) : advance b (ptrDist a b) = a := by
  simp only [advance, ptrDist, Fin.ext_iff]
  omega

theorem ptrDist_advance {p : Fin 60} {n : Nat} (h : n < 60) : ptrDist (advance p n) p = n := by
  simp only [advance, ptrDist]
  omega

/-! ### Slots -/

/-- Pointers less than 30 advances apart have different slots (R261, R273). -/
theorem slotKey_ne_of_ptrDist {p q : Fin 60} (ch : Chan) (hpos : 0 < ptrDist q p) (hlt : ptrDist q p < 30) :
    slotKey ch p ≠ slotKey ch q := by
  simp only [slotKey, slotOf, ptrDist] at hpos hlt ⊢
  omega

/-- Of two pointers less than 30 ahead of a third, the nearer one has another slot than the farther one. -/
theorem slotKey_ne_of_lt {p q base : Fin 60} (ch : Chan) (hlt : ptrDist p base < ptrDist q base)
    (h30 : ptrDist q base < 30) : slotKey ch p ≠ slotKey ch q := by
  have hsub := ptrDist_eq_sub (Nat.le_of_lt hlt)
  exact slotKey_ne_of_ptrDist ch (by omega) (by omega)

end Sys2Proof.Machine

namespace Sys2Proof

open Machine

/-- Settles O16: each clause is a finite fact about the 60 pointers or the 64 codes. -/
theorem grayCodeChangesOneBit : Obligations.GrayCodeChangesOneBit :=
  ⟨g60inv_g60, by decide, by decide, by decide⟩

/-- Settles O17: remainders modulo 60 (`advance_ptrDist` for the last clause). -/
theorem pointerArithmeticIsModularSixty : Obligations.PointerArithmeticIsModularSixty := by
  intro a b
  refine ⟨rfl, rfl, ptrDist_lt a b, ?_, advance_ptrDist a b⟩
  simp only [ptrDist]
  omega

end Sys2Proof
end

section
/-! SUPPORT. The ring reads of a readable ring (42_ring R264 to R269) and where they fault (93_implementation_defined
U10). -/

namespace Sys2Proof.Machine

open Sys2Proof Claims

/-! ### The RING_STAT word -/

theorem toNat_ringStatWord (w r : Fin 60) :
    (ringStatWord w r).toNat = (if isEmpty w r then 2 ^ 8 else 0) + ptrDist w r := by
  have hlt := ptrDist_lt w r
  rw [ringStatWord, BitVec.toNat_ofNat, Nat.mod_eq_of_lt (by split <;> simp only [level] <;> omega), level]

/-- R265: LEVEL is the low six bits. -/
theorem extractLsb'_ringStatWord (w r : Fin 60) : ((ringStatWord w r).extractLsb' 0 6).toNat = ptrDist w r := by
  have hlt := ptrDist_lt w r
  rw [BitVec.extractLsb'_toNat, toNat_ringStatWord, Nat.shiftRight_zero]
  split <;> omega

/-- R265: all other bits are 0. -/
theorem ringStatWord_and_unused (w r : Fin 60) : ringStatWord w r &&& 0xFFFFFEC0#32 = 0#32 := by
  have hsmall : ∀ n : Fin 60, BitVec.ofNat 32 (0 + n) &&& 0xFFFFFEC0#32 = 0#32 := by decide
  cases he : isEmpty w r with
  | false => simpa [ringStatWord, he, level] using hsmall ⟨ptrDist w r, ptrDist_lt w r⟩
  | true =>
    have hlevel : level w r = 0 := by simpa [isEmpty] using he
    simp [ringStatWord, he, hlevel]

/-! ### The other reads, where they return 0 -/

section
variable {s : State} {ch : Chan}

theorem ringHlenWord_of_empty {w : Fin 60} (h : w = rbinOf s ch) : ringHlenWord s ch w = 0#32 := by
  simp [ringHlenWord, h]

theorem ringWinWord_of_empty_or_le {i : BitVec 12} {w : Fin 60}
    (h : w = rbinOf s ch ∨ (slotTag s.mem (headKey s ch)).toNat ≤ i.toNat) : ringWinWord s ch i w = 0#32 := by
  simp [ringWinWord, h]

/-- R268, on an empty ring. -/
theorem exec_popOp_of_empty (hw : wsync s ch = some (rbinOf s ch)) :
    exec (popOp ch) s = .next (hCommit s s.h false (some 0#32)) := by
  cases ch <;> simp [exec, popOp, execRdRingPop0, execRdRingPop1, ringPop, hw]

/-- A successful pop leaves the other channel's read pointer (R268). -/
theorem hCommit_popped_other {d : Chan} (hd : d ≠ ch) (out : Option Word) :
    ((hCommit s (popped s.h ch) false out).h.ring.get d).rbin = (s.h.ring.get d).rbin ∧
    ((hCommit s (popped s.h ch) false out).h.ring.get d).rgray = (s.h.ring.get d).rgray := by
  rw [hCommit_h, hBackground_rbin, hBackground_rgray, popped_other s.h ch hd]
  exact ⟨rfl, rfl⟩

end

/-! ### The reads of an unreadable ring -/

/-- The four ring reads of a channel. -/
inductive IsRingRead (ch : Chan) : Instr → Prop where
  | stat : IsRingRead ch (statOp ch)
  | hlen : IsRingRead ch (hlenOp ch)
  | pop : IsRingRead ch (popOp ch)
  | win (i : BitVec 12) : IsRingRead ch (winOp ch i)

section
variable {ch : Chan} {i : Instr} (hi : IsRingRead ch i) {s : State}
include hi

theorem IsRingRead.fault_of_none (hw : wsync s ch = none) : exec i s = .fault (.writePointerNotCode ch) := by
  cases hi with
  | stat => cases ch <;> simp [exec, statOp, execRdRingStat0, execRdRingStat1, ringStat, hw]
  | hlen => cases ch <;> simp [exec, hlenOp, execRdRingHlen0, execRdRingHlen1, ringHlen, hw]
  | pop => cases ch <;> simp [exec, popOp, execRdRingPop0, execRdRingPop1, ringPop, hw]
  | win i => cases ch <;> simp [exec, winOp, execRdRingWin0, execRdRingWin1, ringWin, hw]

theorem IsRingRead.completes_of_wsync {w : Fin 60} (hw : wsync s ch = some w) : ∃ t, exec i s = .next t := by
  cases hi with
  | stat => exact ⟨_, exec_statOp_of_wsync hw⟩
  | hlen => exact ⟨_, exec_hlenOp_of_wsync hw⟩
  | win i => exact ⟨_, exec_winOp_of_wsync hw i⟩
  | pop =>
    by_cases hne : w = rbinOf s ch
    · exact ⟨_, exec_popOp_of_empty (hne ▸ hw)⟩
    · exact ⟨_, exec_popOp_of_wsync hw hne⟩

/-- U10: a ring read faults exactly when the synchronised write pointer is no code. -/
theorem IsRingRead.fault_iff (f : Fault) :
    exec i s = .fault f ↔ f = .writePointerNotCode ch ∧ wsync s ch = none := by
  cases hw : wsync s ch with
  | none => simp [hi.fault_of_none hw, eq_comm]
  | some w =>
    obtain ⟨t, ht⟩ := hi.completes_of_wsync hw
    simp [ht]

end

end Sys2Proof.Machine

namespace Sys2Proof

open Machine Claims

/-- Settles O18: a plain read of the RING_STAT word, field by field. -/
theorem ringStatReportsLevelAndEmpty : Obligations.RingStatReportsLevelAndEmpty := by
  intro ch s w hw
  refine ⟨_, exec_statOp_of_wsync hw, extractLsb'_ringStatWord .., ?_, ringStatWord_and_unused ..⟩
  rw [getLsbD_ringStatWord, Machine.isEmpty_iff]
  rfl

/-- Settles O19: a plain read of the RING_HLEN word. -/
theorem ringHlenReturnsTheHeadTag : Obligations.RingHlenReturnsTheHeadTag := by
  intro ch s w hw
  refine ⟨?empty, fun hne => ⟨_, exec_hlenOp_of_wsync hw, ?head⟩⟩
  case empty =>
    intro hempty
    rw [exec_hlenOp_of_wsync hw, ringHlenWord_of_empty hempty]
    rfl
  case head =>
    rw [ringHlenWord_of_ne hne]
    exact BitVec.toNat_setWidth_of_le (by decide)

/-- Settles O20: a plain read of the RING_WIN word. -/
theorem ringWindowReturnsTheHeadWords : Obligations.RingWindowReturnsTheHeadWords := by
  intro ch i s w hw key
  rw [exec_winOp_of_wsync hw]
  refine ⟨fun h => ?zero, fun ⟨hne, hlt⟩ => ?word⟩
  case zero =>
    rw [ringWinWord_of_empty_or_le h]
    rfl
  case word =>
    rw [ringWinWord_of_lt hne hlt]
    rfl

/-- Settles O21: on an empty ring a plain read of 0, else the commit of `popped`. -/
theorem ringPopAdvancesTheReadPointer : Obligations.RingPopAdvancesTheReadPointer := by
  intro ch s w hw
  refine ⟨?empty, fun hne => ⟨_, exec_popOp_of_wsync hw hne, rfl, ?rbin, ?rgray, fun d hd => ?other, rfl, rfl, ?frame⟩⟩
  case empty =>
    rintro rfl
    exact exec_popOp_of_empty hw
  case rbin => rw [hCommit_h, hBackground_rbin, popped_rbin]; rfl
  case rgray => rw [hCommit_h, hBackground_rbin, hBackground_rgray, popped_rbin, popped_rgray]
  case other => exact hCommit_popped_other hd _
  case frame => exact ⟨rfl, rfl, rfl, rfl, rfl, rfl, rfl⟩

end Sys2Proof
end

section
/-! SUPPORT. FRAME and the rings (41_audio_engine R209, R210, 42_ring R262, R263, R272): which channels push, what
a push writes, and where a FRAME faults (93_implementation_defined U10). -/

namespace Sys2Proof.Machine

open Sys2Proof Claims

/-! ### The completed block -/

theorem length_completedBlock (s : State) (ch : Chan) (x0 x1 : F32) :
    (completedBlock s ch x0 x1).2.length = (s.a.lane.get ch).cur.toNat + 1 := by
  simp [completedBlock]

theorem getElem_completedBlock (s : State) (ch : Chan) (x0 x1 : F32) {i : Nat}
    (h : i < (completedBlock s ch x0 x1).2.length) : (completedBlock s ch x0 x1).2[i] =
      if i = (s.a.lane.get ch).cur.toNat then tappedSample s ch x0 x1 else abufRead ch (s.a.lane.get ch).abuf i := by
  rw [length_completedBlock] at h
  by_cases hi : i = (s.a.lane.get ch).cur.toNat
  · simp [completedBlock, hi]
  · have hlt : i < (s.a.lane.get ch).cur.toNat := by omega
    simp [completedBlock, hi, hlt]

/-- The samples collected so far and the new one are the buffer once the new one is written (R210). -/
theorem abufBlock_abufWrite (ch : Chan) (buf : List F32) (n : Nat) (t : F32) :
    abufBlock ch (abufWrite ch buf n t) (n + 1) = (List.range n).map (abufRead ch buf) ++ [t] := by
  have hold : (List.range n).map (abufRead ch (abufWrite ch buf n t)) = (List.range n).map (abufRead ch buf) :=
    List.map_congr_left (fun j hj => abufRead_abufWrite_other ch buf t (Nat.ne_of_lt (List.mem_range.mp hj)))
  rw [abufBlock, List.range_succ, List.map_append, hold, List.map_singleton, abufRead_abufWrite_same]

/-! ### Which channels push -/

theorem isFull_eq_false_iff {w r : Fin 60} : isFull w r = false ↔ ptrDist w r ≠ 30 := by simp [isFull]

/-- R262: a block that is due is pushed exactly if the producer does not see the ring full. -/
theorem pushes_iff {s : State} {ch : Chan} {r : Fin 60} (hr : rsync s ch = some r) :
    Pushes s ch ↔ completes s ch = true ∧ isFull (s.a.lane.get ch).wbin r = false := by
  simp [Pushes, hr, isFull_eq_false_iff, ptrDist]

/-- What one channel of a FRAME does to its ring: it pushes the completed block, or it writes neither a slot nor the
write pointer. -/
inductive LaneEffect (s : State) (ch : Chan) (x0 x1 : F32) (m : Memory) (l : Lane) (m' : Memory) : Prop where
  | pushed (hp : Pushes s ch) (hwbin : l.wbin = inc (s.a.lane.get ch).wbin) (hwgray : l.wgray = g60 l.wbin)
      (hm : m' = slotWrite m (slotKey ch (s.a.lane.get ch).wbin) (completedBlock s ch x0 x1).1
        (completedBlock s ch x0 x1).2)
  | kept (hp : ¬ Pushes s ch) (hwbin : l.wbin = (s.a.lane.get ch).wbin) (hwgray : l.wgray = (s.a.lane.get ch).wgray)
      (hm : m' = m)

theorem laneFrame_effect {s : State} {ch : Chan} {x0 x1 y : F32} {m m' : Memory} {l : Lane}
    (h : laneFrame s ch (inputOf x0 x1 ch) m = .ok (y, l, m')) : LaneEffect s ch x0 x1 m l m' := by
  obtain ⟨rfl, hacc⟩ := laneFrame_ok h
  obtain ⟨hp, rfl, rfl⟩ | ⟨hp, hc, rfl, rfl⟩ | ⟨hp, hc, hpush⟩ := accumulate_ok hacc
  · refine .kept (fun hpush => ?_) rfl rfl rfl
    exact absurd (completes_iff.mp hpush.1).1 (by simpa using hp)
  · exact .kept (fun hpush => hc (completes_iff.mp hpush.1).2) rfl rfl rfl
  · have hdue : completes s ch = true := completes_iff.mpr ⟨hp, hc⟩
    obtain ⟨r, hr, ⟨hfull, rfl, rfl⟩ | ⟨hfull, rfl, rfl⟩⟩ := push_ok hpush
    · refine .kept (fun hpush => ?_) rfl rfl rfl
      have hnot := ((pushes_iff hr).mp hpush).2
      simp [hfull] at hnot
    · refine .pushed ((pushes_iff hr).mpr ⟨hdue, hfull⟩) rfl rfl ?_
      rw [← hc, abufBlock_abufWrite]
      rfl

/-- The background logic of the step writes neither copy of the write pointer. -/
theorem LaneEffect.with_rs {s : State} {ch : Chan} {x0 x1 : F32} {m m' : Memory} {l : Lane}
    (h : LaneEffect s ch x0 x1 m l m') (rs : List (BitVec 6)) : LaneEffect s ch x0 x1 m { l with rs := rs } m' := by
  cases h with
  | pushed hp hwbin hwgray hm => exact .pushed hp hwbin hwgray hm
  | kept hp hwbin hwgray hm => exact .kept hp hwbin hwgray hm

/-! ### Slots after a push -/

theorem find_slotWrite_same (m : Memory) (key : Nat) (n : BitVec 13) (d : List F32) :
    (slotWrite m key n d).find key = some ⟨n, d ++ (slotData m key).drop d.length⟩ := Memory.find_put_same ..

theorem find_slotWrite_other (m : Memory) {key j : Nat} (n : BitVec 13) (d : List F32) (h : j ≠ key) :
    (slotWrite m key n d).find j = m.find j := Memory.find_put_other m _ h

theorem slotTag_congr {m m' : Memory} {key : Nat} (h : m'.find key = m.find key) : slotTag m' key = slotTag m key := by
  simp only [slotTag, h]

theorem slotWord_congr {m m' : Memory} {key : Nat} (h : m'.find key = m.find key) (i : Nat) :
    slotWord m' key i = slotWord m key i := by simp only [slotWord, h]

theorem slotData_congr {m m' : Memory} {key : Nat} (h : m'.find key = m.find key) :
    slotData m' key = slotData m key := by simp only [slotData, h]

/-- A slot that the channel does not push to stays. -/
theorem LaneEffect.find_other {s : State} {ch : Chan} {x0 x1 : F32} {m m' : Memory} {l : Lane}
    (h : LaneEffect s ch x0 x1 m l m') {key : Nat}
    (hkey : Pushes s ch → key ≠ slotKey ch (s.a.lane.get ch).wbin) : m'.find key = m.find key := by
  cases h with
  | pushed hp _ _ hm => rw [hm, find_slotWrite_other _ _ _ (hkey hp)]
  | kept _ _ _ hm => rw [hm]

theorem LaneEffect.mem_of_pushes {s : State} {ch : Chan} {x0 x1 : F32} {m m' : Memory} {l : Lane}
    (h : LaneEffect s ch x0 x1 m l m') (hp : Pushes s ch) : m' = slotWrite m (slotKey ch (s.a.lane.get ch).wbin)
      (completedBlock s ch x0 x1).1 (completedBlock s ch x0 x1).2 := by
  cases h with
  | pushed _ _ _ hm => exact hm
  | kept hnot _ _ _ => exact absurd hp hnot

/-! ### The two channels of a FRAME -/

section
variable {x0 x1 : F32} {s t : State} (h : exec (.frame x0 x1) s = .next t)
include h

theorem execFrame_h : t.h = s.h := (execFrame_onlyAChanges h).2.1

/-- Both channels of a FRAME, the right one on the memory the left one leaves. -/
theorem execFrame_laneEffects : ∃ m, LaneEffect s .left x0 x1 s.mem (t.a.lane.get .left) m ∧
    LaneEffect s .right x0 x1 m (t.a.lane.get .right) t.mem := by
  obtain ⟨y0, l0, m0, y1, l1, m1, h0, h1, rfl⟩ := execFrame_next h
  exact ⟨m0, (laneFrame_effect h0).with_rs _, (laneFrame_effect h1).with_rs _⟩

/-- R263, R272: what a FRAME does to one channel's ring, from the memory `m` to `m'`. -/
theorem execFrame_laneEffect (ch : Chan) : ∃ m m', LaneEffect s ch x0 x1 m (t.a.lane.get ch) m' := by
  obtain ⟨m, hleft, hright⟩ := execFrame_laneEffects h
  cases ch with
  | left => exact ⟨_, _, hleft⟩
  | right => exact ⟨_, _, hright⟩

theorem execFrame_find_other {key : Nat} (hkey : ∀ ch, Pushes s ch → key ≠ slotKey ch (s.a.lane.get ch).wbin) :
    t.mem.find key = s.mem.find key := by
  obtain ⟨m, hleft, hright⟩ := execFrame_laneEffects h
  rw [hright.find_other (hkey .right), hleft.find_other (hkey .left)]

/-- The slot a channel pushes to holds what its push writes, whatever the other channel does. -/
theorem execFrame_find_pushed {ch : Chan} (hp : Pushes s ch) :
    t.mem.find (slotKey ch (s.a.lane.get ch).wbin) = (slotWrite s.mem (slotKey ch (s.a.lane.get ch).wbin)
      (completedBlock s ch x0 x1).1 (completedBlock s ch x0 x1).2).find (slotKey ch (s.a.lane.get ch).wbin) := by
  obtain ⟨m, hleft, hright⟩ := execFrame_laneEffects h
  cases ch with
  | left => rw [hright.find_other (fun _ => slotKey_ne_of_chan _ _ (by decide)), hleft.mem_of_pushes hp]
  | right =>
    have hm := hleft.find_other (key := slotKey .right (s.a.lane.get .right).wbin)
      (fun _ => slotKey_ne_of_chan _ _ (by decide))
    rw [hright.mem_of_pushes hp, find_slotWrite_same, find_slotWrite_same, slotData_congr hm]

/-- A slot of one channel is written by that channel's push alone. -/
theorem execFrame_find_of_ne {ch : Chan} {p : Fin 60}
    (hp : Pushes s ch → slotKey ch p ≠ slotKey ch (s.a.lane.get ch).wbin) :
    t.mem.find (slotKey ch p) = s.mem.find (slotKey ch p) := by
  refine execFrame_find_other h (fun d hd => ?_)
  by_cases hdc : d = ch
  · subst hdc
    exact hp hd
  · exact slotKey_ne_of_chan _ _ (Ne.symm hdc)

end

/-! ### Where a FRAME faults -/

theorem laneFrame_fault {s : State} {ch : Chan} (hc : completes s ch = true) (hnone : rsync s ch = none) (x : F32)
    (m : Memory) : laneFrame s ch x m = .error (.readPointerNotCode ch) := by
  obtain ⟨hp, hdue⟩ := completes_iff.mp hc
  have hlast : lastPointer (s.a.lane.get ch).rs = none := hnone
  simp [laneFrame, accumulate, hp, hdue, push, hlast]

/-- U10: one channel faults exactly when its block is due and the synchronised read pointer is no code. -/
theorem laneFrame_error_iff {s : State} {ch : Chan} {x : F32} {m : Memory} {f : Fault} :
    laneFrame s ch x m = .error f ↔ f = .readPointerNotCode ch ∧ completes s ch = true ∧ rsync s ch = none := by
  by_cases hread : completes s ch = true → (rsync s ch).isSome = true
  · obtain ⟨y, l, m', hok⟩ := laneFrame_completes hread x m
    rw [hok]
    simp only [reduceCtorEq, false_iff]
    rintro ⟨-, hc, hnone⟩
    simpa [hnone] using hread hc
  · obtain ⟨hc, hnone⟩ : completes s ch = true ∧ rsync s ch = none := by simpa using hread
    simp [laneFrame_fault hc hnone, hc, hnone, eq_comm]

theorem execFrame_fault_iff {x0 x1 : F32} {s : State} {f : Fault} : exec (.frame x0 x1) s = .fault f ↔
    laneFrame s .left x0 s.mem = .error f ∨
      ∃ y0 l0 m0, laneFrame s .left x0 s.mem = .ok (y0, l0, m0) ∧ laneFrame s .right x1 m0 = .error f := by
  change execFrame x0 x1 s = .fault f ↔ _
  unfold execFrame
  split
  · rename_i hleft
    simp [hleft]
  · rename_i hleft
    split
    · rename_i hright
      simp [hleft, hright]
    · rename_i hright
      simp [hleft, hright]

end Sys2Proof.Machine

namespace Sys2Proof

open Machine Claims

/-- Settles O37: what each channel does to its ring (`LaneEffect`) and, slot by slot, what the two leave in the
memory. -/
theorem framePushesOrDropsCompletedBlocks : Obligations.FramePushesOrDropsCompletedBlocks := by
  intro x0 x1 s hs
  obtain ⟨t, ht⟩ := execFrame_completes x0 x1 hs
  refine ⟨t, ht, fun ch => ?_, fun key hkey => ?other⟩
  case other =>
    have hfind := execFrame_find_other ht hkey
    exact ⟨slotTag_congr hfind, slotWord_congr hfind⟩
  obtain ⟨m, m', heff⟩ := execFrame_laneEffect ht ch
  cases heff with
  | kept hnot hwbin hwgray _ => exact ⟨fun hp => absurd hp hnot, fun _ => ⟨hwbin, hwgray⟩⟩
  | pushed hp hwbin hwgray _ =>
    have hfind := execFrame_find_pushed ht hp
    have hdue : (completedBlock s ch x0 x1).2.length = (s.a.lane.get ch).bsz.toNat :=
      (length_completedBlock ..).trans (completes_iff.mp hp.1).2
    refine ⟨fun _ => ⟨congrArg Fin.val hwbin, hwgray, ?tag, fun i hi => ?word, fun i hi => ?beyond⟩,
      fun hnot => absurd hp hnot⟩
    case tag => exact (slotTag_congr hfind).trans (slotTag_slotWrite_same ..)
    case word =>
      rw [← hdue] at hi
      rw [slotWord_congr hfind, slotWord_slotWrite_same _ _ _ _ hi, getElem_completedBlock _ _ _ _ hi]
    case beyond =>
      rw [← hdue] at hi
      rw [slotWord_congr hfind, slotWord_slotWrite_beyond _ _ _ _ hi]

/-- Settles O22: the ring reads (`IsRingRead.fault_iff`) and the two channels of a FRAME in their order. -/
theorem nonCodePointersFault : Obligations.NonCodePointersFault := by
  refine ⟨fun ch s f => ⟨IsRingRead.stat.fault_iff f, IsRingRead.hlen.fault_iff f, IsRingRead.pop.fault_iff f,
    fun i => (IsRingRead.win i).fault_iff f⟩, fun x0 x1 s f => ?_⟩
  simp only [execFrame_fault_iff, laneFrame_error_iff]
  refine or_congr_right ⟨?_, ?_⟩
  · rintro ⟨y0, l0, m0, hleft, hf, hc, hnone⟩
    refine ⟨hf, hc, hnone, fun hcl hnl => ?_⟩
    rw [laneFrame_fault hcl hnl] at hleft
    cases hleft
  · rintro ⟨hf, hc, hnone, hread⟩
    obtain ⟨y0, l0, m0, hleft⟩ := laneFrame_completes (s := s) (ch := .left)
      (fun hcl => Option.isSome_iff_ne_none.mpr (hread hcl)) x0 s.mem
    exact ⟨y0, l0, m0, hleft, hf, hc, hnone⟩

end Sys2Proof
end

section
/-! SUPPORT. What the invariant says of the two pointer views (42_ring R271, R273), and everything an operation can do
to one ring: push, pop, or leave pointers and slots (R271 I4, I5). -/

namespace Sys2Proof.Machine

open Sys2Proof Claims

/-! ### The views under the invariant -/

theorem occupancy_eq_sub {s : State} {ch : Chan} {r : Fin 60}
    (h : ptrDist (rbinOf s ch) r ≤ ptrDist (s.a.lane.get ch).wbin r) :
    occupancy s ch = ptrDist (s.a.lane.get ch).wbin r - ptrDist (rbinOf s ch) r := ptrDist_eq_sub h

section
variable {s : State} (hs : Inv s) {ch : Chan} {w r : Fin 60}
include hs

/-- R271 I1 to I3, counted from the read pointer that the producer sees. -/
theorem Inv.views (hw : wsync s ch = some w) (hr : rsync s ch = some r) :
    ptrDist (rbinOf s ch) r ≤ ptrDist w r ∧ ptrDist w r ≤ ptrDist (s.a.lane.get ch).wbin r ∧
      ptrDist (s.a.lane.get ch).wbin r ≤ 30 := by
  obtain ⟨w', r', hw', hr', hviews⟩ := hs.pointer_views ch
  obtain rfl : w' = w := Option.some.inj (hw'.symm.trans hw)
  obtain rfl : r' = r := Option.some.inj (hr'.symm.trans hr)
  exact hviews

theorem Inv.exists_views (ch : Chan) : ∃ w r, wsync s ch = some w ∧ rsync s ch = some r := by
  obtain ⟨w, r, hw, hr, -⟩ := hs.pointer_views ch
  exact ⟨w, r, hw, hr⟩

/-- R271 I1, I3: the consumer sees no block that is not there. -/
theorem Inv.level_le_occupancy (hw : wsync s ch = some w) : ptrDist w (rbinOf s ch) ≤ occupancy s ch := by
  obtain ⟨-, r, -, hr⟩ := hs.exists_views ch
  obtain ⟨hrw, hww, -⟩ := hs.views hw hr
  have hlevel := ptrDist_eq_sub hrw
  have hocc := occupancy_eq_sub (hrw.trans hww)
  omega

theorem Inv.occupancy_le_view (hr : rsync s ch = some r) : occupancy s ch ≤ ptrDist (s.a.lane.get ch).wbin r := by
  obtain ⟨w, -, hw, -⟩ := hs.exists_views ch
  obtain ⟨hrw, hww, -⟩ := hs.views hw hr
  have hocc := occupancy_eq_sub (hrw.trans hww)
  omega

theorem Inv.occupancy_le (ch : Chan) : occupancy s ch ≤ 30 := by
  obtain ⟨w, r, hw, hr⟩ := hs.exists_views ch
  exact (hs.occupancy_le_view hr).trans (hs.views hw hr).2.2

/-- R273: a producer that does not see the ring full has a free slot. -/
theorem Inv.occupancy_lt_of_not_full (hr : rsync s ch = some r) (hfull : isFull (s.a.lane.get ch).wbin r = false) :
    occupancy s ch < 30 := by
  obtain ⟨w, -, hw, -⟩ := hs.exists_views ch
  have hmax := (hs.views hw hr).2.2
  have hle := hs.occupancy_le_view hr
  rw [isFull_eq_false_iff] at hfull
  omega

theorem Inv.occupancy_lt_of_pushes (hp : Pushes s ch) : occupancy s ch < 30 := by
  obtain ⟨-, r, -, hr⟩ := hs.exists_views ch
  exact hs.occupancy_lt_of_not_full hr ((pushes_iff hr).mp hp).2

/-- A push writes no slot that holds a block. -/
theorem Inv.slotKey_ne_of_pushes (hp : Pushes s ch) {p : Fin 60} (hocc : ptrDist p (rbinOf s ch) < occupancy s ch) :
    slotKey ch p ≠ slotKey ch (s.a.lane.get ch).wbin :=
  slotKey_ne_of_lt ch hocc (hs.occupancy_lt_of_pushes hp)

end

/-! ### Everything an operation can do to one ring -/

/-- What operation `i` does to the ring of channel `ch`. -/
inductive RingEffect (i : Instr) (s t : State) (ch : Chan) : Prop where
  | kept (hr : rbinOf t ch = rbinOf s ch) (hw : (t.a.lane.get ch).wbin = (s.a.lane.get ch).wbin)
      (hm : ∀ p, t.mem.find (slotKey ch p) = s.mem.find (slotKey ch p))
      (hframe : ∀ x0 x1, i = .frame x0 x1 → ¬ Pushes s ch) (hpop : i = popOp ch → t.hostOut ≠ some 1#32)
  | popped (w : Fin 60) (hi : i = popOp ch) (hout : t.hostOut = some 1#32) (hsees : wsync s ch = some w)
      (hne : w ≠ rbinOf s ch) (hr : rbinOf t ch = inc (rbinOf s ch)) (ha : t.a = s.a) (hm : t.mem = s.mem)
  | pushed (x0 x1 : F32) (hi : i = .frame x0 x1) (hp : Pushes s ch) (hr : rbinOf t ch = rbinOf s ch)
      (hw : (t.a.lane.get ch).wbin = inc (s.a.lane.get ch).wbin)
      (hm : t.mem.find (slotKey ch (s.a.lane.get ch).wbin) = (slotWrite s.mem (slotKey ch (s.a.lane.get ch).wbin)
        (completedBlock s ch x0 x1).1 (completedBlock s ch x0 x1).2).find (slotKey ch (s.a.lane.get ch).wbin))
      (hother : ∀ p, slotKey ch p ≠ slotKey ch (s.a.lane.get ch).wbin →
        t.mem.find (slotKey ch p) = s.mem.find (slotKey ch p))

@[simp] theorem prepareLane_wbin (ok selected : Bool) (n : Word) (l : Lane) :
    (prepareLane ok selected n l).wbin = l.wbin := by
  unfold prepareLane
  split
  · rfl
  · split <;> rfl

@[simp] theorem prepareLane_wgray (ok selected : Bool) (n : Word) (l : Lane) :
    (prepareLane ok selected n l).wgray = l.wgray := by
  unfold prepareLane
  split
  · rfl
  · split <;> rfl

theorem popOp_ne_frame (ch : Chan) (x0 x1 : F32) : popOp ch ≠ .frame x0 x1 := by cases ch <;> nofun

theorem isHost_popOp (ch : Chan) : (popOp ch).isHost = true := by cases ch <;> rfl

section
variable {s t : State} {ch : Chan}

theorem ringEffect_popOp (h : exec (popOp ch) s = .next t) : RingEffect (popOp ch) s t ch := by
  have hpop : ringPop ch s = .next t := by cases ch <;> exact h
  obtain ⟨w, hw, ⟨-, rfl⟩ | ⟨hne, rfl⟩⟩ := ringPop_next hpop
  · exact .kept (rbinOf_hCommit ..) rfl (fun _ => rfl) (fun x0 x1 hi => (popOp_ne_frame ch x0 x1 hi).elim)
      (fun _ => by simp)
  · refine .popped w rfl rfl hw ?_ ((rbinOf_hCommit ..).trans (popped_rbin ..)) rfl rfl
    rw [← Bool.not_eq_true, isEmpty_iff] at hne
    exact hne

/-- A HOSTBUS operation that does not pop the ring leaves it. -/
theorem ringEffect_host {i : Instr} (hi : i.isHost = true) (hne : i ≠ popOp ch) (h : exec i s = .next t) :
    RingEffect i s t ch := by
  have heff := exec_host_effect hi h
  refine .kept ?_ (by rw [heff.a_eq]) (fun _ => by rw [heff.mem_eq]) (fun x0 x1 hf => ?_) (fun hpop => absurd hpop hne)
  · cases heff with
    | plain out h | param p h | clear _ h => rw [h, rbinOf_hCommit]; rfl
    | pop d w hd _ _ h =>
      have hdc : ch ≠ d := fun hcd => hne (hcd ▸ hd)
      rw [h, rbinOf_hCommit, popped_other _ _ hdc, rbinOf]
  · rw [hf] at hi
    cases hi

theorem ringEffect_frame {x0 x1 : F32} (h : exec (.frame x0 x1) s = .next t) : RingEffect (.frame x0 x1) s t ch := by
  have hr : rbinOf t ch = rbinOf s ch := by rw [rbinOf, execFrame_h h, rbinOf]
  obtain ⟨m, m', heff⟩ := execFrame_laneEffect h ch
  cases heff with
  | pushed hp hwbin _ _ =>
    exact .pushed x0 x1 rfl hp hr hwbin (execFrame_find_pushed h hp)
      (fun _ hne => execFrame_find_of_ne h (fun _ => hne))
  | kept hnot hwbin _ _ =>
    exact .kept hr hwbin (fun _ => execFrame_find_of_ne h (fun hp => absurd hp hnot)) (fun _ _ _ => hnot)
      (fun hpop => (popOp_ne_frame ch x0 x1 hpop.symm).elim)

/-- PREPARE, BLOCK_START and the operations that write nothing leave the write pointer and its code. -/
theorem exec_audio_writePointer {i : Instr} (hi : i.isHost = false) (hframe : ∀ x0 x1, i ≠ .frame x0 x1)
    (h : exec i s = .next t) (ch : Chan) : t.h = s.h ∧ (t.a.lane.get ch).wbin = (s.a.lane.get ch).wbin ∧
      (t.a.lane.get ch).wgray = (s.a.lane.get ch).wgray := by
  cases exec_audio_effect hi h with
  | frame x0 x1 hi _ => exact absurd hi (hframe x0 x1)
  | nothing h => simp [h, aIdle]
  | block fs _ h => simp [h]
  | prepare n m _ h =>
    rw [execPrepare_lane h]
    cases h
    exact ⟨rfl, prepareLane_wbin .., prepareLane_wgray ..⟩

theorem ringEffect_audio {i : Instr} (hi : i.isHost = false) (hframe : ∀ x0 x1, i ≠ .frame x0 x1)
    (h : exec i s = .next t) : RingEffect i s t ch := by
  have hmem : t.mem = s.mem := (onlyFrameWritesDelayLinesAndSlots i s t hframe h).1
  obtain ⟨hh, hwbin, -⟩ := exec_audio_writePointer hi hframe h ch
  refine .kept (by rw [rbinOf, hh, rbinOf]) hwbin (fun _ => by rw [hmem]) (fun x0 x1 hf => absurd hf (hframe x0 x1))
    (fun hpop => ?_)
  rw [hpop, isHost_popOp] at hi
  cases hi

theorem exec_ringEffect {i : Instr} (h : exec i s = .next t) (ch : Chan) : RingEffect i s t ch := by
  cases hi : i.isHost with
  | false =>
    by_cases hframe : ∃ x0 x1, i = .frame x0 x1
    · obtain ⟨x0, x1, rfl⟩ := hframe
      exact ringEffect_frame h
    · exact ringEffect_audio hi (fun x0 x1 hf => hframe ⟨x0, x1, hf⟩) h
  | true =>
    by_cases hpop : i = popOp ch
    · subst hpop
      exact ringEffect_popOp h
    · exact ringEffect_host hi hpop h

end

/-! ### The queue after an operation -/

theorem blockAt_congr {s t : State} {ch : Chan} {p : Fin 60}
    (h : t.mem.find (slotKey ch p) = s.mem.find (slotKey ch p)) : blockAt t ch p = blockAt s ch p := by
  simp only [blockAt, slotTag_congr h, funext (slotWord_congr h)]

theorem blockAt_of_slotWrite {s t : State} {ch : Chan} {p : Fin 60} {b : Block} (hlen : b.2.length = b.1.toNat)
    (h : t.mem.find (slotKey ch p) = (slotWrite s.mem (slotKey ch p) b.1 b.2).find (slotKey ch p)) :
    blockAt t ch p = b := by
  have htag : slotTag t.mem (slotKey ch p) = b.1 := (slotTag_congr h).trans (slotTag_slotWrite_same ..)
  refine Prod.ext htag (List.ext_getElem ?_ fun i hi hi' => ?_)
  · simp [blockAt, htag, hlen]
  · simp [blockAt, slotWord_congr h, slotWord_slotWrite_same _ _ _ _ hi']

theorem ptrDist_advance_lt {s : State} {ch : Chan} {i : Nat} (hi : i < occupancy s ch) :
    ptrDist (advance (rbinOf s ch) i) (rbinOf s ch) < occupancy s ch := by
  rwa [ptrDist_advance (hi.trans (ptrDist_lt ..))]

section
variable {s t : State} {ch : Chan} (hr : rbinOf t ch = rbinOf s ch)
include hr

theorem occupancy_of_kept (hw : (t.a.lane.get ch).wbin = (s.a.lane.get ch).wbin) :
    occupancy t ch = occupancy s ch := by
  rw [occupancy, hw]
  exact congrArg _ hr

/-- A write pointer that advances adds a place at the end of the queue. -/
theorem occupancy_of_pushed (hw : (t.a.lane.get ch).wbin = inc (s.a.lane.get ch).wbin) (hlt : occupancy s ch < 59) :
    occupancy t ch = occupancy s ch + 1 := by
  rw [occupancy, hw, show (t.h.ring.get ch).rbin = (s.h.ring.get ch).rbin from hr]
  exact ptrDist_inc_left hlt

theorem queued_of_kept (hw : (t.a.lane.get ch).wbin = (s.a.lane.get ch).wbin)
    (hm : ∀ p, t.mem.find (slotKey ch p) = s.mem.find (slotKey ch p)) : queued t ch = queued s ch := by
  simp only [queued, occupancy_of_kept hr hw, hr, blockAt_congr (hm _)]

/-- A push that leaves the occupied slots appends the block it writes. -/
theorem queued_of_pushed {b : Block} (hw : (t.a.lane.get ch).wbin = inc (s.a.lane.get ch).wbin)
    (hlt : occupancy s ch < 59) (hb : blockAt t ch (s.a.lane.get ch).wbin = b)
    (hold : ∀ p, ptrDist p (rbinOf s ch) < occupancy s ch →
      t.mem.find (slotKey ch p) = s.mem.find (slotKey ch p)) : queued t ch = queued s ch ++ [b] := by
  have hlast : advance (rbinOf s ch) (occupancy s ch) = (s.a.lane.get ch).wbin := advance_ptrDist ..
  rw [queued, occupancy_of_pushed hr hw hlt, List.range_succ, List.map_append, List.map_singleton, hr, hlast, hb,
    queued]
  congr 1
  exact List.map_congr_left (fun i hi => blockAt_congr (hold _ (ptrDist_advance_lt (List.mem_range.mp hi))))

end

end Sys2Proof.Machine

namespace Sys2Proof

open Machine Claims

/-- Settles O51: the trail's order (`Inv.views`), with distances counted from the other pointer. -/
theorem pointerViewsLagAndOccupancyIsBounded : Obligations.PointerViewsLagAndOccupancyIsBounded := by
  intro s ch hs
  obtain ⟨w, r, hw, hr⟩ := hs.exists_views ch
  obtain ⟨hrw, hww, hmax⟩ := hs.views hw hr
  exact ⟨w, r, hw, hr, hs.occupancy_le ch, hmax, hrw.trans hww, hs.level_le_occupancy hw⟩

/-- Settles O52: the two views lag (`Inv.occupancy_lt_of_not_full`, `Inv.occupancy_pos`), and the head is an occupied
slot. -/
theorem fullAndEmptyAreConservative : Obligations.FullAndEmptyAreConservative := by
  intro s ch w r hs hw hr
  refine ⟨hs.occupancy_lt_of_not_full hr, fun hne => ?_⟩
  rw [← Bool.not_eq_true, Machine.isEmpty_iff] at hne
  have hpos := hs.occupancy_pos ch hw hne
  obtain ⟨v, hv⟩ := hs.find_of_lt_occupancy ch hpos
  rw [advance_zero] at hv
  exact ⟨hpos, Option.isSome_iff_exists.mpr ⟨v, hv⟩⟩

/-- Settles O53: only a push writes a slot, and no slot the consumer sees is the free one it writes. -/
theorem visibleSlotsAreStable : Obligations.VisibleSlotsAreStable := by
  intro i s t ch w p hs h hw hp
  cases exec_ringEffect h ch with
  | kept _ _ hm _ _ => exact hm p
  | popped _ _ _ _ _ _ _ hm => rw [hm]
  | pushed _ _ _ hpush _ _ _ hother =>
    exact hother p (hs.slotKey_ne_of_pushes hpush (Nat.lt_of_lt_of_le hp (hs.level_le_occupancy hw)))

/-- Settles O54: what an operation does to the ring (`exec_ringEffect`), case by case. -/
theorem ringIsAQueueOfBlocks : Obligations.RingIsAQueueOfBlocks := by
  intro i s t ch hs h
  cases exec_ringEffect h ch with
  | kept hr hw hm hframe hpop =>
    have hq : queued t ch = queued s ch := queued_of_kept hr hw hm
    exact ⟨fun x0 x1 hi hp => absurd hp (hframe x0 x1 hi), fun _ _ _ _ => hq, fun hi hout => absurd hout (hpop hi),
      fun _ _ => hq, fun _ _ => hq⟩
  | popped w hi hout hw hne hr ha hm =>
    subst hi
    have hq := queued_of_inc hm ha hr (hs.occupancy_pos ch hw hne)
    exact ⟨fun x0 x1 hf => (popOp_ne_frame ch x0 x1 hf).elim, fun x0 x1 hf => (popOp_ne_frame ch x0 x1 hf).elim,
      fun _ _ => ⟨_, hq⟩, fun _ hnot => absurd hout hnot, fun _ hnot => absurd rfl hnot⟩
  | pushed x0 x1 hi hp hr hw hm hother =>
    subst hi
    have hlen : (completedBlock s ch x0 x1).2.length = (completedBlock s ch x0 x1).1.toNat :=
      (length_completedBlock ..).trans (completes_iff.mp hp.1).2
    have hq := queued_of_pushed hr hw ((hs.occupancy_lt_of_pushes hp).trans (by decide))
      (blockAt_of_slotWrite hlen hm) (fun p hocc => hother p (hs.slotKey_ne_of_pushes hp hocc))
    refine ⟨fun y0 y1 hf _ => ?_, fun _ _ _ hnot => absurd hp hnot, fun hf => (popOp_ne_frame ch x0 x1 hf.symm).elim,
      fun hf => (popOp_ne_frame ch x0 x1 hf.symm).elim, fun hnot => absurd rfl (hnot x0 x1)⟩
    cases hf
    exact hq

end Sys2Proof
end

section
/-! SUPPORT. The copies of a source that crosses the domains, oldest first (43_clock_steps R311 to R317, R321): what a
step of the sampling domain and a change of the source do to their order. The trails of the invariant are made of such
copies. -/

namespace Sys2Proof.Machine

open Sys2Proof

/-! ### Lists that follow one another -/

section
variable {α : Type}

/-- `l'` is made of entries of `l` in their order, some left out and some repeated: what is ordered in `l` is ordered in
`l'`. -/
def Follows (l l' : List α) : Prop :=
  (∀ x ∈ l', x ∈ l) ∧ ∀ R : α → α → Prop, (∀ x, R x x) → l.Pairwise R → l'.Pairwise R

theorem Follows.of_sublist {l l' : List α} (h : l'.Sublist l) : Follows l l' :=
  ⟨fun _ hx => h.subset hx, fun _ _ hp => hp.sublist h⟩

theorem Follows.refl (l : List α) : Follows l l := .of_sublist (List.Sublist.refl l)

theorem Follows.trans {l₁ l₂ l₃ : List α} (h : Follows l₁ l₂) (h' : Follows l₂ l₃) : Follows l₁ l₃ :=
  ⟨fun x hx => h.1 x (h'.1 x hx), fun R hR hp => h'.2 R hR (h.2 R hR hp)⟩

theorem Follows.append {l₁ l₂ l₁' l₂' : List α} (h₁ : Follows l₁ l₁') (h₂ : Follows l₂ l₂') :
    Follows (l₁ ++ l₂) (l₁' ++ l₂') := by
  refine ⟨fun x hx => ?_, fun R hR hp => ?_⟩
  · exact List.mem_append.mpr ((List.mem_append.mp hx).imp (h₁.1 x) (h₂.1 x))
  · obtain ⟨hp₁, hp₂, hcross⟩ := List.pairwise_append.mp hp
    exact List.pairwise_append.mpr
      ⟨h₁.2 R hR hp₁, h₂.2 R hR hp₂, fun x hx y hy => hcross x (h₁.1 x hx) y (h₂.1 y hy)⟩

theorem Follows.repeated (x : α) : Follows [x] [x, x] := by
  refine ⟨fun y hy => by simpa using hy, fun R hR _ => ?_⟩
  simpa using hR x

/-! ### The copies of one source -/

/-- The copies of a source, oldest first: the synchroniser from its last flip-flop on, the previous value of a fresh
source, the source. -/
def copies (c : List α) (x : Crossing α) (src : α) : List α := c.reverse ++ staleValue x ++ [src]

theorem reverse_shiftIn (v : α) (c : List α) : (shiftIn v c).reverse = (c.reverse ++ [v]).tail := by
  rw [shiftIn, ← List.tail_reverse, List.reverse_cons]

/-- A step of the sampling domain leaves out the oldest copy and repeats, at most, the source. -/
theorem follows_copies_sampled (c : List α) (x : Crossing α) (old : Bool) (src : α) :
    Follows (copies c x src) (copies (shiftIn (sample x old src) c) x.sampled src) := by
  have hdrop : Follows (c.reverse ++ [sample x old src] ++ [src])
      (copies (shiftIn (sample x old src) c) x.sampled src) := by
    rw [copies, reverse_shiftIn, staleValue_sampled, List.append_nil]
    exact (Follows.of_sublist (List.tail_sublist _)).append (.refl _)
  refine Follows.trans ?_ hdrop
  have hstale : Follows (staleValue x ++ [src]) ([sample x old src] ++ [src]) := by
    by_cases hold : (x.fresh && old) = true
    · obtain ⟨hfresh, hold⟩ := Bool.and_eq_true_iff.mp hold
      simpa [sample, hold, staleValue, hfresh] using Follows.refl [x.prev, src]
    · simpa [sample, hold] using
        (Follows.of_sublist (List.sublist_append_right (staleValue x) [src])).trans (.repeated src)
  simpa [copies] using (Follows.refl c.reverse).append hstale

theorem copies_eq_cons {c : List α} {g : α} (h : c.getLast? = some g) (x : Crossing α) (src : α) :
    ∃ l, copies c x src = g :: l := by
  obtain ⟨ys, rfl⟩ := List.getLast?_eq_some_iff.mp h
  exact ⟨ys.reverse ++ staleValue x ++ [src], by simp [copies]⟩

theorem copies_track_same [DecidableEq α] (c : List α) (x : Crossing α) (src : α) :
    copies c (x.track src src) src = copies c x src := by simp [Crossing.track]

/-- A source that changes adds a copy: order is kept where the new value is in order with the old one and with what
comes after. -/
theorem pairwise_copies_track [DecidableEq α] {R : α → α → Prop} (htrans : ∀ a b c, R a b → R b c → R a c)
    {l l' c : List α} {x : Crossing α} {src src' : α} (h : (l ++ copies c x src ++ l').Pairwise R) (hsrc : R src src')
    (hnext : ∀ y ∈ l', R src' y) : (l ++ copies c (x.track src src') src' ++ l').Pairwise R := by
  by_cases heq : src = src'
  · subst heq
    rwa [copies_track_same]
  · have hcopies : copies c (x.track src src') src' = c.reverse ++ [src] ++ [src'] := by
      simp [copies, Crossing.track, heq, staleValue]
    have hsub : (l ++ c.reverse ++ [src] ++ l').Sublist (l ++ copies c x src ++ l') := by
      refine List.Sublist.append ?_ (List.Sublist.refl l')
      simp [copies]
    obtain ⟨hold, hlater, hcross⟩ := List.pairwise_append.mp (h.sublist hsub)
    have hnew : ∀ y ∈ l ++ c.reverse ++ [src], R y src' := by
      intro y hy
      rcases List.mem_append.mp hy with hy' | hy'
      · exact htrans _ _ _ ((List.pairwise_append.mp hold).2.2 y hy' src (by simp)) hsrc
      · rwa [List.mem_singleton.mp hy']
    have hlist : l ++ (c.reverse ++ [src] ++ [src']) ++ l' = (l ++ c.reverse ++ [src]) ++ (src' :: l') := by simp
    rw [hcopies, hlist, List.pairwise_append, List.pairwise_cons]
    refine ⟨hold, ⟨hnext, hlater⟩, fun y hy z hz => ?_⟩
    rcases List.mem_cons.mp hz with rfl | hz'
    · exact hnew y hy
    · exact hcross y hy z hz'

end

end Sys2Proof.Machine
end

section
/-! SUPPORT. The pointer trail of a ring through one step (42_ring R271 I0 to I3). -/

namespace Sys2Proof.Machine

open Sys2Proof Claims

/-! ### The trail -/

theorem pointerTrail_eq (s : State) (ch : Chan) : pointerTrail s ch =
    copies (s.a.lane.get ch).rs (s.k.rgray.get ch) (s.h.ring.get ch).rgray ++
      copies (s.h.ring.get ch).ws (s.k.wgray.get ch) (s.a.lane.get ch).wgray := by
  simp [pointerTrail, copies]

/-- Counted from `base`, `g` is not ahead of `g'`. -/
def NotAhead (base : Fin 60) (g g' : BitVec 6) : Prop := aheadOf base g ≤ aheadOf base g'

theorem NotAhead.refl (base : Fin 60) (g : BitVec 6) : NotAhead base g g := Nat.le_refl _

theorem NotAhead.trans (base : Fin 60) (g₁ g₂ g₃ : BitVec 6) (h : NotAhead base g₁ g₂) (h' : NotAhead base g₂ g₃) :
    NotAhead base g₁ g₃ := Nat.le_trans h h'

/-- The last copy of the trail bounds the others. -/
theorem aheadOf_le_of_pairwise {s : State} {ch : Chan} {base : Fin 60}
    (hpair : (pointerTrail s ch).Pairwise (NotAhead base)) (hmax : aheadOf base (s.a.lane.get ch).wgray ≤ 30) :
    ∀ g ∈ pointerTrail s ch, aheadOf base g ≤ 30 := by
  obtain ⟨l, hlast⟩ : ∃ l, pointerTrail s ch = l ++ [(s.a.lane.get ch).wgray] := ⟨_, rfl⟩
  intro g hg
  rw [hlast] at hpair hg
  rcases List.mem_append.mp hg with hg' | hg'
  · exact Nat.le_trans ((List.pairwise_append.mp hpair).2.2 g hg' _ (by simp)) hmax
  · rwa [List.mem_singleton.mp hg']

theorem trailOrdered_iff_last {s : State} {ch : Chan} : trailOrdered s ch = true ↔
    ∃ base, rsync s ch = some base ∧ (pointerTrail s ch).Pairwise (NotAhead base) ∧
      aheadOf base (s.a.lane.get ch).wgray ≤ 30 := by
  rw [trailOrdered_iff]
  refine exists_congr fun base => and_congr_right fun _ => ?_
  rw [List.pairwise_map]
  exact and_congr_right fun hpair => ⟨fun hall => hall _ (by simp [pointerTrail]), aheadOf_le_of_pairwise hpair⟩

/-- Counted from a copy in the trail, the later ones keep their order and come no farther. -/
theorem aheadOf_rebase {base base' : Fin 60} {g₀ g : BitVec 6} (h₀ : g60inv g₀ = some base')
    (hle : NotAhead base g₀ g) (h30 : aheadOf base g ≤ 30) : aheadOf base' g = aheadOf base g - aheadOf base g₀ := by
  obtain ⟨p, hp⟩ := aheadOf_lt_iff.mp (Nat.lt_of_le_of_lt h30 (by decide))
  rw [NotAhead, aheadOf_of_inv h₀, aheadOf_of_inv hp] at hle
  rw [aheadOf_of_inv hp, aheadOf_of_inv hp, aheadOf_of_inv h₀]
  exact ptrDist_eq_sub hle

theorem pairwise_rebase {base base' : Fin 60} {g₀ : BitVec 6} {l : List (BitVec 6)} (h₀ : g60inv g₀ = some base')
    (hfirst : ∀ g ∈ l, NotAhead base g₀ g) (h30 : ∀ g ∈ l, aheadOf base g ≤ 30) (h : l.Pairwise (NotAhead base)) :
    l.Pairwise (NotAhead base') := by
  refine h.imp_of_mem fun {g g'} hg hg' hgg' => ?_
  rw [NotAhead, aheadOf_rebase h₀ (hfirst g hg) (h30 g hg), aheadOf_rebase h₀ (hfirst g' hg') (h30 g' hg')]
  exact Nat.sub_le_sub_right hgg' _

theorem Inv.rs_ne_nil {s : State} (hs : Inv s) (ch : Chan) : (s.a.lane.get ch).rs ≠ [] := by
  obtain ⟨-, r, -, hr⟩ := hs.exists_views ch
  intro hnil
  simp [rsync, lastPointer, hnil] at hr

/-! ### H steps -/

section
variable {s : State} {ch : Chan} {h' : HDomain} {pw : Bool} {out : Option Word}

theorem pointerTrail_hCommit : pointerTrail (hCommit s h' pw out) ch =
    copies (s.a.lane.get ch).rs ((s.k.rgray.get ch).track (s.h.ring.get ch).rgray (h'.ring.get ch).rgray)
        (h'.ring.get ch).rgray ++
      copies (wsNext s ch) (s.k.wgray.get ch).sampled (s.a.lane.get ch).wgray := by
  rw [pointerTrail_eq]
  cases ch <;> rfl

/-- Under the invariant a pop does not pass a copy of the write pointer that the consumer sees or will see. -/
theorem Inv.inc_rbin_notAhead (hs : Inv s) {w base : Fin 60} {g : BitVec 6} (hw : wsync s ch = some w)
    (hne : w ≠ rbinOf s ch) (hbase : rsync s ch = some base)
    (hg : g ∈ copies (s.h.ring.get ch).ws (s.k.wgray.get ch) (s.a.lane.get ch).wgray) :
    NotAhead base (g60 (inc (rbinOf s ch))) g ∧
      NotAhead base (g60 (rbinOf s ch)) (g60 (inc (rbinOf s ch))) := by
  obtain ⟨hrw, hww, hmax⟩ := hs.views hw hbase
  have hlt : ptrDist (rbinOf s ch) base ≠ ptrDist w base := fun heq => hne (ptrDist_left_inj.mp heq).symm
  have hinc : ptrDist (inc (rbinOf s ch)) base = _ := ptrDist_inc_left (by omega)
  obtain ⟨p, hp, hwp⟩ := hs.newer_copy hw hbase (c := g) (by simpa [copies] using hg)
  rw [NotAhead, NotAhead, aheadOf_g60, aheadOf_g60, aheadOf_of_inv hp]
  omega

/-- `g` is the code of the read pointer, or of the next one in a ring that the consumer does not see empty. -/
def ReadCodeMoves (s : State) (ch : Chan) (g : BitVec 6) : Prop :=
  g = (s.h.ring.get ch).rgray ∨ ∃ w, wsync s ch = some w ∧ w ≠ rbinOf s ch ∧ g = g60 (inc (rbinOf s ch))

/-- R271 through an H step. -/
theorem trailOrdered_hCommit (hs : Inv s) (hmove : ReadCodeMoves s ch (h'.ring.get ch).rgray) :
    trailOrdered (hCommit s h' pw out) ch = true := by
  obtain ⟨base, hbase, hpair, hmax⟩ := trailOrdered_iff_last.mp (hs.ordered ch)
  refine trailOrdered_iff_last.mpr ⟨base, hbase, ?_, hmax⟩
  rw [pointerTrail_eq] at hpair
  have hsampled : Follows _ (copies (wsNext s ch) (s.k.wgray.get ch).sampled (s.a.lane.get ch).wgray) :=
    follows_copies_sampled ..
  have hlater := ((Follows.refl _).append hsampled).2 _ (NotAhead.refl base) hpair
  rw [pointerTrail_hCommit]
  obtain hkept | ⟨w, hw, hne, hpop⟩ := hmove
  · rwa [hkept, copies_track_same]
  · have hcode : (s.h.ring.get ch).rgray = g60 (rbinOf s ch) := (pointersCoded_iff.mp (hs.coded ch)).1
    have hstep := fun g hg => hs.inc_rbin_notAhead hw hne hbase (hsampled.1 g hg)
    rw [hpop]
    refine pairwise_copies_track (l := []) (NotAhead.trans base) hlater ?_ (fun g hg => (hstep g hg).1)
    rw [hcode]
    exact (hstep (s.a.lane.get ch).wgray (by simp [copies])).2

end

/-! ### A steps -/

section
variable {s : State} {ch : Chan} {a' : ADomain} {m : Memory} {out : Option (F32 × F32)}

theorem pointerTrail_aCommit : pointerTrail (aCommit s a' m out) ch =
    copies (rsNext s ch) (s.k.rgray.get ch).sampled (s.h.ring.get ch).rgray ++
      copies (s.h.ring.get ch).ws ((s.k.wgray.get ch).track (s.a.lane.get ch).wgray (a'.lane.get ch).wgray)
        (a'.lane.get ch).wgray := by
  rw [pointerTrail_eq]
  cases ch <;> rfl

/-- A trail that is ordered from any pointer is ordered from the producer's view, its oldest copy. -/
theorem trailOrdered_of_pairwise {base : Fin 60} (hrs : (s.a.lane.get ch).rs ≠ [])
    (hpair : (pointerTrail s ch).Pairwise (NotAhead base)) (hmax : aheadOf base (s.a.lane.get ch).wgray ≤ 30) :
    trailOrdered s ch = true := by
  have hbound := aheadOf_le_of_pairwise hpair hmax
  have hlast := List.getLast?_eq_some_getLast hrs
  generalize (s.a.lane.get ch).rs.getLast hrs = g₀ at hlast
  obtain ⟨l, htrail⟩ : ∃ l, pointerTrail s ch = g₀ :: l := by
    obtain ⟨l, hl⟩ := copies_eq_cons hlast (s.k.rgray.get ch) (s.h.ring.get ch).rgray
    exact ⟨_, by rw [pointerTrail_eq, hl, List.cons_append]⟩
  have hfirst : ∀ g ∈ pointerTrail s ch, NotAhead base g₀ g := by
    rw [htrail, List.pairwise_cons] at hpair
    rw [htrail, List.forall_mem_cons]
    exact ⟨NotAhead.refl base g₀, hpair.1⟩
  obtain ⟨base', hbase'⟩ := aheadOf_lt_iff.mp (Nat.lt_of_le_of_lt (hbound g₀ (by simp [htrail])) (by decide))
  refine trailOrdered_iff_last.mpr
    ⟨base', by simp [rsync, lastPointer, hlast, hbase'], pairwise_rebase hbase' hfirst hbound hpair, ?_⟩
  rw [aheadOf_rebase hbase' (hfirst _ (by simp [pointerTrail])) hmax]
  exact (Nat.sub_le ..).trans hmax

/-- `g` is the code of the write pointer, or of the next one in a ring that the producer does not see full. -/
def WriteCodeMoves (s : State) (ch : Chan) (g : BitVec 6) : Prop :=
  g = (s.a.lane.get ch).wgray ∨ (Pushes s ch ∧ g = g60 (inc (s.a.lane.get ch).wbin))

/-- R271 through an A step. -/
theorem trailOrdered_aCommit (hs : Inv s) (hmove : WriteCodeMoves s ch (a'.lane.get ch).wgray) :
    trailOrdered (aCommit s a' m out) ch = true := by
  obtain ⟨base, hbase, hpair, hmax⟩ := trailOrdered_iff_last.mp (hs.ordered ch)
  rw [pointerTrail_eq] at hpair
  have hsampled : Follows _ (copies (rsNext s ch) (s.k.rgray.get ch).sampled (s.h.ring.get ch).rgray) :=
    follows_copies_sampled ..
  have hlater := (hsampled.append (Follows.refl _)).2 _ (NotAhead.refl base) hpair
  have hrs : ((aCommit s a' m out).a.lane.get ch).rs ≠ [] := by
    simpa [rsNext] using shiftIn_ne_nil (hs.rs_ne_nil ch)
  have hnew : NotAhead base (s.a.lane.get ch).wgray (a'.lane.get ch).wgray ∧
      aheadOf base (a'.lane.get ch).wgray ≤ 30 := by
    obtain hkept | ⟨hp, hpush⟩ := hmove
    · rw [hkept]
      exact ⟨NotAhead.refl .., hmax⟩
    · have hfree := isFull_eq_false_iff.mp ((pushes_iff hbase).mp hp).2
      rw [(pointersCoded_iff.mp (hs.coded ch)).2, aheadOf_g60] at hmax
      have hinc : ptrDist (inc (s.a.lane.get ch).wbin) base = _ := ptrDist_inc_left (by omega)
      rw [NotAhead, hpush, (pointersCoded_iff.mp (hs.coded ch)).2, aheadOf_g60, aheadOf_g60]
      omega
  refine trailOrdered_of_pairwise hrs (base := base) ?_ (by simpa using hnew.2)
  rw [pointerTrail_aCommit]
  simpa using pairwise_copies_track (l' := []) (NotAhead.trans base) (by simpa using hlater) hnew.1 (by simp)

end

end Sys2Proof.Machine
end

section
/-! SUPPORT. The mailbox handshake and the status synchronisers through one step (43_clock_steps R313 to R317, R320). -/

namespace Sys2Proof.Machine

open Sys2Proof Claims

/-! ### The lengths of the synchronisers -/

@[simp] theorem length_shiftIn {α : Type} (v : α) (c : List α) : (shiftIn v c).length = c.length := by
  simp [shiftIn]

theorem chainsSized_iff {s : State} : chainsSized s = true ↔ s.h.ackS.length = s.cfg.nSync ∧
    s.h.cfgerrS.length = s.cfg.nSync ∧ s.h.accerrS.length = s.cfg.nSync ∧ s.a.togS.length = s.cfg.nSync ∧
    ∀ ch, (s.h.ring.get ch).ws.length = s.cfg.nSync ∧ (s.a.lane.get ch).rs.length = s.cfg.nSync := by
  have hch : ∀ P : Chan → Prop, (∀ ch, P ch) ↔ P .left ∧ P .right :=
    fun P => ⟨fun h => ⟨h _, h _⟩, fun h ch => by cases ch; exacts [h.1, h.2]⟩
  simp only [chainsSized, List.all_cons, List.all_nil, Bool.and_true, Bool.and_eq_true, decide_eq_true_eq, hch,
    PerCh.get_left, PerCh.get_right]
  tauto

theorem chainsSized_hCommit {s : State} {h' : HDomain} {pw : Bool} {out : Option Word} (h : chainsSized s = true) :
    chainsSized (hCommit s h' pw out) = true := by
  rw [chainsSized_iff] at h ⊢
  simpa [ackNext, cfgerrNext, accerrNext, wsNext] using h

theorem chainsSized_aCommit {s : State} {a' : ADomain} {m : Memory} {out : Option (F32 × F32)}
    (h : chainsSized s = true) : chainsSized (aCommit s a' m out) = true := by
  rw [chainsSized_iff] at h ⊢
  simpa [togNext, rsNext] using h

/-! ### A list of bits that changes at most once -/

/-- Once a bit is `b`, the later ones are. -/
def Stays (b : Bool) (x y : Bool) : Prop := x = b → y = b

theorem Stays.refl (b x : Bool) : Stays b x x := id

theorem Stays.trans (b x y z : Bool) (h : Stays b x y) (h' : Stays b y z) : Stays b x z := h' ∘ h

theorem all_dropWhile_iff (b : Bool) (l : List Bool) :
    (l.dropWhile (fun x => x == b)).all (fun x => x != b) = true ↔ l.Pairwise (fun x y => Stays b y x) := by
  induction l with
  | nil => simp
  | cons x l ih =>
    by_cases hx : x = b
    · simp [hx, ih, Stays]
    · have hnone : (∀ y ∈ l, y ≠ b) → l.Pairwise (fun x y => Stays b y x) := fun hall =>
        List.pairwise_of_forall_mem_list (fun _ _ y hy hyb => absurd hyb (hall y hy))
      simpa [List.dropWhile_cons, hx, Stays] using hnone

/-- Newest first, the bits change at most once exactly if, oldest first, one of the two values stays. -/
theorem changesOnce_iff {l : List Bool} : changesOnce l = true ↔ ∃ b, l.reverse.Pairwise (Stays b) := by
  simp only [List.pairwise_reverse]
  refine ⟨fun h => ⟨l.headD false, (all_dropWhile_iff _ l).mp h⟩, fun ⟨b, hb⟩ => ?_⟩
  by_cases hhead : b = l.headD false
  · exact (all_dropWhile_iff _ l).mpr (hhead ▸ hb)
  · cases l with
    | nil => rfl
    | cons x l =>
      have hnot : ∀ y ∈ x :: l, y ≠ b := List.forall_mem_cons.mpr
        ⟨fun hxb => hhead hxb.symm, fun y hy hyb => hhead ((List.pairwise_cons.mp hb).1 y hy hyb).symm⟩
      exact changesOnce_of_const (b := !b) (fun y hy => Bool.eq_not.mpr (hnot y hy))

/-- Bits that end as they begin, and change at most once, do not change. -/
theorem eq_of_pairwise_stays {b v : Bool} {l : List Bool} (h : (v :: l).Pairwise (Stays b))
    (hlast : (v :: l).getLast? = some v) : ∀ x ∈ v :: l, x = v := by
  obtain ⟨ys, hys⟩ := List.getLast?_eq_some_iff.mp hlast
  by_cases hv : v = b
  · subst hv
    exact List.forall_mem_cons.mpr ⟨rfl, fun x hx => (List.pairwise_cons.mp h).1 x hx rfl⟩
  · rw [hys] at h ⊢
    intro x hx
    rcases List.mem_append.mp hx with hx' | hx'
    · have hxb : x ≠ b := fun hxb => hv ((List.pairwise_append.mp h).2.2 x hx' v (by simp) hxb)
      exact (Bool.eq_not.mpr hxb).trans (Bool.eq_not.mpr hv).symm
    · exact List.mem_singleton.mp hx'

/-! ### The toggle trail -/

theorem toggleTrail_reverse (s : State) : (toggleTrail s).reverse =
    copies s.h.ackS s.k.aTog s.a.aTog ++ copies s.a.togS s.k.mbTog s.h.mbTog := by
  have hstale : ∀ x : Crossing Bool, (staleValue x).reverse = staleValue x := by
    intro x
    cases hf : x.fresh <;> simp [staleValue, hf]
  simp [toggleTrail, copies, hstale]

theorem mailboxOk_iff {s : State} : mailboxOk s = true ↔ changesOnce (toggleTrail s) = true ∧
    (s.h.dirty = true ∨ s.h.mb = s.h.shadow) ∧ (s.a.aTog ≠ s.h.mbTog ∨ s.a.live = s.h.mb) := by
  simp [mailboxOk, and_assoc]

section
variable {s : State} (hs : Inv s)
include hs

theorem Inv.exists_pairwise_stays :
    ∃ b, (copies s.h.ackS s.k.aTog s.a.aTog ++ copies s.a.togS s.k.mbTog s.h.mbTog).Pairwise (Stays b) := by
  rw [← toggleTrail_reverse]
  exact changesOnce_iff.mp (mailboxOk_iff.mp hs.mailbox).1

/-- A synchroniser has a last flip-flop. -/
theorem Inv.getLast?_eq_lastBit {c : List Bool} (hlen : c.length = s.cfg.nSync) : c.getLast? = some (lastBit c) := by
  have hsync := hs.nSync_ge
  have hne : c ≠ [] := List.ne_nil_of_length_pos (by omega)
  rw [lastBit, List.getLastD_eq_getLast?, List.getLast?_eq_some_getLast hne, Option.getD_some]

theorem Inv.ackS_getLast : s.h.ackS.getLast? = some (ackToggle s) := by
  obtain ⟨hlen, -⟩ := chainsSized_iff.mp hs.chains
  exact hs.getLast?_eq_lastBit hlen

theorem Inv.togS_getLast : s.a.togS.getLast? = some (lastBit s.a.togS) := by
  obtain ⟨-, -, -, hlen, -⟩ := chainsSized_iff.mp hs.chains
  exact hs.getLast?_eq_lastBit hlen

/-- R320: a toggle that has come back is the only value on the way. -/
theorem Inv.toggle_eq_of_acknowledged (hack : s.h.mbTog = ackToggle s) : ∀ x ∈
    copies s.h.ackS s.k.aTog s.a.aTog ++ copies s.a.togS s.k.mbTog s.h.mbTog, x = s.h.mbTog := by
  obtain ⟨b, hb⟩ := hs.exists_pairwise_stays
  obtain ⟨l, hl⟩ := copies_eq_cons hs.ackS_getLast s.k.aTog s.a.aTog
  rw [hl, ← hack, List.cons_append] at hb ⊢
  exact eq_of_pairwise_stays hb (List.getLast?_eq_some_iff.mpr
    ⟨s.h.mbTog :: (l ++ (s.a.togS.reverse ++ staleValue s.k.mbTog)), by simp [copies]⟩)

/-- The toggle that the A domain is about to show is between its own and the newer ones (R317). -/
theorem Inv.stays_lastBit_togS {b : Bool}
    (hb : (copies s.h.ackS s.k.aTog s.a.aTog ++ copies s.a.togS s.k.mbTog s.h.mbTog).Pairwise (Stays b)) :
    Stays b s.a.aTog (lastBit s.a.togS) ∧
      ∀ x ∈ copies s.a.togS s.k.mbTog s.h.mbTog, Stays b (lastBit s.a.togS) x := by
  obtain ⟨l, hl⟩ := copies_eq_cons hs.togS_getLast s.k.mbTog s.h.mbTog
  obtain ⟨-, hnew, hcross⟩ := List.pairwise_append.mp hb
  rw [hl] at hnew hcross ⊢
  exact ⟨hcross _ (by simp [copies]) _ (by simp),
    List.forall_mem_cons.mpr ⟨id, (List.pairwise_cons.mp hnew).1⟩⟩

end

/-! ### H steps -/

section
variable {s : State} {h' : HDomain} {pw : Bool} {out : Option Word}

theorem toggleTrail_hCommit : (toggleTrail (hCommit s h' pw out)).reverse =
    copies (ackNext s) s.k.aTog.sampled s.a.aTog ++
      copies s.a.togS (s.k.mbTog.track s.h.mbTog (hCommit s h' pw out).h.mbTog) (hCommit s h' pw out).h.mbTog := by
  rw [toggleTrail_reverse]
  rfl

theorem transfers_iff : transfers s = true ↔ s.h.dirty = true ∧ s.h.mbTog = ackToggle s := by
  simp [transfers]

/-- R315 through an H step: a toggle is offered only when no other is under way. -/
theorem changesOnce_hCommit (hs : Inv s) : changesOnce (toggleTrail (hCommit s h' pw out)) = true := by
  have hsampled : Follows _ (copies (ackNext s) s.k.aTog.sampled s.a.aTog) := follows_copies_sampled ..
  have hfollows := hsampled.append (Follows.refl (copies s.a.togS s.k.mbTog s.h.mbTog))
  rw [changesOnce_iff, toggleTrail_hCommit]
  by_cases htr : transfers s = true
  · have hsame := hs.toggle_eq_of_acknowledged (transfers_iff.mp htr).2
    have hne : ∀ x ∈ copies (ackNext s) s.k.aTog.sampled s.a.aTog ++ copies s.a.togS s.k.mbTog s.h.mbTog,
        x ≠ !s.h.mbTog := fun x hx => by simp [hsame x (hfollows.1 x hx)]
    have hpair := List.pairwise_of_forall_mem_list (r := Stays (!s.h.mbTog))
      (fun x hx y _ hxb => absurd hxb (hne x hx))
    refine ⟨!s.h.mbTog, ?_⟩
    simpa using pairwise_copies_track (l' := []) (Stays.trans _) (by simpa using hpair)
      (fun hb => absurd hb (by simp)) (by simp)
  · obtain ⟨b, hb⟩ := hs.exists_pairwise_stays
    refine ⟨b, ?_⟩
    simpa [htr, copies_track_same] using hfollows.2 _ (Stays.refl b) hb

/-- R315, R320 through an H step; only a parameter write changes the store. -/
theorem mailboxOk_hCommit (hs : Inv s) (hstore : pw = false → h'.shadow = s.h.shadow) :
    mailboxOk (hCommit s h' pw out) = true := by
  obtain ⟨-, hclean, hlive⟩ := mailboxOk_iff.mp hs.mailbox
  refine mailboxOk_iff.mpr ⟨changesOnce_hCommit hs, ?_, ?_⟩
  · cases hpw : pw with
    | true => simp
    | false =>
      by_cases htr : transfers s = true
      · simp [htr, hstore hpw]
      · simpa [htr, hstore hpw] using hclean
  · by_cases htr : transfers s = true
    · have hshown : s.a.aTog = s.h.mbTog :=
        hs.toggle_eq_of_acknowledged (transfers_iff.mp htr).2 _ (by simp [copies])
      simp [htr, hshown]
    · simpa [htr] using hlive

end

/-! ### A steps -/

section
variable {s : State} {a' : ADomain} {m : Memory} {out : Option (F32 × F32)}

theorem aTog_aCommit : (aCommit s a' m out).a.aTog = lastBit s.a.togS := by
  by_cases hacc : accepts s = true
  · simp [hacc]
  · have heq : lastBit s.a.togS = s.a.aTog := by simpa [accepts] using hacc
    simp [hacc, heq]

theorem toggleTrail_aCommit : (toggleTrail (aCommit s a' m out)).reverse =
    copies s.h.ackS (s.k.aTog.track s.a.aTog (lastBit s.a.togS)) (lastBit s.a.togS) ++
      copies (togNext s) s.k.mbTog.sampled s.h.mbTog := by
  rw [toggleTrail_reverse, ← aTog_aCommit (a' := a') (m := m) (out := out)]
  rfl

/-- R317, R320 through an A step: what is accepted is the mailbox. -/
theorem mailboxOk_aCommit (hs : Inv s) : mailboxOk (aCommit s a' m out) = true := by
  obtain ⟨-, hclean, hlive⟩ := mailboxOk_iff.mp hs.mailbox
  refine mailboxOk_iff.mpr ⟨?_, hclean, ?_⟩
  · obtain ⟨b, hb⟩ := hs.exists_pairwise_stays
    have hsampled : Follows _ (copies (togNext s) s.k.mbTog.sampled s.h.mbTog) := follows_copies_sampled ..
    have hlater := ((Follows.refl _).append hsampled).2 _ (Stays.refl b) hb
    obtain ⟨hshown, hnewer⟩ := hs.stays_lastBit_togS hb
    rw [changesOnce_iff, toggleTrail_aCommit]
    exact ⟨b, pairwise_copies_track (l := []) (Stays.trans b) hlater hshown (fun x hx => hnewer x (hsampled.1 x hx))⟩
  · by_cases hacc : accepts s = true
    · simp [hacc]
    · simpa [hacc] using hlive

end

/-! ### The status bits -/

theorem statusOk_iff {bit : Bool} {x : Crossing Bool} {c : List Bool} :
    statusOk bit x c = true ↔ (bit = false → x.fresh = false ∧ ∀ b ∈ c, b = false) := by
  cases bit <;> simp [statusOk]

/-- R314 through an H step. -/
theorem statusOk_sampled {bit : Bool} {x : Crossing Bool} {c : List Bool} (old : Bool) (h : statusOk bit x c = true) :
    statusOk bit x.sampled (shiftIn (sample x old bit) c) = true := by
  rw [statusOk_iff] at h ⊢
  intro hbit
  obtain ⟨hfresh, hc⟩ := h hbit
  refine ⟨rfl, fun b hb => ?_⟩
  rcases mem_shiftIn hb with rfl | hb
  · simp [sample, hfresh, hbit]
  · exact hc b hb

/-- R314 through an A step, which sets sticky bits and clears none. -/
theorem statusOk_track {bit bit' : Bool} {x : Crossing Bool} {c : List Bool} (hset : bit = true → bit' = true)
    (h : statusOk bit x c = true) : statusOk bit' (x.track bit bit') c = true := by
  rw [statusOk_iff] at h ⊢
  intro hbit'
  have hbit : bit = false := by
    rw [← Bool.not_eq_true]
    intro hbit
    simp [hset hbit] at hbit'
  rw [hbit'] at *
  simpa [Crossing.track, hbit] using h hbit

end Sys2Proof.Machine
end

section
/-! SUPPORT. The invariant through every operation, reset and step: the slots and the accumulators, then the parts
together (42_ring R271, 43_clock_steps R320, 10_state R48, R51). -/

namespace Sys2Proof.Machine

open Sys2Proof Claims

/-! ### Slots -/

/-- R51: every slot that holds a block has been written, pointer by pointer. -/
theorem occupiedWritten_iff {s : State} {ch : Chan} : occupiedWritten s ch = true ↔
    ∀ p, ptrDist p (rbinOf s ch) < occupancy s ch → (s.mem.find (slotKey ch p)).isSome = true := by
  simp only [occupiedWritten, List.all_eq_true, List.mem_range]
  refine ⟨fun h p hp => ?_, fun h i hi => h _ (ptrDist_advance_lt hi)⟩
  simpa using h _ hp

theorem ptrDist_le_inc_right (p r : Fin 60) : ptrDist p r ≤ ptrDist p (inc r) + 1 := by
  simp only [ptrDist, inc]
  omega

theorem occupancy_of_popped {s t : State} {ch : Chan} (ha : t.a = s.a) (hr : rbinOf t ch = inc (rbinOf s ch))
    (hpos : 0 < occupancy s ch) : occupancy s ch = occupancy t ch + 1 := by
  have hr' : (t.h.ring.get ch).rbin = inc (s.h.ring.get ch).rbin := hr
  rw [occupancy, occupancy, ha, hr']
  exact ptrDist_inc_right hpos

/-- A push writes the slot it adds to the queue; a pop takes one off. -/
theorem RingEffect.occupied_written {i : Instr} {s t : State} {ch : Chan} (h : RingEffect i s t ch) (hs : Inv s) :
    occupiedWritten t ch = true := by
  have hold := occupiedWritten_iff.mp (hs.written ch)
  rw [occupiedWritten_iff]
  intro p hp
  cases h with
  | kept hr hw hm _ _ =>
    rw [hr, occupancy_of_kept hr hw] at hp
    rw [hm]
    exact hold p hp
  | popped w _ _ hw hne hr ha hm =>
    rw [hr] at hp
    rw [hm]
    refine hold p ?_
    have hocc := occupancy_of_popped ha hr (hs.occupancy_pos ch hw hne)
    have hdist := ptrDist_le_inc_right p (rbinOf s ch)
    omega
  | pushed x0 x1 _ hp' hr hw hm hother =>
    have hlt := hs.occupancy_lt_of_pushes hp'
    rw [hr, occupancy_of_pushed hr hw (hlt.trans (by decide))] at hp
    by_cases hkey : slotKey ch p = slotKey ch (s.a.lane.get ch).wbin
    · rw [hkey, hm, find_slotWrite_same]
      rfl
    · rw [hother p hkey]
      refine hold p (Nat.lt_of_le_of_ne (Nat.le_of_lt_succ hp) fun hdist => hkey ?_)
      rw [ptrDist_left_inj.mp hdist]

theorem Memory.mem_put {m : Memory} {key : Nat} {v : Slot} {e : Nat × Slot} (h : e ∈ m.put key v) :
    e = (key, v) ∨ e ∈ m := by
  induction m with
  | nil => simpa [Memory.put] using h
  | cons f rest ih =>
    obtain ⟨k, w⟩ := f
    by_cases h1 : key < k
    · simpa [Memory.put, h1] using h
    · by_cases h2 : key = k
      · subst h2
        simp only [Memory.put, Nat.lt_irrefl, if_false, if_true, List.mem_cons] at h ⊢
        tauto
      · simp only [Memory.put, h1, h2, if_false, List.mem_cons] at h ⊢
        rcases h with h | h
        · exact .inr (.inl h)
        · exact (ih h).imp_right .inr

/-- R51, R83: a write of as many words as its tag says, a number in range, keeps every slot well formed. -/
theorem slotWrite_slotWf {p : Config.Params} {m : Memory} {key : Nat} {n : BitVec 13} {d : List F32}
    (hm : m.all (fun e => slotWf p e.2) = true) (hpos : 1 ≤ n.toNat) (hlen : d.length = n.toNat)
    (hmax : n.toNat ≤ p.blkMax) : (slotWrite m key n d).all (fun e => slotWf p e.2) = true := by
  rw [List.all_eq_true] at hm ⊢
  have hdata : (slotData m key).length ≤ p.blkMax := by
    cases hv : m.find key with
    | none => simp [slotData, hv]
    | some v => simpa [slotData, hv] using (slotWf_iff.mp (hm _ (Memory.mem_of_find hv))).2.2
  intro e he
  rcases Memory.mem_put he with rfl | he
  · rw [slotWf_iff]
    simp only [List.length_append, List.length_drop]
    omega
  · exact hm e he

/-! ### Accumulators -/

theorem accumulatorWf_iff {p : Config.Params} {l : Lane} : accumulatorWf p l = true ↔ (if l.prep = true then
    1 ≤ l.bsz.toNat ∧ l.bsz.toNat ≤ p.blkMax ∧ l.cur.toNat < l.bsz.toNat ∧ l.cur.toNat ≤ l.abuf.length
    else l.bsz = 0#13 ∧ l.cur = 0#13) ∧ l.abuf.length ≤ p.blkMax := by
  cases hp : l.prep <;> simp [accumulatorWf, hp, and_assoc]

theorem length_abufWrite (ch : Chan) (buf : List F32) (i : Nat) (t : F32) :
    (abufWrite ch buf i t).length = max buf.length (i + 1) := by
  unfold abufWrite
  split
  · rw [List.length_set]
    omega
  · simp
    omega

/-- R210: a prepared channel's cursor stays below the block length, and the samples below it have been written. -/
theorem accumulatorWf_accumulate {p : Config.Params} {ch : Chan} {l l' : Lane} {m m' : Memory} {t : F32}
    (h : accumulate ch l m t = .ok (l', m')) (hl : accumulatorWf p l = true) : accumulatorWf p l' = true := by
  cases hp : l.prep with
  | false => rwa [accumulate_unprepared h hp]
  | true =>
    rw [accumulatorWf_iff, if_pos hp] at hl
    obtain ⟨⟨hpos, hmax, hcur, habuf⟩, hbuf⟩ := hl
    by_cases hc : l.cur.toNat + 1 = l.bsz.toNat
    · obtain ⟨wb, wg, rfl⟩ := accumulate_due h hp hc
      rw [accumulatorWf_iff, if_pos hp]
      simp only [length_abufWrite, BitVec.toNat_ofNat]
      omega
    · rw [accumulate_notDue h hp hc, accumulatorWf_iff, if_pos hp]
      simp only [length_abufWrite, BitVec.toNat_add, BitVec.toNat_ofNat]
      omega

/-- R208: PREPARE leaves the cursor at 0 and a length in range, or none. -/
theorem accumulatorWf_prepareLane {p : Config.Params} {l : Lane} (hp : p.wf = true) (selected : Bool) (n : Word)
    (hl : accumulatorWf p l = true) : accumulatorWf p (prepareLane (validLength p n) selected n l) = true := by
  cases selected with
  | false => exact hl
  | true =>
    have hbuf := (accumulatorWf_iff.mp hl).2
    cases hn : validLength p n with
    | false =>
      rw [prepareLane_invalid, accumulatorWf_iff]
      exact ⟨⟨rfl, rfl⟩, hbuf⟩
    | true =>
      have hlt := toNat_lt_of_validLength hp hn
      have hrange := validLength_iff.mp hn
      rw [prepareLane_valid, accumulatorWf_iff, if_pos rfl]
      simp only [BitVec.toNat_ofNat]
      omega

/-! ### HOSTBUS operations -/

/-- A HOSTBUS operation commits a new store only as a parameter write (R165). -/
theorem HostEffect.commit_store {i : Instr} {s t : State} (h : HostEffect i s t) :
    ∃ h' pw out, t = hCommit s h' pw out ∧ (pw = false → h'.shadow = s.h.shadow) := by
  cases h with
  | plain _ h | clear _ h | pop _ _ _ _ _ h => exact ⟨_, _, _, h, fun _ => rfl⟩
  | param _ h => exact ⟨_, _, _, h, nofun⟩

section
variable {i : Instr} {s t : State} (hs : Inv s)
include hs

/-- R271 I0: a pop writes the read pointer and its code together. -/
theorem Inv.pointersCoded_host (h : HostEffect i s t) (ch : Chan) : pointersCoded t ch = true := by
  have hc := pointersCoded_iff.mp (hs.coded ch)
  rw [pointersCoded_iff, h.a_eq]
  refine ⟨?_, hc.2⟩
  cases h with
  | plain _ h | param _ h | clear _ h =>
    rw [h, hCommit_h, hBackground_rbin, hBackground_rgray]
    exact hc.1
  | pop d w _ _ _ h =>
    rw [h, hCommit_h, hBackground_rbin, hBackground_rgray]
    by_cases hd : ch = d
    · subst hd
      rw [popped_rbin, popped_rgray]
    · rw [popped_other _ _ hd]
      exact hc.1

theorem Inv.of_exec_host (hi : i.isHost = true) (h : exec i s = .next t) : Inv t := by
  have heff := exec_host_effect hi h
  have hcoded := hs.pointersCoded_host heff
  have hwritten := fun ch => (exec_ringEffect h ch).occupied_written hs
  have hmove : ∀ ch, ReadCodeMoves s ch (t.h.ring.get ch).rgray := by
    intro ch
    rw [ReadCodeMoves, (pointersCoded_iff.mp (hcoded ch)).1, (pointersCoded_iff.mp (hs.coded ch)).1]
    cases exec_ringEffect h ch with
    | kept hr _ _ _ _ | pushed _ _ _ _ hr _ _ _ => exact .inl (congrArg g60 hr)
    | popped w _ _ hw hne hr _ _ => exact .inr ⟨w, hw, hne, congrArg g60 hr⟩
  obtain ⟨h', pw, out, rfl, hstore⟩ := heff.commit_store
  exact {
    params := hs.params
    chains := chainsSized_hCommit hs.chains
    coded := hcoded
    ordered := fun ch => trailOrdered_hCommit hs (by simpa using hmove ch)
    written := hwritten
    memory := hs.memory
    slots := hs.slots
    accumulators := hs.accumulators
    mailbox := mailboxOk_hCommit hs hstore
    cfgStatus := statusOk_sampled _ hs.cfgStatus
    accStatus := statusOk_sampled _ hs.accStatus }

end

/-! ### AUDIO operations -/

theorem AudioEffect.commit {i : Instr} {s t : State} (h : AudioEffect i s t) : ∃ a' m out, t = aCommit s a' m out := by
  cases h with
  | nothing h | block _ _ h => exact ⟨_, _, _, h⟩
  | prepare n m _ h =>
    cases h
    exact ⟨_, _, _, rfl⟩
  | frame x0 x1 _ h =>
    obtain ⟨_, _, _, _, _, _, -, -, h⟩ := execFrame_next h
    exact ⟨_, _, _, h⟩

theorem LaneEffect.memory_wf {s : State} {ch : Chan} {x0 x1 : F32} {m m' : Memory} {l : Lane}
    (h : LaneEffect s ch x0 x1 m l m') (hm : m.wf = true) : m'.wf = true := by
  cases h with
  | pushed _ _ _ h =>
    rw [h]
    exact slotWrite_wf _ _ _ _ (slotKey_lt ..) hm
  | kept _ _ _ h => rwa [h]

section
variable {i : Instr} {s t : State} (hs : Inv s)
include hs

theorem LaneEffect.slots {ch : Chan} {x0 x1 : F32} {m m' : Memory} {l : Lane} (h : LaneEffect s ch x0 x1 m l m')
    (hm : m.all (fun e => slotWf s.cfg e.2) = true) : m'.all (fun e => slotWf s.cfg e.2) = true := by
  cases h with
  | kept _ _ _ h => rwa [h]
  | pushed hp _ _ h =>
    obtain ⟨hprep, hdue⟩ := completes_iff.mp hp.1
    have hacc := accumulatorWf_iff.mp (hs.accumulators ch)
    rw [if_pos hprep] at hacc
    obtain ⟨⟨hpos, hmax, -, -⟩, -⟩ := hacc
    rw [h]
    exact slotWrite_slotWf hm hpos ((length_completedBlock ..).trans hdue) hmax

/-- R51: the slot memory stays in canonical form, with well-formed slots. -/
theorem Inv.slots_audio (hi : i.isHost = false) (h : exec i s = .next t) :
    t.mem.wf = true ∧ t.mem.all (fun e => slotWf s.cfg e.2) = true := by
  by_cases hframe : ∃ x0 x1, i = .frame x0 x1
  · obtain ⟨x0, x1, rfl⟩ := hframe
    obtain ⟨m, hleft, hright⟩ := execFrame_laneEffects h
    exact ⟨hright.memory_wf (hleft.memory_wf hs.memory), hright.slots hs (hleft.slots hs hs.slots)⟩
  · rw [(onlyFrameWritesDelayLinesAndSlots i s t (fun x0 x1 hf => hframe ⟨x0, x1, hf⟩) h).1]
    exact ⟨hs.memory, hs.slots⟩

theorem Inv.accumulatorWf_audio (hi : i.isHost = false) (h : exec i s = .next t) (ch : Chan) :
    accumulatorWf s.cfg (t.a.lane.get ch) = true := by
  have hacc := hs.accumulators ch
  cases exec_audio_effect hi h with
  | nothing h =>
    rw [h, aIdle, aCommit_a, aBackground_lane]
    exact hacc
  | block _ _ h =>
    rw [h, aCommit_a, aBackground_lane]
    exact hacc
  | prepare n m _ h =>
    rw [execPrepare_lane h]
    exact accumulatorWf_prepareLane hs.params _ n hacc
  | frame x0 x1 hi h' =>
    subst hi
    obtain ⟨l, m, m', hl, hlane⟩ := execFrame_lane h ch
    have hwf : accumulatorWf s.cfg l = true := accumulatorWf_accumulate hl hacc
    rw [hlane]
    exact hwf

/-- R271 I0: a push writes the write pointer and its code together. -/
theorem Inv.pointersCoded_audio (hi : i.isHost = false) (h : exec i s = .next t) (ch : Chan) :
    pointersCoded t ch = true := by
  obtain ⟨hr, hw⟩ := pointersCoded_iff.mp (hs.coded ch)
  rw [pointersCoded_iff]
  by_cases hframe : ∃ x0 x1, i = .frame x0 x1
  · obtain ⟨x0, x1, rfl⟩ := hframe
    obtain ⟨m, m', heff⟩ := execFrame_laneEffect h ch
    rw [execFrame_h h]
    refine ⟨hr, ?_⟩
    cases heff with
    | pushed _ _ hwgray _ => exact hwgray
    | kept _ hwbin hwgray _ => rw [hwgray, hwbin, hw]
  · obtain ⟨hh, hwbin, hwgray⟩ := exec_audio_writePointer hi (fun x0 x1 hf => hframe ⟨x0, x1, hf⟩) h ch
    rw [hh, hwbin, hwgray]
    exact ⟨hr, hw⟩

theorem Inv.of_exec_audio (hi : i.isHost = false) (h : exec i s = .next t) : Inv t := by
  have hcoded := hs.pointersCoded_audio hi h
  have hwritten := fun ch => (exec_ringEffect h ch).occupied_written hs
  have hacc := hs.accumulatorWf_audio hi h
  obtain ⟨hmem, hslots⟩ := hs.slots_audio hi h
  obtain ⟨hcfgErr, haccErr, -, -⟩ := stickyBitsAreOnlySet i s t h
  have hmove : ∀ ch, WriteCodeMoves s ch (t.a.lane.get ch).wgray := by
    intro ch
    rw [WriteCodeMoves, (pointersCoded_iff.mp (hcoded ch)).2, (pointersCoded_iff.mp (hs.coded ch)).2]
    cases exec_ringEffect h ch with
    | kept _ hw _ _ _ => exact .inl (congrArg g60 hw)
    | pushed _ _ _ hp _ hw _ _ => exact .inr ⟨hp, congrArg g60 hw⟩
    | popped _ _ _ _ _ _ ha _ => exact .inl (by rw [ha])
  obtain ⟨a', m, out, rfl⟩ := (exec_audio_effect hi h).commit
  exact {
    params := hs.params
    chains := chainsSized_aCommit hs.chains
    coded := hcoded
    ordered := fun ch => trailOrdered_aCommit hs (by simpa using hmove ch)
    written := hwritten
    memory := hmem
    slots := hslots
    accumulators := hacc
    mailbox := mailboxOk_aCommit hs
    cfgStatus := statusOk_track hcfgErr hs.cfgStatus
    accStatus := statusOk_track haccErr hs.accStatus }

theorem Inv.of_exec (h : exec i s = .next t) : Inv t := by
  cases hi : i.isHost with
  | true => exact hs.of_exec_host hi h
  | false => exact hs.of_exec_audio hi h

end

/-! ### Events -/

/-- The invariant does not speak of what the environment presents or of what the ports deliver. -/
theorem Inv.congr {s t : State} (hs : Inv s) (hcfg : t.cfg = s.cfg) (hh : t.h = s.h) (ha : t.a = s.a)
    (hmem : t.mem = s.mem) (hk : t.k = s.k) : Inv t := by
  obtain ⟨cfg, h, a, mem, k, pending, capture, tick, hostOut, audioOut⟩ := t
  simp only at hcfg hh ha hmem hk
  subst hcfg hh ha hmem hk
  exact ⟨hs.params, hs.chains, hs.coded, hs.ordered, hs.written, hs.memory, hs.slots, hs.accumulators, hs.mailbox,
    hs.cfgStatus, hs.accStatus⟩

section
variable {s t : State} (hs : Inv s)
include hs

theorem Inv.of_takeEdge (c : Config.Capture) : Inv (takeEdge s c) := hs.congr rfl rfl rfl rfl rfl

/-- An idle H step does what an ignored write does (R120, R164). -/
theorem Inv.of_hIdle : Inv (hIdle s) := hs.of_exec (i := .wrRoId 0#32) rfl

theorem Inv.of_runEdge {e : Edge} (h : runEdge s e = .next t) : Inv t := by
  cases e with
  | host word c =>
    cases word with
    | none =>
      cases h
      exact (hs.of_takeEdge c).of_hIdle
    | some w => exact (hs.of_takeEdge c).of_exec h
  | audio w c => exact (hs.of_takeEdge c).of_exec h
  | reset =>
    cases h
    exact (resetMeetsTheInvariant s.cfg hs.params).congr rfl rfl rfl rfl rfl

end

end Sys2Proof.Machine

namespace Sys2Proof

open Machine

/-- Settles O49: a step runs one event (`Inv.of_runEdge`), which is an operation of one domain or a reset. -/
theorem everyStepKeepsTheInvariant : Obligations.EveryStepKeepsTheInvariant :=
  fun _ _ hs h => hs.of_runEdge h

end Sys2Proof
end

section
/-! SUPPORT. The pull sequence among other steps (42_ring R270, 43_clock_steps R310): no operation stops under the
invariant, and no edge but a pop of the ring or a reset takes a block off its queue. -/

namespace Sys2Proof.Machine

open Sys2Proof Claims

/-! ### Running under the invariant -/

/-- Under the invariant every synchronised pointer is readable, so no operation stops (R340, U10). -/
theorem exec_completes_of_inv {s : State} (hs : Inv s) (i : Instr) : ∃ t, exec i s = .next t := by
  have hread : ∀ ch j, IsRingRead ch j → ∃ t, exec j s = .next t := by
    intro ch j hj
    obtain ⟨w, -, hw, -⟩ := hs.exists_views ch
    exact hj.completes_of_wsync hw
  cases i
  case rdRingStat0 => exact hread .left _ .stat
  case rdRingStat1 => exact hread .right _ .stat
  case rdRingHlen0 => exact hread .left _ .hlen
  case rdRingHlen1 => exact hread .right _ .hlen
  case rdRingPop0 => exact hread .left _ .pop
  case rdRingPop1 => exact hread .right _ .pop
  case rdRingWin0 i => exact hread .left _ (.win i)
  case rdRingWin1 i => exact hread .right _ (.win i)
  case frame x0 x1 =>
    refine execFrame_completes x0 x1 (fun ch _ => ?_)
    obtain ⟨-, r, -, hr⟩ := hs.exists_views ch
    simp [hr]
  all_goals exact ⟨_, rfl⟩

/-! ### What stays on the queue -/

/-- `u` comes after `s`: its consumer sees a block, and what was queued in `s` still stands first. -/
structure StillQueued (ch : Chan) (s u : State) : Prop where
  inv : Inv u
  sees : SeesBlock u ch
  queue : queued s ch <+: queued u ch

theorem queued_eq_cons {s : State} {ch : Chan} (hpos : 0 < occupancy s ch) :
    ∃ behind, queued s ch = blockAt s ch (rbinOf s ch) :: behind := by
  obtain ⟨n, hn⟩ := Nat.exists_eq_succ_of_ne_zero (Nat.ne_of_gt hpos)
  exact ⟨_, by rw [queued, hn, List.range_succ_eq_map, List.map_cons, advance_zero]⟩

/-- Only a pop takes a block off the queue (R271 I5). -/
theorem queued_prefix_of_exec {i : Instr} {s t : State} {ch : Chan} (hs : Inv s) (hi : i ≠ popOp ch)
    (h : exec i s = .next t) : queued s ch <+: queued t ch := by
  obtain ⟨hpush, hdrop, -, -, hother⟩ := ringIsAQueueOfBlocks i s t ch hs h
  by_cases hframe : ∃ x0 x1, i = .frame x0 x1
  · obtain ⟨x0, x1, hf⟩ := hframe
    by_cases hp : Pushes s ch
    · exact ⟨_, (hpush x0 x1 hf hp).symm⟩
    · rw [hdrop x0 x1 hf hp]
  · rw [hother (fun x0 x1 hf => hframe ⟨x0, x1, hf⟩) hi]

/-- A consumer that sees a block keeps seeing one until it pops. -/
theorem SeesBlock.after_exec {i : Instr} {s t : State} {ch : Chan} (hsees : SeesBlock s ch) (hs : Inv s)
    (hi : i ≠ popOp ch) (h : exec i s = .next t) : SeesBlock t ch := by
  have ht := hs.of_exec h
  cases hport : i.isHost with
  | true =>
    have hr : rbinOf t ch = rbinOf s ch := by
      cases exec_ringEffect h ch with
      | kept hr _ _ _ _ | pushed _ _ _ _ hr _ _ _ => exact hr
      | popped _ hpop _ _ _ _ _ _ => exact absurd hpop hi
    obtain ⟨h', pw, out, rfl⟩ := (exec_host_effect hport h).commit
    exact hsees.commit ((rbinOf_hCommit ..).symm.trans hr) pw out
  | false =>
    obtain ⟨w, hw, hne⟩ := hsees.exists_wsync
    obtain ⟨a', m, out, rfl⟩ := (exec_audio_effect hport h).commit
    exact ht.seesBlock hw hne

namespace StillQueued

variable {ch : Chan} {s u : State} (h : StillQueued ch s u)
include h

theorem after_exec {i : Instr} {t : State} (hi : i ≠ popOp ch) (ht : exec i u = .next t) : StillQueued ch s t :=
  ⟨h.inv.of_exec ht, h.sees.after_exec h.inv hi ht, h.queue.trans (queued_prefix_of_exec h.inv hi ht)⟩

theorem after_present (e : Edge) : StillQueued ch s { u with pending := e :: u.pending } :=
  ⟨h.inv.congr rfl rfl rfl rfl rfl, h.sees, h.queue⟩

theorem after_takeEdge (c : Config.Capture) : StillQueued ch s (takeEdge u c) :=
  ⟨h.inv.of_takeEdge c, h.sees, h.queue⟩

/-- R270: an edge that neither pops the ring nor resets. -/
theorem after_runEdge {e : Edge} (he : harmlessTo ch e = true) :
    ∃ v, runEdge { u with pending := e :: u.pending } e = .next v ∧ StillQueued ch s v := by
  have hexec : ∀ i c, i ≠ popOp ch → ∃ v, exec i (takeEdge { u with pending := e :: u.pending } c) = .next v ∧
      StillQueued ch s v := by
    intro i c hi
    have hq := (h.after_present e).after_takeEdge c
    obtain ⟨v, hv⟩ := exec_completes_of_inv hq.inv i
    exact ⟨v, hv, hq.after_exec hi hv⟩
  cases e with
  | host word c =>
    cases word with
    | none => exact hexec (.wrRoId 0#32) c (by cases ch <;> nofun)
    | some w => exact hexec (decodeHost w) c (by simpa [harmlessTo] using he)
  | audio w c =>
    refine hexec (decodeAudio w) c fun hpop => ?_
    have haudio := (wellFormed_isAudio_decodeAudio w).2
    rw [hpop, isHost_popOp] at haudio
    cases haudio
  | reset => cases he

end StillQueued

/-! ### The lines of a sequence -/

/-- Neither a pop of ring `ch` nor a reset falls between the lines. -/
def GapsHarmless (ch : Chan) (gaps : Nat → Gap) : Prop := ∀ n, ∀ e ∈ (gaps n).1, harmlessTo ch e = true

theorem runEdge_line {i : Instr} (hi : i.wellFormed = true) (s : State) (c : Config.Capture) :
    runEdge s (line i c) = exec i (takeEdge s c) := by
  have hdecode := decodeInvertsEncode i hi
  unfold line
  cases hword : encode i with
  | host w | audio w =>
    rw [hword] at hdecode
    exact congrArg (exec · _) hdecode

theorem runEdges_singleton (e : Edge) (s : State) :
    runEdges [e] s = runEdge { s with pending := e :: s.pending } e := by
  simp only [runEdges]
  split <;> rename_i h <;> exact h.symm

/-- A line runs its operation after the edges of its gap. -/
theorem StillQueued.runLine_eq {ch : Chan} {s u : State} (h : StillQueued ch s u) {i : Instr} (hi : i.wellFormed = true)
    {g : Gap} (hg : ∀ e ∈ g.1, harmlessTo ch e = true) : ∃ v, StillQueued ch s v ∧ runLine i g u = exec i v := by
  obtain ⟨v, hv, hq⟩ := runEdges_induct (P := StillQueued ch s) h (fun u e he hu => hu.after_runEdge (hg e he))
  refine ⟨_, (hq.after_present (line i g.2)).after_takeEdge g.2, ?_⟩
  rw [runLine, runEdges_append hv, runEdges_singleton, runEdge_line hi]

/-- A line with no gap runs its operation at once. -/
theorem runLine_of_no_gap {i : Instr} (hi : i.wellFormed = true) {g : Gap} (hg : g.1 = []) (s : State) :
    ∃ u, u.h = s.h ∧ u.a = s.a ∧ u.mem = s.mem ∧ runLine i g s = exec i u :=
  ⟨takeEdge { s with pending := line i g.2 :: s.pending } g.2, rfl, rfl, rfl, by
    rw [runLine, hg, List.nil_append, runEdges_singleton, runEdge_line hi]⟩

section
variable {gaps : Nat → Gap} {i : Instr} {is : List Instr} {n : Nat} {s t u : State} {v : Word} {vs : List Word}

/-- A read that returns `v`, then the rest. -/
theorem readLines_cons (hi : runLine i (gaps n) s = .next t) (hv : t.hostOut = some v)
    (his : readLines gaps is (n + 1) t = .next (u, vs)) : readLines gaps (i :: is) n s = .next (u, v :: vs) := by
  simp [readLines, hi, his, hv]

theorem readLines_singleton (hi : runLine i (gaps n) s = .next t) (hv : t.hostOut = some v) :
    readLines gaps [i] n s = .next (t, [v]) := readLines_cons hi hv rfl

end

theorem IsRingRead.wellFormed {ch : Chan} {i : Instr} (h : IsRingRead ch i) : i.wellFormed = true := by
  cases h <;> cases ch <;> rfl

theorem statOp_ne_popOp (ch : Chan) : statOp ch ≠ popOp ch := by cases ch <;> nofun

theorem hlenOp_ne_popOp (ch : Chan) : hlenOp ch ≠ popOp ch := by cases ch <;> nofun

theorem winOp_ne_popOp (ch : Chan) (i : BitVec 12) : winOp ch i ≠ popOp ch := by cases ch <;> nofun

/-! ### The reads while the head stays -/

section
variable {ch : Chan} {s u : State} (hpos : 0 < occupancy s ch) (h : StillQueued ch s u)
include hpos h

/-- R270: the oldest block of `s` is still the head. -/
theorem StillQueued.head : blockAt u ch (rbinOf u ch) = blockAt s ch (rbinOf s ch) := by
  obtain ⟨w, hw, hne⟩ := h.sees.exists_wsync
  obtain ⟨behind, hs⟩ := queued_eq_cons hpos
  obtain ⟨later, hu⟩ := queued_eq_cons (h.inv.occupancy_pos ch hw hne)
  have hq := h.queue
  rw [hs, hu, List.cons_prefix_cons] at hq
  exact hq.1.symm

theorem StillQueued.slotTag_head : slotTag u.mem (headKey u ch) = slotTag s.mem (headKey s ch) :=
  congrArg Prod.fst (h.head hpos)

theorem StillQueued.slotWord_head {i : Nat} (hi : i < (slotTag s.mem (headKey s ch)).toNat) :
    slotWord u.mem (headKey u ch) i = slotWord s.mem (headKey s ch) i := by
  have hwords : (List.range (slotTag u.mem (headKey u ch)).toNat).map (slotWord u.mem (headKey u ch)) =
      (List.range (slotTag s.mem (headKey s ch)).toNat).map (slotWord s.mem (headKey s ch)) :=
    congrArg Prod.snd (h.head hpos)
  rw [h.slotTag_head hpos] at hwords
  exact List.map_inj_left.mp hwords i (List.mem_range.mpr hi)

end

section
variable {ch : Chan} {gaps : Nat → Gap} (hgaps : GapsHarmless ch gaps) {s u : State} (n : Nat)
  (h : StillQueued ch s u)
include hgaps h

theorem readLines_statOp :
    ∃ t v, readLines gaps [statOp ch] n u = .next (t, [v]) ∧ v.getLsbD 8 = false ∧ StillQueued ch s t := by
  obtain ⟨v, hq, hline⟩ := h.runLine_eq IsRingRead.stat.wellFormed (hgaps n)
  obtain ⟨w, hw, hne⟩ := hq.sees.exists_wsync
  have hexec := exec_statOp_of_wsync hw
  refine ⟨_, _, readLines_singleton (hline.trans hexec) rfl, ?_, hq.after_exec (statOp_ne_popOp ch) hexec⟩
  rw [getLsbD_ringStatWord, ← Bool.not_eq_true, isEmpty_iff]
  exact hne

/-- The pop takes the head off, and nothing behind it. -/
theorem readLines_popOp : ∃ t, readLines gaps [popOp ch] n u = .next (t, [1#32]) ∧
    ∀ b behind, queued s ch = b :: behind → behind <+: queued t ch := by
  obtain ⟨v, hq, hline⟩ := h.runLine_eq IsRingRead.pop.wellFormed (hgaps n)
  obtain ⟨w, hw, hne⟩ := hq.sees.exists_wsync
  refine ⟨_, readLines_singleton (hline.trans (exec_popOp_of_wsync hw hne)) rfl, fun b behind hs => ?_⟩
  have hr : rbinOf (hCommit v (popped v.h ch) false (some 1#32)) ch = inc (rbinOf v ch) :=
    (rbinOf_hCommit ..).trans (popped_rbin ..)
  have hpop := queued_of_inc (s := v) (t := hCommit v (popped v.h ch) false (some 1#32)) rfl rfl hr
    (hq.inv.occupancy_pos ch hw hne)
  have hprefix := hq.queue
  rw [hs, hpop, List.cons_prefix_cons] at hprefix
  exact hprefix.2

variable (hpos : 0 < occupancy s ch)
include hpos

theorem readLines_hlenOp : ∃ t, readLines gaps [hlenOp ch] n u =
    .next (t, [(slotTag s.mem (headKey s ch)).zeroExtend 32]) ∧ StillQueued ch s t := by
  obtain ⟨v, hq, hline⟩ := h.runLine_eq IsRingRead.hlen.wellFormed (hgaps n)
  obtain ⟨w, hw, hne⟩ := hq.sees.exists_wsync
  have hexec := exec_hlenOp_of_wsync hw
  refine ⟨_, readLines_singleton (hline.trans hexec) ?_, hq.after_exec (hlenOp_ne_popOp ch) hexec⟩
  rw [hCommit_hostOut, ringHlenWord_of_ne hne, hq.slotTag_head hpos]

/-- R267: window reads below the head's length return its words. -/
theorem readLines_winOps (is : List Nat) (his : ∀ i ∈ is, i < 4096 ∧ i < (slotTag s.mem (headKey s ch)).toNat) :
    ∃ t, readLines gaps (is.map (fun i => winOp ch (BitVec.ofNat 12 i))) n u =
      .next (t, is.map (slotWord s.mem (headKey s ch))) ∧ StillQueued ch s t := by
  induction is generalizing n u with
  | nil => exact ⟨u, rfl, h⟩
  | cons i is ih =>
    obtain ⟨⟨hfit, hlt⟩, hrest⟩ := List.forall_mem_cons.mp his
    obtain ⟨v, hq, hline⟩ := h.runLine_eq (IsRingRead.win (BitVec.ofNat 12 i)).wellFormed (hgaps n)
    obtain ⟨w, hw, hne⟩ := hq.sees.exists_wsync
    have hexec := exec_winOp_of_wsync hw (BitVec.ofNat 12 i)
    obtain ⟨t, ht, hkept⟩ := ih (n + 1) (hq.after_exec (winOp_ne_popOp ch _) hexec) hrest
    refine ⟨t, readLines_cons (hline.trans hexec) ?_ ht, hkept⟩
    have hval : (BitVec.ofNat 12 i).toNat = i := Nat.mod_eq_of_lt hfit
    have hbelow : (BitVec.ofNat 12 i).toNat < (slotTag v.mem (headKey v ch)).toNat := by
      rwa [hval, hq.slotTag_head hpos]
    rw [hCommit_hostOut, ringWinWord_of_lt hne hbelow, hval, hq.slotWord_head hpos hlt]

/-- R270: what `pullAmong` does once HLEN has answered with the head's length. -/
theorem drainLines_of_stillQueued (hlen : (slotTag s.mem (headKey s ch)).toNat ≤ 4096) :
    ∃ t, drainLines ch gaps ((blockAt s ch (rbinOf s ch)).1.zeroExtend 32) u =
        .next (t, some ((blockAt s ch (rbinOf s ch)).1.zeroExtend 32, (blockAt s ch (rbinOf s ch)).2, [1#32])) ∧
      ∀ b behind, queued s ch = b :: behind → behind <+: queued t ch := by
  obtain ⟨t, hwin, ht⟩ := readLines_winOps hgaps 2 h hpos (List.range (slotTag s.mem (headKey s ch)).toNat)
    fun i hi => ⟨Nat.lt_of_lt_of_le (List.mem_range.mp hi) hlen, List.mem_range.mp hi⟩
  obtain ⟨v, hpop, hbehind⟩ := readLines_popOp hgaps (2 + (slotTag s.mem (headKey s ch)).toNat) ht
  have htag : (blockAt s ch (rbinOf s ch)).1 = slotTag s.mem (headKey s ch) := rfl
  have htoNat : ((slotTag s.mem (headKey s ch)).zeroExtend 32).toNat = (slotTag s.mem (headKey s ch)).toNat :=
    BitVec.toNat_setWidth_of_le (by decide)
  refine ⟨v, ?_, hbehind⟩
  simp only [drainLines, winReads, htag, htoNat, hwin, hpop]
  rfl

end

/-! ### The pull sequence -/

/-- `pullAmong` on a ring that is empty at its first step stops there. -/
theorem pullAmong_of_empty {ch : Chan} {gaps : Nat → Gap} {s : State} (hfirst : (gaps 0).1 = [])
    (hw : wsync s ch = some (rbinOf s ch)) :
    ∃ t, pullAmong ch gaps s = .next (t, none) ∧ queued t ch = queued s ch := by
  obtain ⟨u, hh, ha, hmem, hline⟩ := runLine_of_no_gap (i := statOp ch) IsRingRead.stat.wellFormed hfirst s
  have hr : rbinOf u ch = rbinOf s ch := by rw [rbinOf, hh, rbinOf]
  have hwu : wsync u ch = some (rbinOf s ch) := by rw [wsync, hh, ← wsync, hw]
  have hempty : isEmpty (rbinOf s ch) (rbinOf u ch) = true := isEmpty_iff.mpr hr.symm
  refine ⟨_, ?_, queued_congr (t := hCommit u u.h false (some (ringStatWord (rbinOf s ch) (rbinOf u ch)))) hmem ha
    ((rbinOf_hCommit ..).trans hr)⟩
  simp [pullAmong, readLines_singleton (hline.trans (exec_statOp_of_wsync hwu)) rfl, getLsbD_ringStatWord, hempty]

/-- `pullAmong` on a ring in which the consumer sees a block returns that block and pops it. -/
theorem pullAmong_of_stillQueued {ch : Chan} {gaps : Nat → Gap} (hgaps : GapsHarmless ch gaps) {s : State}
    (h : StillQueued ch s s) (hpos : 0 < occupancy s ch) : ∃ t, pullAmong ch gaps s =
        .next (t, some ((blockAt s ch (rbinOf s ch)).1.zeroExtend 32, (blockAt s ch (rbinOf s ch)).2, [1#32])) ∧
      ∀ b behind, queued s ch = b :: behind → behind <+: queued t ch := by
  obtain ⟨t, v, hstat, hv, ht⟩ := readLines_statOp hgaps 0 h
  obtain ⟨u, hhlen, hu⟩ := readLines_hlenOp hgaps 1 ht hpos
  obtain ⟨x, hdrain, hbehind⟩ := drainLines_of_stillQueued hgaps hu hpos (h.inv.head_length_le hpos)
  refine ⟨x, ?_, hbehind⟩
  simp only [pullAmong, hstat, List.headD_cons, hv, hhlen]
  exact hdrain

end Sys2Proof.Machine

namespace Sys2Proof

open Machine

/-- Settles O59: up to the pop the head stays, whatever comes between (`StillQueued`), so the reads return it, and the
pop takes it alone. -/
theorem pullIsUnchangedByInterleavedSteps : Obligations.PullIsUnchangedByInterleavedSteps := by
  intro ch gaps s w hs hw hfirst hgaps
  refine ⟨fun hempty => pullAmong_of_empty hfirst (hempty ▸ hw), fun hne => ?_⟩
  have hpos := hs.occupancy_pos ch hw hne
  have hstart : StillQueued ch s s := ⟨hs, hs.seesBlock hw hne, List.prefix_rfl⟩
  obtain ⟨t, hpull, hbehind⟩ := pullAmong_of_stillQueued hgaps hstart hpos
  obtain ⟨behind, hqueue⟩ := queued_eq_cons hpos
  refine ⟨t, _, _, behind, hpull, ?_, hbehind _ _ hqueue⟩
  rw [hqueue, BitVec.setWidth_setWidth_of_le _ (by decide), BitVec.setWidth_eq]

end Sys2Proof
end

section
/-! SUPPORT. The background of a step in the spec's own words (43_clock_steps R311 to R321): what the model's shift,
capture and bookkeeping give, and that every operation ends in a commit of its own domain. -/

namespace Sys2Proof.Machine

open Sys2Proof Claims

/-! ### Shifting, capturing and bookkeeping -/

theorem sample_eq_captured {α : Type} (x : Crossing α) (old : Bool) (cur : α) :
    sample x old cur = captured x old cur := by
  simp [sample, captured]

theorem shifted_shiftIn {α : Type} (v : α) (c : List α) : Shifted v c (shiftIn v c) := by
  refine ⟨length_shiftIn v c, fun k hk => ?_⟩
  cases k with
  | zero => simp [shiftIn, hk]
  | succ k => simp [shiftIn, hk]

/-- R311, R312: a synchroniser takes what its first flip-flop captures. -/
theorem shifted_sample {α : Type} (x : Crossing α) (old : Bool) (cur : α) (c : List α) :
    Shifted (captured x old cur) c (shiftIn (sample x old cur) c) := by
  rw [sample_eq_captured]
  exact shifted_shiftIn _ c

theorem consumed_sampled {α : Type} (x : Crossing α) : Consumed x x.sampled := ⟨rfl, rfl⟩

theorem tracked_track {α : Type} [DecidableEq α] (x : Crossing α) (pre post : α) :
    Tracked x (x.track pre post) pre post := by
  by_cases h : pre = post
  · simp [Tracked, Crossing.track, h]
  · simp [Tracked, Crossing.track, h]

section
variable (k : Bookkeeping) (ch : Chan)

@[simp] theorem kAfterH_wgray (pre post : HDomain) :
    (kAfterH k pre post).wgray.get ch = (k.wgray.get ch).sampled := by cases ch <;> rfl
@[simp] theorem kAfterH_rgray (pre post : HDomain) : (kAfterH k pre post).rgray.get ch =
    (k.rgray.get ch).track (pre.ring.get ch).rgray (post.ring.get ch).rgray := by cases ch <;> rfl
@[simp] theorem kAfterA_wgray (pre post : ADomain) : (kAfterA k pre post).wgray.get ch =
    (k.wgray.get ch).track (pre.lane.get ch).wgray (post.lane.get ch).wgray := by cases ch <;> rfl
@[simp] theorem kAfterA_rgray (pre post : ADomain) :
    (kAfterA k pre post).rgray.get ch = (k.rgray.get ch).sampled := by cases ch <;> rfl

end

/-! ### Every commit -/

theorem onlyHChanges_hCommit (s : State) (h' : HDomain) (pw : Bool) (out : Option Word) :
    OnlyHChanges s (hCommit s h' pw out) := ⟨rfl, rfl, rfl, rfl, rfl, rfl, rfl⟩

/-- R312 to R315: a transfer needs a dirty store and an acknowledged toggle. -/
theorem hBackground_hCommit (s : State) (h' : HDomain) (pw : Bool) (out : Option Word) :
    HBackground s (hCommit s h' pw out) pw := by
  refine ⟨fun ch => ?_, shifted_sample .., shifted_sample .., shifted_sample .., ?_⟩
  · rw [hCommit_h, hBackground_ws]
    exact shifted_sample ..
  · split
    next hready =>
      have htr : transfers s = true := transfers_iff.mpr hready
      simp [htr]
    next hready =>
      have htr : transfers s = false := by
        rw [← Bool.not_eq_true, transfers_iff]
        exact hready
      simp [htr]

/-- R316, R317: an acceptance needs a toggle that has come through and is not the domain's own. -/
theorem aBackground_aCommit (s : State) (a' : ADomain) (m : Memory) (out : Option (F32 × F32)) :
    ABackground s (aCommit s a' m out) := by
  refine ⟨fun ch => ?_, shifted_sample .., ?_⟩
  · rw [aCommit_a, aBackground_lane]
    exact shifted_sample ..
  · split
    next hnew =>
      have hacc : accepts s = true := bne_iff_ne.mpr hnew
      simp [hacc, lastBit]
    next hnew =>
      have hacc : accepts s = false := by
        rw [← Bool.not_eq_true, accepts, bne_iff_ne]
        exact hnew
      simp [hacc]

/-! ### Every operation -/

/-- A HOSTBUS operation commits the H domain, as a parameter write exactly if it is one (R165, R315). -/
theorem exec_host_commit {i : Instr} {s t : State} (hi : i.isHost = true) (h : exec i s = .next t) :
    ∃ h' out, t = hCommit s h' (isParamWrite i) out := by
  cases i
  case rdRingStat0 | rdRingStat1 => obtain ⟨w, -, rfl⟩ := ringStat_next h; exact ⟨_, _, rfl⟩
  case rdRingHlen0 | rdRingHlen1 => obtain ⟨w, -, rfl⟩ := ringHlen_next h; exact ⟨_, _, rfl⟩
  case rdRingWin0 | rdRingWin1 => obtain ⟨w, -, rfl⟩ := ringWin_next h; exact ⟨_, _, rfl⟩
  case rdRingPop0 | rdRingPop1 => obtain ⟨w, -, ⟨-, rfl⟩ | ⟨-, rfl⟩⟩ := ringPop_next h <;> exact ⟨_, _, rfl⟩
  case nop | prepare | blockStart | frame | rsvKind4 | rsvKind5 | rsvKind6 | rsvKind7 | rsvKind8 | rsvKind9 | rsvKindA
      | rsvKindB | rsvKindC | rsvKindD | rsvKindE | rsvKindF => cases hi
  all_goals cases h; exact ⟨_, _, rfl⟩

/-! ### The mailbox handshake -/

section
variable {s : State} (hs : Inv s)
include hs

/-- R320 (a): while a toggle waits to be accepted no other is offered, since a toggle that has come back is the only
value on the way. -/
theorem Inv.transfers_eq_false (hwait : lastBit s.a.togS ≠ s.a.aTog) : transfers s = false := by
  rw [← Bool.not_eq_true]
  intro htr
  have hsame := hs.toggle_eq_of_acknowledged (transfers_iff.mp htr).2
  obtain ⟨l, hl⟩ := copies_eq_cons hs.togS_getLast s.k.mbTog s.h.mbTog
  have hlast : lastBit s.a.togS = s.h.mbTog := hsame _ (by simp [hl])
  have hshown : s.a.aTog = s.h.mbTog := hsame _ (by simp [copies])
  exact hwait (hlast.trans hshown.symm)

/-- R320 (d), R319: a clean store is the mailbox, and an acknowledged mailbox is the live set. -/
theorem Inv.live_eq_shadow (hsettled : paramPending s = false) : s.a.live = s.h.shadow := by
  obtain ⟨hdirty, hack⟩ : s.h.dirty = false ∧ s.h.mbTog = ackToggle s := by simpa [paramPending] using hsettled
  have hshown : s.a.aTog = s.h.mbTog := hs.toggle_eq_of_acknowledged hack _ (by simp [copies])
  obtain ⟨-, hclean, hlive⟩ := mailboxOk_iff.mp hs.mailbox
  calc s.a.live = s.h.mb := hlive.resolve_left (fun hne => hne hshown)
    _ = s.h.shadow := hclean.resolve_left (by simp [hdirty])

end

end Sys2Proof.Machine

namespace Sys2Proof

open Machine Claims

/-- Settles O23: a HOSTBUS operation is a commit of the H domain (`exec_host_commit`), whose background is R312 to R315
(`hBackground_hCommit`); an idle H step commits the registers it finds. -/
theorem hostStepRunsTheBackground : Obligations.HostStepRunsTheBackground := by
  refine ⟨fun i s t hi h => ?_, fun s => ?_⟩
  · obtain ⟨h', out, rfl⟩ := exec_host_commit hi h
    exact hBackground_hCommit ..
  · exact ⟨hBackground_hCommit .., onlyHChanges_hCommit .., rfl, rfl, rfl,
      fun ch => ⟨hBackground_rbin .., hBackground_rgray ..⟩⟩

/-- Settles O24: an AUDIO operation is a commit of the A domain (`aBackground_aCommit`). -/
theorem audioStepRunsTheBackground : Obligations.AudioStepRunsTheBackground := by
  intro i s t hi h
  obtain ⟨a', m, out, rfl⟩ := (exec_audio_effect hi h).commit
  exact aBackground_aCommit ..

/-- Settles O25: a commit tracks its own domain's sources and has sampled the other's. -/
theorem crossingsAreTrackedAndConsumed : Obligations.CrossingsAreTrackedAndConsumed := by
  intro i s t h
  refine ⟨fun hi => ?_, fun hi => ?_⟩
  · obtain ⟨h', out, rfl⟩ := exec_host_commit hi h
    refine ⟨fun ch => ?_, consumed_sampled _, consumed_sampled _, consumed_sampled _, fun ch => ?_, tracked_track ..⟩
    · rw [hCommit_k, kAfterH_wgray]
      exact consumed_sampled _
    · rw [hCommit_k, kAfterH_rgray]
      exact tracked_track ..
  · obtain ⟨a', m, out, rfl⟩ := (exec_audio_effect hi h).commit
    refine ⟨fun ch => ?_, consumed_sampled _, fun ch => ?_, tracked_track .., tracked_track .., tracked_track ..⟩
    · rw [aCommit_k, kAfterA_rgray]
      exact consumed_sampled _
    · rw [aCommit_k, kAfterA_wgray]
      exact tracked_track ..

/-- Settles O26: a commit writes one domain. -/
theorem operationsWriteOnlyTheirDomain : Obligations.OperationsWriteOnlyTheirDomain := by
  intro i s t h
  refine ⟨fun hi => ?_, fun hi => ?_⟩
  · obtain ⟨h', out, rfl⟩ := exec_host_commit hi h
    exact onlyHChanges_hCommit ..
  · obtain ⟨a', m, out, rfl⟩ := (exec_audio_effect hi h).commit
    exact onlyAChanges_aCommit ..

/-- Settles O57, by the mailbox part of the invariant (`Inv.transfers_eq_false`, `Inv.live_eq_shadow`). -/
theorem settledParametersAreTheStore : Obligations.SettledParametersAreTheStore :=
  fun _ hs => ⟨hs.transfers_eq_false, hs.live_eq_shadow⟩

end Sys2Proof
end

section
/-! SUPPORT. What one step takes (43_clock_steps R310), and a write pointer on its way through the consumer's
synchroniser (R322): it advances one flip-flop with each H step, whatever else comes. -/

namespace Sys2Proof.Machine

open Sys2Proof Claims

/-! ### One event -/

theorem decodeAudio_zero : decodeAudio 0#72 = .nop := by decide

/-- With nothing presented, an idle H edge or a NOP comes (log entry 2). -/
theorem step_of_nothing_pending {s : State} (h : s.pending = []) :
    ∃ c, step s = .next (hIdle (takeEdge s c)) ∨ step s = exec .nop (takeEdge s c) := by
  refine ⟨Config.idleCapture s.tick, ?_⟩
  cases hdomain : Config.idleEdgeIsHost s.tick with
  | true => exact .inl (by simp [step, nextEdge, h, hdomain, runEdge])
  | false => exact .inr (by simp [step, nextEdge, h, hdomain, runEdge, decodeAudio_zero])

theorem takeEdge_of_pending {s : State} {e : Edge} {rest : List Edge} (h : s.pending = e :: rest) (c : Config.Capture) :
    takeEdge s c = { s with pending := rest, capture := c, tick := s.tick + 1 } := by
  simp [takeEdge, h]

/-- An H edge ends in a commit of the H domain, with a word or without. -/
theorem runEdge_host_commit {word : Option (BitVec 64)} {c : Config.Capture} {s t : State}
    (h : runEdge s (.host word c) = .next t) : ∃ h' pw out, t = hCommit (takeEdge s c) h' pw out := by
  cases word with
  | none => cases h; exact ⟨_, _, _, rfl⟩
  | some w => exact (exec_host_effect (wellFormed_isHost_decodeHost w).2 h).commit

theorem runEdge_audio_commit {w : BitVec 72} {c : Config.Capture} {s t : State}
    (h : runEdge s (.audio w c) = .next t) : ∃ a' m out, t = aCommit (takeEdge s c) a' m out :=
  (exec_audio_effect (wellFormed_isAudio_decodeAudio w).2 h).commit

/-! ### A write pointer on its way -/

/-- `n` H steps after the write pointer of channel `ch` became `g`: from the first of them on it is no longer fresh, and
all but one of them have brought it one flip-flop further. -/
structure Crossed (ch : Chan) (g : BitVec 6) (n : Nat) (s : State) : Prop where
  source : (s.a.lane.get ch).wgray = g
  settled : 0 < n → (s.k.wgray.get ch).fresh = false
  reached : ∀ x ∈ (s.h.ring.get ch).ws.take (n - 1), x = g

section
variable {ch : Chan} {g : BitVec 6} {n : Nat} {s : State} (hs : Crossed ch g n s)
include hs

theorem Crossed.mono {m : Nat} (h : m ≤ n) : Crossed ch g m s :=
  ⟨hs.source, fun hm => hs.settled (by omega),
    fun x hx => hs.reached x (List.take_subset_take_left _ (by omega) hx)⟩

/-- R312, R321: an H step lets the pointer into the first flip-flop, or, at the first step only, what was there before
it. -/
theorem Crossed.after_hCommit (h' : HDomain) (pw : Bool) (out : Option Word) :
    Crossed ch g (n + 1) (hCommit s h' pw out) := by
  refine ⟨hs.source, fun _ => by simp [Crossing.sampled], fun x hx => ?_⟩
  rw [hCommit_h, hBackground_ws, Nat.add_sub_cancel] at hx
  cases n with
  | zero => simp at hx
  | succ n =>
    have hfirst : sample (s.k.wgray.get ch) (s.capture.wgray.get ch) (s.a.lane.get ch).wgray = g := by
      simp [sample, hs.settled n.succ_pos, hs.source]
    rw [wsNext, hfirst] at hx
    rcases List.mem_cons.mp (((List.dropLast_prefix _).take _).subset hx) with hx | hx
    · exact hx
    · exact hs.reached x hx

/-- R321: an A step that does not push leaves the pointer where it is on its way. -/
theorem Crossed.after_aCommit {a' : ADomain} {m : Memory} {out : Option (F32 × F32)}
    (hkept : ((aCommit s a' m out).a.lane.get ch).wgray = g) : Crossed ch g n (aCommit s a' m out) := by
  refine ⟨hkept, fun hn => ?_, hs.reached⟩
  rw [aCommit_k, kAfterA_wgray, ← aCommit_a s a' m out, hkept, hs.source]
  simpa [Crossing.track] using hs.settled hn

/-- An edge that neither pushes nor resets keeps what has been reached, and an H edge brings the pointer further. -/
theorem Crossed.after_runEdge {e : Edge} {t : State} (h : runEdge s e = .next t) (he : e ≠ .reset)
    (hkept : (t.a.lane.get ch).wgray = g) : Crossed ch g (n + if isHostEdge e then 1 else 0) t := by
  have htake : ∀ c, Crossed ch g n (takeEdge s c) := fun _ => ⟨hs.source, hs.settled, hs.reached⟩
  cases e with
  | host word c =>
    obtain ⟨h', pw, out, rfl⟩ := runEdge_host_commit h
    exact (htake c).after_hCommit h' pw out
  | audio w c =>
    obtain ⟨a', m, out, rfl⟩ := runEdge_audio_commit h
    exact (htake c).after_aCommit hkept
  | reset => exact absurd rfl he

/-- After N_SYNC + 1 H steps the pointer is in every flip-flop (R322). -/
theorem Crossed.ws_eq_replicate (h : (s.h.ring.get ch).ws.length < n) :
    (s.h.ring.get ch).ws = List.replicate (s.h.ring.get ch).ws.length g := by
  refine List.eq_replicate_iff.mpr ⟨rfl, fun x hx => hs.reached x ?_⟩
  rwa [List.take_of_length_le (by omega)]

end

/-! ### A run of several steps -/

theorem run_succ_of_step {n : Nat} {s u : State} (h : step s = .next u) :
    Host.Core.run Sys2Proof.core (n + 1) s = Host.Core.run Sys2Proof.core n u := by
  have hcore : Sys2Proof.core.step s = .next u := h
  simp only [Host.Core.run, hcore]

theorem run_succ_next {n : Nat} {s t : State} (h : Host.Core.run Sys2Proof.core (n + 1) s = .next t) :
    ∃ u : State, step s = .next u ∧ Host.Core.run Sys2Proof.core n u = .next t := by
  simp only [Host.Core.run] at h
  split at h
  next u hu => exact ⟨u, hu, h⟩
  next => cases h
  next => cases h

/-- The host edges among the first `n` that are presented. -/
def hostEdges (n : Nat) (s : State) : Nat := ((s.pending.take n).filter isHostEdge).length

/-- An edge takes itself from what is presented, and no edge but a reset changes the length of a synchroniser. -/
theorem runEdge_pending_ws {e : Edge} {s t : State} (h : runEdge s e = .next t) (he : e ≠ .reset) (ch : Chan) :
    t.pending = s.pending.tail ∧ (t.h.ring.get ch).ws.length = (s.h.ring.get ch).ws.length := by
  cases e with
  | host word c =>
    obtain ⟨h', pw, out, rfl⟩ := runEdge_host_commit h
    exact ⟨rfl, by simp [wsNext, takeEdge]⟩
  | audio w c =>
    obtain ⟨a', m, out, rfl⟩ := runEdge_audio_commit h
    exact ⟨rfl, rfl⟩
  | reset => exact absurd rfl he

theorem nextEdge_ne_reset {n : Nat} {s : State} (h : Edge.reset ∉ s.pending.take (n + 1)) : nextEdge s ≠ .reset := by
  unfold nextEdge
  split
  next e rest hp =>
    rw [hp, List.take_succ_cons, List.mem_cons, not_or] at h
    exact Ne.symm h.1
  next => split <;> nofun

theorem hostEdges_succ_le {n : Nat} {s u : State} (hu : u.pending = s.pending.tail) :
    hostEdges (n + 1) s ≤ (if isHostEdge (nextEdge s) then 1 else 0) + hostEdges n u := by
  unfold hostEdges
  rw [hu]
  cases hp : s.pending with
  | nil => simp
  | cons e rest =>
    have hnext : nextEdge s = e := by simp [nextEdge, hp]
    rw [hnext, List.take_succ_cons, List.filter_cons, List.tail_cons]
    split
    · simp [Nat.add_comm]
    · simp

/-- Along a run without a push on the channel or a reset, each H edge presented brings the pointer further. -/
theorem Crossed.after_run {ch : Chan} {g : BitVec 6} {k n : Nat} {s t : State} (hs : Crossed ch g k s)
    (h : Host.Core.run Sys2Proof.core n s = .next t) (hreset : Edge.reset ∉ s.pending.take n)
    (hkept : ∀ (m : Nat) (u : State), m ≤ n → Host.Core.run Sys2Proof.core m s = .next u →
      (u.a.lane.get ch).wgray = g) :
    Crossed ch g (k + hostEdges n s) t ∧ (t.h.ring.get ch).ws.length = (s.h.ring.get ch).ws.length := by
  induction n generalizing k s with
  | zero =>
    cases h
    exact ⟨hs, rfl⟩
  | succ n ih =>
    obtain ⟨u, hstep, hrun⟩ := run_succ_next h
    have hne := nextEdge_ne_reset hreset
    obtain ⟨hpending, hlen⟩ := runEdge_pending_ws hstep hne ch
    have hu := hs.after_runEdge hstep hne (hkept 1 u (by omega) (run_succ_of_step hstep))
    have htail : u.pending.take n = (s.pending.take (n + 1)).tail := by
      rw [hpending, List.tail_take_eq_take_tail, Nat.add_sub_cancel]
    obtain ⟨ht, hlen'⟩ := ih hu hrun (fun hmem => hreset (List.mem_of_mem_tail (htail ▸ hmem)))
      (fun m v hm hv => hkept (m + 1) v (by omega) ((run_succ_of_step hstep).trans hv))
    have hcount := hostEdges_succ_le (n := n) hpending
    exact ⟨ht.mono (by omega), hlen'.trans hlen⟩

/-- R322, the write pointer: N_SYNC + 1 H steps bring it into every flip-flop. -/
theorem ws_eq_replicate_of_run {ch : Chan} {s t : State} {n : Nat} (hlen : (s.h.ring.get ch).ws.length = s.cfg.nSync)
    (h : Host.Core.run Sys2Proof.core n s = .next t) (hreset : Edge.reset ∉ s.pending.take n)
    (hcount : s.cfg.nSync < hostEdges n s)
    (hkept : ∀ (m : Nat) (u : State), m ≤ n → Host.Core.run Sys2Proof.core m s = .next u →
      (u.a.lane.get ch).wgray = (s.a.lane.get ch).wgray) :
    (t.h.ring.get ch).ws = List.replicate s.cfg.nSync (s.a.lane.get ch).wgray := by
  have hstart : Crossed ch (s.a.lane.get ch).wgray 0 s := ⟨rfl, nofun, by simp⟩
  obtain ⟨ht, hlen'⟩ := hstart.after_run h hreset hkept
  rw [ht.ws_eq_replicate (by omega), hlen', hlen]

/-! ### Idle H edges alone -/

section
variable {caps : List Config.Capture} {rest : List Edge} {s : State}
  (h : s.pending = caps.map (Edge.host none) ++ rest)
include h

/-- Idle H edges run to their end and keep the A side all the way. -/
theorem run_idle_edges : (∃ t : State, Host.Core.run Sys2Proof.core caps.length s = .next t) ∧
    ∀ (m : Nat) (u : State), m ≤ caps.length → Host.Core.run Sys2Proof.core m s = .next u → u.a = s.a := by
  induction caps generalizing s with
  | nil =>
    refine ⟨⟨s, rfl⟩, fun m u hm hu => ?_⟩
    obtain rfl : m = 0 := Nat.le_zero.mp hm
    cases hu
    rfl
  | cons c caps ih =>
    have hstep : step s = .next (hIdle (takeEdge s c)) := step_of_pending _ _ _ h
    obtain ⟨⟨t, ht⟩, hkept⟩ := ih (s := hIdle (takeEdge s c)) (by simp [hIdle, takeEdge, h])
    refine ⟨⟨t, (run_succ_of_step hstep).trans ht⟩, fun m u hm hu => ?_⟩
    cases m with
    | zero => cases hu; rfl
    | succ m => exact hkept m u (Nat.le_of_succ_le_succ hm) ((run_succ_of_step hstep).symm.trans hu)

theorem take_idle_edges : s.pending.take caps.length = caps.map (Edge.host none) := by
  rw [h, List.take_left' (List.length_map ..)]

theorem hostEdges_idle_edges : hostEdges caps.length s = caps.length := by
  rw [hostEdges, take_idle_edges h, List.filter_eq_self.mpr (by simp [isHostEdge]), List.length_map]

end

end Sys2Proof.Machine

namespace Sys2Proof

open Machine Claims

/-- Settles O2: a step runs the next event (`step_of_pending`, `step_of_nothing_pending`). -/
theorem stepRunsThePresentedOperation : Obligations.StepRunsThePresentedOperation := by
  intro s
  refine ⟨fun w c rest h => ?host, fun c rest h => ?idle, fun w c rest h => ?audio, fun rest h => ?reset,
    fun h => ?nothing⟩
  case host | idle | audio =>
    rw [step_of_pending _ _ _ h, ← takeEdge_of_pending h]
    rfl
  case reset => rw [step_of_pending _ _ _ h, runEdge, afterReset, h, List.tail_cons]
  case nothing =>
    obtain ⟨c, hc⟩ := step_of_nothing_pending h
    rw [takeEdge, h] at hc
    exact ⟨c, hc⟩

/-- Settles O27: each H step brings the pointer one flip-flop further, but for the first, which may still capture the
old one (`ws_eq_replicate_of_run`); idle H edges run and push nothing (`run_idle_edges`). -/
theorem writePointerCrossesInBoundedSteps : Obligations.WritePointerCrossesInBoundedSteps := by
  refine ⟨fun ch s t n => ws_eq_replicate_of_run, fun ch s caps rest hlen hcaps hpending => ?_⟩
  obtain ⟨⟨t, hrun⟩, hkept⟩ := run_idle_edges hpending
  have hreset : Edge.reset ∉ s.pending.take caps.length := by simp [take_idle_edges hpending]
  have hcount : s.cfg.nSync < hostEdges caps.length s := by rw [hostEdges_idle_edges hpending]; omega
  exact ⟨t, hcaps ▸ hrun, ws_eq_replicate_of_run hlen hrun hreset hcount
    (fun m u hm hu => by rw [hkept m u hm hu])⟩

end Sys2Proof
end

section
/-! SUPPORT. No step stops under the invariant (60_exceptions R340): every presented event runs. -/

namespace Sys2Proof.Machine

open Sys2Proof

/-- Under the invariant an edge with a word completes as its operation does (`exec_completes_of_inv`); an idle H edge
and a reset always complete. -/
theorem runEdge_completes_of_inv {s : State} (hs : Inv s) (e : Edge) : ∃ t, runEdge s e = .next t := by
  cases e with
  | host word c =>
    cases word with
    | none => exact ⟨hIdle (takeEdge s c), rfl⟩
    | some w => exact exec_completes_of_inv (hs.of_takeEdge c) (decodeHost w)
  | audio w c => exact exec_completes_of_inv (hs.of_takeEdge c) (decodeAudio w)
  | reset => exact ⟨afterReset s, rfl⟩

end Sys2Proof.Machine

namespace Sys2Proof

open Machine

/-- Settles O50: a step runs the next event, and no event stops under the invariant (`runEdge_completes_of_inv`). -/
theorem noStepStopsUnderTheInvariant : Obligations.NoStepStopsUnderTheInvariant :=
  fun s hs => runEdge_completes_of_inv hs (nextEdge s)

end Sys2Proof
end

section
/-! SUPPORT. A NaN in a stage's state (70_reset_and_hazards R392): a chain runs each active stage once, and one biquad
step on a NaN state leaves the canonical NaN in the first state word. -/

namespace Sys2Proof.Machine

open Sys2Proof

/-! ### An active stage of a run -/

section
variable {active : Stage → Bool} {coef : Stages Coef} {j : Stage} {js : List Stage} {st : Stages StageState} {v : F32}

theorem chainRun_get_of_not_mem (hj : j ∉ js) : (chainRun active coef js st v).2.get j = st.get j := by
  induction js generalizing st v with
  | nil => rfl
  | cons i is ih =>
    obtain ⟨hne, hrest⟩ := not_or.mp (List.mem_cons.not.mp hj)
    cases hi : active i with
    | false => rw [chainRun_cons_of_inactive hi, ih hrest]
    | true => rw [chainRun_cons_of_active hi, ih hrest, Stages.get_set, if_neg hne]

/-- A run that meets an active stage once takes one biquad step from that stage's state, on whatever the stages before
it made of the input. -/
theorem chainRun_get_of_active (hact : active j = true) (hj : j ∈ js) (hnd : js.Nodup) :
    ∃ x, (chainRun active coef js st v).2.get j = (biquad (coef.get j) (st.get j) x).2 := by
  induction js generalizing st v with
  | nil => exact absurd hj List.not_mem_nil
  | cons i is ih =>
    obtain ⟨hi, hnd⟩ := List.nodup_cons.mp hnd
    by_cases hij : j = i
    · subst hij
      exact ⟨v, by rw [chainRun_cons_of_active hact, chainRun_get_of_not_mem hi, Stages.get_set, if_pos rfl]⟩
    · have hrest : j ∈ is := (List.mem_cons.mp hj).resolve_left hij
      cases hactive : active i with
      | false => rw [chainRun_cons_of_inactive hactive]; exact ih hrest hnd
      | true =>
        obtain ⟨x, hx⟩ := ih (st := st.set i (biquad (coef.get i) (st.get i) v).2)
          (v := (biquad (coef.get i) (st.get i) v).1) hrest hnd
        exact ⟨x, by rw [chainRun_cons_of_active hactive, hx, Stages.get_set, if_neg hij]⟩

end

theorem chain_get_of_active {a : ADomain} {j : Stage} (h : act a j = true) (ch : Chan) (x : F32) :
    ∃ v, (chain a ch x).2.get j = (biquad (a.coef.get j) ((a.lane.get ch).st.get j) v).2 :=
  chainRun_get_of_active h (mem_stageOrder j) nodup_stageOrder

/-! ### A biquad step on a NaN state -/

/-- R201: the second state word is an addend of the new first one; the first is an addend of the output, which comes back
through `a1`. -/
theorem biquad_s1_of_isNaN (c : Coef) {st : StageState} (h : fIsNaN st.s1 = true ∨ fIsNaN st.s2 = true) (x : F32) :
    (biquad c st x).2.s1 = canonicalNaN := by
  have hcanonical : fIsNaN canonicalNaN = true := by decide
  refine fadd_of_isNaN (h.imp_left fun h1 => ?_)
  have hout : fadd (fmul c.b0 x) st.s1 = canonicalNaN := fadd_of_isNaN (.inr h1)
  rw [hout, fmul_of_isNaN (.inr hcanonical), fsub_of_isNaN (.inr hcanonical), hcanonical]

end Sys2Proof.Machine

namespace Sys2Proof

open Machine

/-- Settles O44: the chain takes one biquad step of the active stage (`chain_get_of_active`), and that step keeps a NaN
(`biquad_s1_of_isNaN`). -/
theorem nanStateStaysNan : Obligations.NanStateStaysNan := by
  intro x0 x1 s t ch j hact hnan h
  obtain ⟨v, hv⟩ := chain_get_of_active hact ch (inputOf x0 x1 ch)
  rw [execFrame_st h, hv]
  exact biquad_s1_of_isNaN _ hnan v

end Sys2Proof
end

section
/-! SUPPORT. A parameter read at the step after a write (20_memory R90, 70_reset_and_hazards R394), and the words SLOPE
and BYPASS give back of what was written (40_host_registers R176 to R179). -/

namespace Sys2Proof.Machine

open Sys2Proof

/-- A read of the store at the step after a parameter write returns what it makes of the set written. -/
theorem hostRead_after_paramWrite (p : ParamSet) (word : ParamSet → Word) (s : State) :
    ∃ t u, paramWrite p s = .next t ∧ hostRead (word t.h.shadow) t = .next u ∧ u.hostOut = some (word p) :=
  ⟨_, _, rfl, rfl, rfl⟩

/-- A word with no bit outside a mask that agrees with `d` under it is `d` cut to the mask. -/
theorem eq_and_of_masked {w d m : Word} (hout : w &&& ~~~m = 0#32)
    (hin : ∀ i : Fin 32, m.getLsbD i = true → w.getLsbD i = d.getLsbD i) : w = d &&& m := by
  apply BitVec.eq_of_getLsbD_eq
  intro i hi
  rw [BitVec.getLsbD_and]
  cases hm : m.getLsbD i with
  | true => rw [hin ⟨i, hi⟩ hm, Bool.and_true]
  | false =>
    have hbit : (w &&& ~~~m).getLsbD i = false := by rw [hout, BitVec.getLsbD_zero]
    rw [BitVec.getLsbD_and, BitVec.getLsbD_not, hm, decide_eq_true hi, Bool.not_false, Bool.and_true,
      Bool.and_true] at hbit
    rw [hbit, Bool.and_false]

theorem getLsbD_eq_of_extractLsb'_eq {x y : Word} {start len : Nat}
    (h : x.extractLsb' start len = y.extractLsb' start len) {i : Nat} (hi : i < len) :
    x.getLsbD (start + i) = y.getLsbD (start + i) := by
  have hbit : (x.extractLsb' start len).getLsbD i = (y.extractLsb' start len).getLsbD i := by rw [h]
  simpa [hi] using hbit

theorem slopeWord_withSlope (p : ParamSet) (d : Word) : slopeWord (p.withSlope d) = d &&& 0x00000303#32 := by
  obtain ⟨hhc, hlc, hout⟩ := slopeWord_fields (p.withSlope d)
  refine eq_and_of_masked hout fun i hi => ?_
  have hfields : ∀ i : Fin 32, (0x00000303#32).getLsbD i = true → i = 0 ∨ i = 1 ∨ i = 8 ∨ i = 9 := by decide
  obtain rfl | rfl | rfl | rfl := hfields i hi
  · exact getLsbD_eq_of_extractLsb'_eq hlc (i := 0) (by decide)
  · exact getLsbD_eq_of_extractLsb'_eq hlc (i := 1) (by decide)
  · exact getLsbD_eq_of_extractLsb'_eq hhc (i := 0) (by decide)
  · exact getLsbD_eq_of_extractLsb'_eq hhc (i := 1) (by decide)

theorem bypassWord_withBypass (p : ParamSet) (d : Word) : bypassWord (p.withBypass d) = d &&& 0x00000007#32 := by
  obtain ⟨hhc, hpk, hlc, hout⟩ := bypassWord_bits (p.withBypass d)
  refine eq_and_of_masked hout fun i hi => ?_
  have hbits : ∀ i : Fin 32, (0x00000007#32).getLsbD i = true → i = 0 ∨ i = 1 ∨ i = 2 := by decide
  obtain rfl | rfl | rfl := hbits i hi
  · exact hlc
  · exact hpk
  · exact hhc

end Sys2Proof.Machine

namespace Sys2Proof

open Machine

/-- Settles O12: each is a parameter write and then a read of the store (`hostRead_after_paramWrite`); SLOPE and BYPASS
give back their implemented bits (`slopeWord_withSlope`, `bypassWord_withBypass`). -/
theorem parameterReadsSeeEarlierWrites : Obligations.ParameterReadsSeeEarlierWrites := by
  intro d s
  rw [← slopeWord_withSlope s.h.shadow d, ← bypassWord_withBypass s.h.shadow d]
  exact ⟨hostRead_after_paramWrite { s.h.shadow with pkFreq := d } ParamSet.pkFreq s,
    hostRead_after_paramWrite { s.h.shadow with pkGain := d } ParamSet.pkGain s,
    hostRead_after_paramWrite { s.h.shadow with pkQ := d } ParamSet.pkQ s,
    hostRead_after_paramWrite { s.h.shadow with lcFreq := d } ParamSet.lcFreq s,
    hostRead_after_paramWrite { s.h.shadow with hcFreq := d } ParamSet.hcFreq s,
    hostRead_after_paramWrite (s.h.shadow.withSlope d) slopeWord s,
    hostRead_after_paramWrite (s.h.shadow.withBypass d) bypassWord s⟩

end Sys2Proof
end

section
/-! SUPPORT. A reset while the machine runs (70_reset_and_hazards R370, R374): the domains are those of the reset state,
and no block is queued. -/

namespace Sys2Proof.Machine

open Sys2Proof

theorem queued_of_occupancy_zero {s : State} {ch : Chan} (h : occupancy s ch = 0) : queued s ch = [] := by
  rw [queued, h, List.range_zero, List.map_nil]

theorem occupancy_afterReset (s : State) (ch : Chan) : occupancy (afterReset s) ch = 0 := occupancy_resetWith s.cfg ch

end Sys2Proof.Machine

namespace Sys2Proof

open Machine

/-- Settles O58: the step is `afterReset`, which takes the event and writes the reset state's registers; its pointers
stand together, so no block is queued (`occupancy_afterReset`). -/
theorem resetWhileRunningDiscardsEverything : Obligations.ResetWhileRunningDiscardsEverything := by
  intro s rest hpending
  have hqueue : ∀ ch, queued (afterReset s) ch = [] := fun ch => queued_of_occupancy_zero (occupancy_afterReset s ch)
  have htail : (afterReset s).pending = rest := by rw [afterReset, hpending, List.tail_cons]
  exact ⟨afterReset s, step_of_pending s .reset rest hpending, rfl, rfl, rfl, hqueue, rfl, htail⟩

end Sys2Proof
end
